-- ==== Sys2Proof/Word.lean ====
section
/-! DEFINITION. The words of the block: 64-bit command, extension and response words (rule R70), and bytes of memory. -/
namespace Sys2Proof

/-- A word of the command port or of the response channel (R70, R71). -/
abbrev Word := BitVec 64

/-- A byte of the buffer (R50). -/
abbrev Byte := BitVec 8

end Sys2Proof
end

