-- ==== Sys2Proof/Config.lean ====
section
/-! DEFINITION. The OPEN parameters of rule R6 as plain data, and the free values of the spec as constants with no body. -/
namespace Sys2Proof

/-- The parameters rule R6 leaves OPEN.  They are plain data that a state carries and no step changes
(log entry 3), so that a statement about every state is a statement about every choice of them. -/
structure Params where
  /-- `ADDR_W`, the width of a buffer byte address, 1 to 64 (R6, D3). -/
  addrW : Nat
  /-- `NUM_INSTANCES`, how many blocks the platform holds, at least 1 (R6, R227, D26). -/
  numInstances : Nat
  /-- `PLATFORM_COHERENT`, whether a host sees the block's completed writes without cache maintenance (R6, R69, D30). -/
  platformCoherent : Bool
deriving DecidableEq, Repr

/-- The ranges rule R6 gives the OPEN parameters. -/
abbrev Params.Legal (p : Params) : Prop := 1 ≤ p.addrW ∧ p.addrW ≤ 64 ∧ 1 ≤ p.numInstances

/-- The parameters `State.reset` carries.  DESIGN CHOICE (log entry 3): the spec leaves them OPEN. -/
def Params.atReset : Params := { addrW := 64, numInstances := 1, platformCoherent := true }

/-- FREE VALUE (log entries 5 to 7): the value of an unspecified memory bit (R57 of 20_memory.md, S1), by the number of
the draw and the absolute bit position.  No body: nothing can be proved of a value of it. -/
opaque Config.freeBit : Nat → Nat → Bool

/-- FREE VALUE (log entry 14): what a host sees of a memory bit where the platform is not coherent (R69, S5), by the
number of the draw and the absolute bit position.  No body. -/
opaque Config.incoherentBit : Nat → Nat → Bool

end Sys2Proof
end

