-- ==== Sys2Proof/Machine/State.lean ====
section
/-! DEFINITION. The state of one BitWriter block and of the memory its window lies in, as plain data (rules R20 to R42),
the reasons a step can stop, and the state at power-on (R40, R240). -/
namespace Sys2Proof.Machine

/-- The arithmetic coder's registers (R140). -/
structure CoderRegs where
  /-- `CODE_LOW`, register 6 (R25). -/
  low : BitVec 10
  /-- `CODE_RANGE`, register 7 (R26). -/
  range : BitVec 9
  /-- `BITS_OUTSTANDING`, register 8 (R27). -/
  outstanding : BitVec 32
  /-- `FIRST_BIT_FLAG`, register 9 (R28). -/
  firstBit : Bool
deriving DecidableEq, Repr

/-- A range `[lo, hi)` of absolute bit positions of memory (position `8*a + j` is bit `7 - j` of the byte at `a`) whose
contents are unspecified, and the number of the draw that gives them (R57, R65; the model's own, log entries 5 to 7). -/
structure Region where
  lo : Nat
  hi : Nat
  draw : Nat
deriving DecidableEq, Repr

/-- The bytes stored in memory, as address and byte pairs: addresses strictly rising, no byte equal to the one an unlisted
address stores. -/
abbrev Memory := List Host.Cell

/-- The block's registers (R20), its command port and response channel (R70), the memory (R50) and the parameters (R6). -/
structure State where
  /-- `STATUS`, register 0: `CONFIGURED` bit 0, `FAULTED` bit 1, `FAULT_CODE` bits 7:4 (R29). -/
  status : BitVec 8
  /-- `BUF_START`, register 1 (R21).  `ADDR_W` bits, held in 64 (log entry 4), as the other addresses are. -/
  bufStart : Word
  /-- `BUF_END`, register 2 (R22). -/
  bufEnd : Word
  /-- `START_BIT_OFFSET`, register 3 (R23). -/
  startBitOffset : BitVec 3
  /-- `CUR_PTR`, register 4 (R24). -/
  curPtr : Word
  /-- `BIT_OFFSET`, register 5 (R24). -/
  bitOffset : BitVec 3
  /-- Registers 6 to 9 (R140). -/
  coder : CoderRegs
  /-- The bytes stored in memory (R50). -/
  mem : Memory
  /-- Bit ranges outside the not yet emitted part of the window whose contents are a free value (the model's own, log entries 6, 7). -/
  drawn : List Region
  /-- The number of the current draw of the window bits not yet emitted (R57; the model's own, log entry 5). -/
  draws : Nat
  /-- The words waiting on the command port, oldest first (R70; log entry 1). -/
  port : List Word
  /-- How many commands have been taken from the port: the place of the next one in program order (R38). -/
  index : Nat
  /-- The response channel, oldest word first (R35). -/
  responses : List Word
  /-- The parameters rule R6 leaves OPEN (log entry 3). -/
  params : Params
deriving DecidableEq, Repr

/-- Why the machine stops.  The faults the spec gives the block are no stops: they are next states with a code in
`STATUS` (R211). -/
inductive Fault where
  /-- The loop of `RenormE` (R146) never ends: its range is 0 or less and doubles for ever.  Raised by ENCODE_BIN only, and only
  in states with `CODE_RANGE` at most the LPS width of the context, which no run reaches (R147).  Safe (log entry 8). -/
  | renormEndless
deriving DecidableEq, Repr

/-- Why an instruction has no meaning. -/
inductive Refusal where
  /-- Raised by an arm of `exec` whose instruction has no meaning yet.  Safe: the machine stops. -/
  | notModelled (mnemonic : String)
deriving DecidableEq, Repr

/-- The state at power-on (R40, R240): `STATUS = 0x00`, an empty response channel, memory untouched.  Every other value is
one the spec does not give: the registers 0 (log entry 2), the port empty and the index 0 (log entry 1), memory contents one
draw of free values (log entry 7), the parameters as `Params.atReset` (log entry 3). -/
def State.reset : State where
  status := 0x00
  bufStart := 0
  bufEnd := 0
  startBitOffset := 0
  curPtr := 0
  bitOffset := 0
  coder := { low := 0, range := 0, outstanding := 0, firstBit := false }
  mem := []
  drawn := [{ lo := 0, hi := 2 ^ 67, draw := 0 }]
  draws := 1
  port := []
  index := 0
  responses := []
  params := Params.atReset

end Sys2Proof.Machine
end

