-- ==== Sys2Proof/Machine/Flags.lean ====
section
/-! DEFINITION. The block's flags: the fields of STATUS (rule R29) and the fault codes recorded there (R212).  The other flag,
FIRST_BIT_FLAG (R28), is a field of the coder registers; there are no condition codes (R39). -/
namespace Sys2Proof.Machine

/-- The causes of a fault (R212). -/
inductive FaultCode where
  | illegalCommand
  | notConfigured
  | operandRange
  | bufferExhausted
  | counterOverflow
deriving DecidableEq, Repr

/-- The value of `FAULT_CODE` for a cause (R212). -/
def faultNumber : FaultCode → BitVec 4
  | .illegalCommand => 1
  | .notConfigured => 2
  | .operandRange => 3
  | .bufferExhausted => 4
  | .counterOverflow => 5

/-- `STATUS.CONFIGURED`, bit 0 (R29). -/
def State.configured (s : State) : Bool := s.status.getLsbD 0

/-- `STATUS.FAULTED`, bit 1 (R29). -/
def State.faulted (s : State) : Bool := s.status.getLsbD 1

/-- `STATUS.FAULT_CODE`, bits 7:4 (R29). -/
def State.faultCode (s : State) : BitVec 4 := s.status.extractLsb' 4 4

/-- A STATUS word from its fields; bits 3:2 are reserved and 0 (R29). -/
def statusWord (configured faulted : Bool) (code : BitVec 4) : BitVec 8 :=
  code ++ 0#2 ++ BitVec.ofBool faulted ++ BitVec.ofBool configured

/-- STATUS after a fault (R211): the first code is kept, `FAULTED` is 1, `CONFIGURED` keeps its value. -/
def State.statusAfterFault (s : State) (code : FaultCode) : BitVec 8 :=
  statusWord s.configured true (if s.faulted then s.faultCode else faultNumber code)

end Sys2Proof.Machine
end

