-- ==== Sys2Proof/Machine/Operands.lean ====
section
/-! DEFINITION. Operand forms: the bit strings a command emits (rule R8), the Exp-Golomb codes (R104, R108), the stop bit and
padding (R110), and the operand checks of RESET (R191). -/
namespace Sys2Proof.Machine

/-- A piece of a bit string in the two forms rule R8 gives: `bits_n(v)` and `repeat(b, k)`. -/
inductive Piece where
  /-- `bits_n(v)`: the `n` bits `v[n-1:0]`, most significant first. -/
  | field (n v : Nat)
  /-- `repeat(b, k)`: `k` copies of `b`. -/
  | rep (b : Bool) (k : Nat)
deriving DecidableEq, Repr

/-- A command's pending output (R10, R80): its pieces in emission order.  Kept in pieces, so that its length is known
without writing out up to 2^32 outstanding bits. -/
abbrev Output := List Piece

/-- The length of a piece. -/
def Piece.len : Piece → Nat
  | .field n _ => n
  | .rep _ k => k

/-- The bits of a piece in emission order. -/
def Piece.bits : Piece → List Bool
  | .field n v => (List.range n).map fun i => v.testBit (n - 1 - i)
  | .rep b k => List.replicate k b

/-- `len(out)` (R8). -/
def Output.len : Output → Nat
  | [] => 0
  | p :: out => p.len + Output.len out

/-- The bit string an output stands for (R8). -/
def Output.bits : Output → List Bool
  | [] => []
  | p :: out => p.bits ++ Output.bits out

/-- The bit length of `m`: the `k` with `2^(k-1) ≤ m < 2^k` (R104; used for `m ≥ 1`). -/
def bitLength (m : Nat) : Nat := m.log2 + 1

/-- The unsigned Exp-Golomb code of `v` (R104): `n - 1` zeros and the `n` bits of `v + 1`. -/
def expGolomb (v : Nat) : Output :=
  [.rep false (bitLength (v + 1) - 1), .field (bitLength (v + 1)) (v + 1)]

/-- The code number of a signed value (R108): `2*x - 1` for a positive `x`, `-2*x` otherwise. -/
def signedCodeNumber (x : Int) : Nat :=
  if 0 < x then (2 * x - 1).toNat else (-2 * x).toNat

/-- The output of PUT_TRAILING_BITS at bit offset `k` (R110): nothing if `CA = 1` and `k = 0`; else the stop bit and zeros to
the next byte boundary. -/
def trailingBits (ca : Bool) (k : Nat) : Output :=
  if ca && k == 0 then [] else [.field 1 1, .rep false ((7 - k) % 8)]

/-- The operands of RESET pass the checks of rule R191. -/
def resetOperandsPass (addrW : Nat) (sbo : BitVec 3) (start stop : Word) : Bool :=
  decide (start.toNat < 2 ^ addrW) && decide (stop.toNat < 2 ^ addrW)
    && decide (start.toNat ≤ stop.toNat)
    && (start != stop || sbo == 0)
    && decide (8 * (stop.toNat - start.toNat) < 2 ^ 64)

end Sys2Proof.Machine
end

