-- ==== Sys2Proof/Machine/Ops.lean ====
section
/-! DEFINITION. The named operations on memory, the cursor and the registers: the masked bit write (rule R52), the window bits
not yet emitted (R57), the capacity check (R59), taking a fault (R211), the commit step (R80) and binding a window (R190). -/
namespace Sys2Proof.Machine

/-! ### Memory -/

/-- The byte an unlisted address stores.  It shows only where no free value stands over it (log entry 7). -/
def unlistedByte : Byte := 0

/-- The byte stored at an address. -/
def Memory.read : Memory → Nat → Byte
  | [], _ => unlistedByte
  | (k, v) :: m, a => if k = a then v else Memory.read m a

/-- A cell in front of a memory, left out if it says what an unlisted address stores. -/
def Memory.cell (a : Nat) (v : Byte) (m : Memory) : Memory := if v = unlistedByte then m else (a, v) :: m

/-- Stores a byte, keeping the canonical form. -/
def Memory.write : Memory → Nat → Byte → Memory
  | [], a, v => Memory.cell a v []
  | (k, x) :: m, a, v =>
    if a < k then Memory.cell a v ((k, x) :: m)
    else if a = k then Memory.cell a v m
    else (k, x) :: Memory.write m a v

/-- Every address is at least `lo`, addresses rise strictly, and no cell says what an unlisted address stores. -/
def Memory.wfFrom : Nat → Memory → Bool
  | _, [] => true
  | lo, (k, v) :: m => decide (lo ≤ k) && v != unlistedByte && Memory.wfFrom (k + 1) m

/-- The canonical form of memory. -/
def Memory.wf (m : Memory) : Bool := Memory.wfFrom 0 m

/-- `v` with bit `k` set to `b` and its other seven bits as they were (R10, `MemWriteBit`). -/
def setBit (v : Byte) (k : Nat) (b : Bool) : Byte :=
  if b then v ||| BitVec.twoPow 8 k else v &&& ~~~ BitVec.twoPow 8 k

/-- The stored bit at absolute position `P`: bit `7 - P mod 8` of the byte at `P / 8` (R53). -/
def Memory.bit (m : Memory) (P : Nat) : Bool := (Memory.read m (P / 8)).getLsbD (7 - P % 8)

/-- `MemWriteBit` at absolute position `P` (R52). -/
def Memory.writeBit (m : Memory) (P : Nat) (b : Bool) : Memory :=
  Memory.write m (P / 8) (setBit (Memory.read m (P / 8)) (7 - P % 8) b)

/-- Writes bits in emission order from absolute position `P` on (R52). -/
def Memory.writeBits : Memory → Nat → List Bool → Memory
  | m, _, [] => m
  | m, P, b :: bs => Memory.writeBits (Memory.writeBit m P b) (P + 1) bs

/-! ### Unspecified bits -/

/-- What is left of a region without the positions `[lo, hi)`. -/
def Region.minus (r : Region) (lo hi : Nat) : List Region :=
  (if r.lo < min r.hi lo then [{ r with hi := min r.hi lo }] else [])
    ++ (if max r.lo hi < r.hi then [{ r with lo := max r.lo hi }] else [])

/-- What is left of a list of regions without the positions `[lo, hi)`. -/
def regionsMinus (rs : List Region) (lo hi : Nat) : List Region := rs.flatMap fun r => r.minus lo hi

/-- The draw that gives position `P` its value, if a region covers it. -/
def drawAt : List Region → Nat → Option Nat
  | [], _ => none
  | r :: rs, P => if r.lo ≤ P ∧ P < r.hi then some r.draw else drawAt rs P

/-! ### The cursor and the window -/

/-- The cursor as an absolute bit position of memory, `8*CUR_PTR + BIT_OFFSET` (R24). -/
def State.absPos (s : State) : Nat := 8 * s.curPtr.toNat + s.bitOffset.toNat

/-- `pos = 8*(CUR_PTR - BUF_START) + BIT_OFFSET` (R24, R59), exact. -/
def State.pos (s : State) : Int := 8 * ((s.curPtr.toNat : Int) - s.bufStart.toNat) + s.bitOffset.toNat

/-- `cap = 8*(BUF_END - BUF_START)` (R59), exact. -/
def State.cap (s : State) : Int := 8 * ((s.bufEnd.toNat : Int) - s.bufStart.toNat)

/-- The capacity check `pos + len(out) ≤ cap` (R59). -/
def State.fits (s : State) (out : Output) : Bool := decide (s.pos + (Output.len out : Int) ≤ s.cap)

/-- `BIT_COUNT` (R30), exact. -/
def State.bitCount (s : State) : Int := s.pos - s.startBitOffset.toNat

/-- The window bits at or after the cursor, which hold the current draw (R57). -/
def State.tail (s : State) : List Region :=
  if s.configured && decide (s.absPos < 8 * s.bufEnd.toNat) then
    [{ lo := s.absPos, hi := 8 * s.bufEnd.toNat, draw := s.draws }]
  else []

/-- All regions of memory that hold free values. -/
def State.unspecified (s : State) : List Region := s.tail ++ s.drawn

/-- What memory holds at absolute bit position `P`: a free value where the spec gives none, else the stored bit. -/
def State.readBit (s : State) (P : Nat) : Bool :=
  (drawAt s.unspecified P).elim (Memory.bit s.mem P) fun d => Config.freeBit d P

/-- What memory holds at address `a`, as eight bits, most significant first (R53). -/
def State.readByte (s : State) (a : Nat) : List Bool := (List.range 8).map fun j => s.readBit (8 * a + j)

/-- A new draw of the window bits not yet emitted (R57). -/
def State.redraw (s : State) : State := { s with draws := s.draws + 1 }

/-! ### Faults, responses, the commit step -/

/-- TAKING A FAULT (R211): `raise Fault(code)` changes STATUS and nothing else. -/
def State.raise (s : State) (code : FaultCode) : State := { s with status := s.statusAfterFault code }

/-- `respond(v)` (R10, R73). -/
def State.respond (s : State) (v : Word) : State := { s with responses := s.responses ++ [v] }

/-- What the compute step of rule R80 leaves for the commit step. -/
structure Result where
  /-- The pending output. -/
  out : Output
  /-- The coder registers the commit step writes. -/
  coder : CoderRegs
  /-- The response, if the command responds (R73). -/
  response : Option Word
deriving DecidableEq, Repr

/-- How the operand check and the compute step of rule R80 end. -/
inductive Computed where
  /-- The step is done. -/
  | done (r : Result)
  /-- `raise Fault(code)`. -/
  | raise (code : FaultCode)
  /-- The loop of `RenormE` never ends (log entry 8). -/
  | endless
deriving DecidableEq, Repr

/-- The emitted bits are in memory and the cursor is after them (R52). -/
def State.emit (s : State) (out : Output) : State :=
  { s with
    mem := Memory.writeBits s.mem s.absPos (Output.bits out)
    curPtr := BitVec.ofNat 64 ((s.absPos + Output.len out) / 8)
    bitOffset := BitVec.ofNat 3 ((s.absPos + Output.len out) % 8) }

/-- The commit step of rule R80: emit the output, write the coder registers, respond.  The window bits not yet emitted are
drawn anew (R57: "after every command"; log entry 5). -/
def State.commit (s : State) (r : Result) : State :=
  let t : State := { s.emit r.out with coder := r.coder }
  match r.response with
  | some v => (t.respond v).redraw
  | none => t.redraw

/-- Rule R80 for every command but RESET and READ_REG, given its compute step: discarded while FAULTED (R215), NOT_CONFIGURED
before a good RESET (R213), then the faults of the compute step, then the capacity check on the whole output (R59, R214), then
the commit. -/
def State.execute (s : State) (c : Computed) : Host.Outcome State Fault Refusal :=
  if s.faulted then .next s
  else if s.configured then
    match c with
    | .raise code => .next (s.raise code)
    | .endless => .fault .renormEndless
    | .done r => if s.fits r.out then .next (s.commit r) else .next (s.raise .bufferExhausted)
  else .next (s.raise .notConfigured)

/-! ### Binding a window: the recovery from a fault -/

/-- The coder registers after a good RESET (R41, R190). -/
def coderInit : CoderRegs := { low := 0, range := 510, outstanding := 0, firstBit := true }

/-- A good RESET (R41, R190), the only way out of a fault (R216).  Memory is not written.  The bits of the new window from the cursor on
hold a new draw (R57); unspecified bits outside it keep the draw they had (log entry 6). -/
def State.bindWindow (s : State) (sbo : BitVec 3) (start stop : Word) : State :=
  { s with
    status := statusWord true false 0
    bufStart := start
    bufEnd := stop
    startBitOffset := sbo
    curPtr := start
    bitOffset := sbo
    coder := coderInit
    drawn := regionsMinus s.unspecified (8 * start.toNat + sbo.toNat) (8 * stop.toNat)
    draws := s.draws + 1 }

/-- Register `n` of rule R20 as READ_REG reads it, zero-extended to 64 bits; `none` for a number above 10. -/
def State.register (s : State) : Nat → Option Word
  | 0 => some (s.status.setWidth 64)
  | 1 => some s.bufStart
  | 2 => some s.bufEnd
  | 3 => some (s.startBitOffset.setWidth 64)
  | 4 => some s.curPtr
  | 5 => some (s.bitOffset.setWidth 64)
  | 6 => some (s.coder.low.setWidth 64)
  | 7 => some (s.coder.range.setWidth 64)
  | 8 => some (s.coder.outstanding.setWidth 64)
  | 9 => some ((BitVec.ofBool s.coder.firstBit).setWidth 64)
  | 10 => some (BitVec.ofInt 64 s.bitCount)
  | _ => none

end Sys2Proof.Machine
end

