-- ==== Sys2Proof/Machine/Tables.lean ====
section
/-! DEFINITION. The constant tables of the arithmetic coder (rules R32, R141, R142).  The spec gives the values, and marks them as
general knowledge; the model takes them from the spec (log entry 16). -/
namespace Sys2Proof.Machine

/-- A row of the table of rule R141: the four LPS widths by quantisation index and the two transitions. -/
structure TableRow where
  q0 : Nat
  q1 : Nat
  q2 : Nat
  q3 : Nat
  lps : Nat
  mps : Nat
deriving DecidableEq, Repr

/-- States 0 to 15 of the table of rule R141. -/
def coderRows0 : List TableRow :=
  [⟨128, 176, 208, 240, 0, 1⟩,
    ⟨128, 167, 197, 227, 0, 2⟩,
    ⟨128, 158, 187, 216, 1, 3⟩,
    ⟨123, 150, 178, 205, 2, 4⟩,
    ⟨116, 142, 169, 195, 2, 5⟩,
    ⟨111, 135, 160, 185, 4, 6⟩,
    ⟨105, 128, 152, 175, 4, 7⟩,
    ⟨100, 122, 144, 166, 5, 8⟩,
    ⟨95, 116, 137, 158, 6, 9⟩,
    ⟨90, 110, 130, 150, 7, 10⟩,
    ⟨85, 104, 123, 142, 8, 11⟩,
    ⟨81, 99, 117, 135, 9, 12⟩,
    ⟨77, 94, 111, 128, 9, 13⟩,
    ⟨73, 89, 105, 122, 11, 14⟩,
    ⟨69, 85, 100, 116, 11, 15⟩,
    ⟨66, 80, 95, 110, 12, 16⟩]

/-- States 16 to 31 of the table of rule R141. -/
def coderRows1 : List TableRow :=
  [⟨62, 76, 90, 104, 13, 17⟩,
    ⟨59, 72, 86, 99, 13, 18⟩,
    ⟨56, 69, 81, 94, 15, 19⟩,
    ⟨53, 65, 77, 89, 15, 20⟩,
    ⟨51, 62, 73, 85, 16, 21⟩,
    ⟨48, 59, 69, 80, 16, 22⟩,
    ⟨46, 56, 66, 76, 18, 23⟩,
    ⟨43, 53, 63, 72, 18, 24⟩,
    ⟨41, 50, 59, 69, 19, 25⟩,
    ⟨39, 48, 56, 65, 19, 26⟩,
    ⟨37, 45, 54, 62, 21, 27⟩,
    ⟨35, 43, 51, 59, 21, 28⟩,
    ⟨33, 41, 48, 56, 22, 29⟩,
    ⟨32, 39, 46, 53, 22, 30⟩,
    ⟨30, 37, 43, 50, 23, 31⟩,
    ⟨29, 35, 41, 48, 24, 32⟩]

/-- States 32 to 47 of the table of rule R141. -/
def coderRows2 : List TableRow :=
  [⟨27, 33, 39, 45, 24, 33⟩,
    ⟨26, 31, 37, 43, 25, 34⟩,
    ⟨24, 30, 35, 41, 26, 35⟩,
    ⟨23, 28, 33, 39, 26, 36⟩,
    ⟨22, 27, 32, 37, 27, 37⟩,
    ⟨21, 26, 30, 35, 27, 38⟩,
    ⟨20, 24, 29, 33, 28, 39⟩,
    ⟨19, 23, 27, 31, 29, 40⟩,
    ⟨18, 22, 26, 30, 29, 41⟩,
    ⟨17, 21, 25, 28, 30, 42⟩,
    ⟨16, 20, 23, 27, 30, 43⟩,
    ⟨15, 19, 22, 25, 30, 44⟩,
    ⟨14, 18, 21, 24, 31, 45⟩,
    ⟨14, 17, 20, 23, 32, 46⟩,
    ⟨13, 16, 19, 22, 32, 47⟩,
    ⟨12, 15, 18, 21, 33, 48⟩]

/-- States 48 to 63 of the table of rule R141. -/
def coderRows3 : List TableRow :=
  [⟨12, 14, 17, 20, 33, 49⟩,
    ⟨11, 14, 16, 19, 33, 50⟩,
    ⟨11, 13, 15, 18, 34, 51⟩,
    ⟨10, 12, 15, 17, 34, 52⟩,
    ⟨10, 12, 14, 16, 35, 53⟩,
    ⟨9, 11, 13, 15, 35, 54⟩,
    ⟨9, 11, 12, 14, 35, 55⟩,
    ⟨8, 10, 12, 14, 36, 56⟩,
    ⟨8, 9, 11, 13, 36, 57⟩,
    ⟨7, 9, 11, 12, 36, 58⟩,
    ⟨7, 9, 10, 12, 37, 59⟩,
    ⟨7, 8, 10, 11, 37, 60⟩,
    ⟨6, 8, 9, 11, 37, 61⟩,
    ⟨6, 7, 9, 10, 38, 62⟩,
    ⟨6, 7, 8, 9, 38, 62⟩,
    ⟨2, 2, 2, 2, 63, 63⟩]

/-- The table of rule R141, one row per state index. -/
def coderRows : List TableRow := coderRows0 ++ coderRows1 ++ coderRows2 ++ coderRows3

/-- The row of a state index; every 6-bit index has one. -/
def coderRow (s : BitVec 6) : TableRow := coderRows.getD s.toNat ⟨2, 2, 2, 2, 63, 63⟩

/-- `RANGE_TAB_LPS[s][q]` (R141). -/
def rangeTabLps (s : BitVec 6) (q : BitVec 2) : Nat :=
  match q.toNat with
  | 0 => (coderRow s).q0
  | 1 => (coderRow s).q1
  | 2 => (coderRow s).q2
  | _ => (coderRow s).q3

/-- `TRANS_IDX_LPS[s]` (R142). -/
def transIdxLps (s : BitVec 6) : BitVec 6 := BitVec.ofNat 6 (coderRow s).lps

/-- `TRANS_IDX_MPS[s]` (R142). -/
def transIdxMps (s : BitVec 6) : BitVec 6 := BitVec.ofNat 6 (coderRow s).mps

end Sys2Proof.Machine
end

