-- ==== Sys2Proof/Machine/ArithCoder.lean ====
section
/-! DEFINITION. The binary arithmetic encoder (41_arith_coder.md): `PutBitC`, `RenormE`, ENCODE_BIN, ENCODE_BIN_EP, SLICE_FINISH.
The compute steps work on exact integers (rules R7, R176); only the commit step narrows them to the registers. -/
namespace Sys2Proof.Machine

/-- The local copies `low`, `range`, `bo`, `fbf` and the pending output `out` of a compute step (R80). -/
structure Coder where
  low : Int
  range : Int
  outstanding : Nat
  firstBit : Bool
  out : Output
deriving DecidableEq, Repr

/-- How a compute step of the coder goes on. -/
inductive CoderRun where
  /-- It has these local copies. -/
  | ok (c : Coder)
  /-- `BITS_OUTSTANDING` would exceed `2^32 - 1` (R148). -/
  | overflow
  /-- The loop of `RenormE` never ends (log entry 8). -/
  | endless
deriving DecidableEq, Repr

/-- The local copies at the start of a command (R80). -/
def CoderRegs.load (r : CoderRegs) : Coder where
  low := r.low.toNat
  range := r.range.toNat
  outstanding := r.outstanding.toNat
  firstBit := r.firstBit
  out := []

/-- The registers the commit step writes from the local copies (R80), each at its width (R25 to R28; log entry 9). -/
def Coder.store (c : Coder) : CoderRegs where
  low := BitVec.ofInt 10 c.low
  range := BitVec.ofInt 9 c.range
  outstanding := BitVec.ofNat 32 c.outstanding
  firstBit := c.firstBit

/-- `PutBitC(b)` (R145): the bit itself unless it is the first one, then the outstanding bits, opposite to it. -/
def Coder.putBitC (c : Coder) (b : Bool) : Coder :=
  { c with
    firstBit := false
    out := c.out ++ ((if c.firstBit then [] else [.rep b 1]) ++ [.rep (!b) c.outstanding])
    outstanding := 0 }

/-- `low <- low - by; bo <- bo + 1`: a deferred decision, or counter overflow (R146, R148, R160). -/
def Coder.defer (c : Coder) (by_ : Int) : Option Coder :=
  if 2 ^ 32 - 1 < c.outstanding + 1 then none
  else some { c with low := c.low - by_, outstanding := c.outstanding + 1 }

/-- `range <- range << 1; low <- low << 1` (R146). -/
def Coder.double (c : Coder) : Coder := { c with low := 2 * c.low, range := 2 * c.range }

/-- One pass of the loop of `RenormE` (R146); `none` on counter overflow. -/
def Coder.renormPass (c : Coder) : Option Coder :=
  if c.low < 256 then some (c.putBitC false).double
  else if 512 ≤ c.low then some (({ c with low := c.low - 512 } : Coder).putBitC true).double
  else (c.defer 256).map Coder.double

/-- The loop of `RenormE` (R146), at most `fuel` passes. -/
def renormLoop : Nat → Coder → CoderRun
  | 0, c => if c.range < 256 then .endless else .ok c
  | fuel + 1, c =>
    if c.range < 256 then
      match c.renormPass with
      | some c' => renormLoop fuel c'
      | none => .overflow
    else .ok c

/-- `RenormE()` (R146).  A positive range reaches 256 in at most 8 passes; with a range of 0 or less the loop never ends, and a
counter overflow shows within 10 passes or never, so 16 passes tell the cases apart (log entry 8). -/
def renormE (c : Coder) : CoderRun := renormLoop 16 c

/-- The compute step's end: what the commit step writes, or the fault. -/
def CoderRun.computed (response : Option Word) : CoderRun → Computed
  | .ok c => .done { out := c.out, coder := c.store, response := response }
  | .overflow => .raise .counterOverflow
  | .endless => .endless

/-! ### ENCODE_BIN -/

/-- `CTX[5:0]`, the state index (R143). -/
def ctxState (ctx : BitVec 7) : BitVec 6 := ctx.extractLsb' 0 6

/-- `CTX[6]`, the most probable symbol (R143). -/
def ctxMps (ctx : BitVec 7) : Bool := ctx.getLsbD 6

/-- `ctx' <- (mps << 6) | s` (R150). -/
def packCtx (mps : Bool) (s : BitVec 6) : BitVec 7 := BitVec.ofBool mps ++ s

/-- The updated context (R150, R151). -/
def nextCtx (ctx : BitVec 7) (bin : Bool) : BitVec 7 :=
  if bin = ctxMps ctx then packCtx (ctxMps ctx) (transIdxMps (ctxState ctx))
  else packCtx (if ctxState ctx = 0 then !ctxMps ctx else ctxMps ctx) (transIdxLps (ctxState ctx))

/-- `q = (range >> 6) & 3`, bits 7:6 of the range (R144). -/
def quantIndex (range : BitVec 9) : BitVec 2 := range.extractLsb' 6 2

/-- The coder with the sub-interval of the bin chosen, before `RenormE` (R150): the lower one for the MPS; for the LPS the
upper one, above the reduced range (90_conflicts.md C2). -/
def chooseInterval (r : CoderRegs) (ctx : BitVec 7) (bin : Bool) : Coder :=
  let lps : Int := rangeTabLps (ctxState ctx) (quantIndex r.range)
  let c := r.load
  if bin = ctxMps ctx then { c with range := c.range - lps }
  else { c with low := c.low + (c.range - lps), range := lps }

/-- The compute step of ENCODE_BIN (R150). -/
def computeEncodeBin (r : CoderRegs) (ctx : BitVec 7) (bin : Bool) : Computed :=
  (renormE (chooseInterval r ctx bin)).computed (some ((nextCtx ctx bin).setWidth 64))

/-- ENCODE_BIN (R150). -/
def execEncodeBin (ctx : BitVec 7) (bin : Bool) (s : State) : Host.Outcome State Fault Refusal :=
  s.execute (computeEncodeBin s.coder ctx bin)

/-! ### ENCODE_BIN_EP -/

/-- The bypass decision on the doubled `low` (R160; 90_conflicts.md C3); `none` on counter overflow. -/
def Coder.bypassDecide (c : Coder) : Option Coder :=
  if 1024 ≤ c.low then some (({ c with low := c.low - 1024 } : Coder).putBitC true)
  else if c.low < 512 then some (c.putBitC false)
  else c.defer 512

/-- `low <- (low << 1) + (BIN = 1 ? range : 0)` (R160). -/
def bypassDouble (c : Coder) (bin : Bool) : Coder := { c with low := 2 * c.low + if bin then c.range else 0 }

/-- The compute step of ENCODE_BIN_EP (R160). -/
def computeEncodeBinEp (r : CoderRegs) (bin : Bool) : Computed :=
  match (bypassDouble r.load bin).bypassDecide with
  | some c => (CoderRun.ok c).computed none
  | none => CoderRun.overflow.computed none

/-- ENCODE_BIN_EP (R160). -/
def execEncodeBinEp (bin : Bool) (s : State) : Host.Outcome State Fault Refusal :=
  s.execute (computeEncodeBinEp s.coder bin)

/-! ### SLICE_FINISH -/

/-- `range <- range - 2; low <- low + range; range <- 2` (R170). -/
def chooseTerminate (r : CoderRegs) : Coder :=
  { r.load with low := r.load.low + (r.load.range - 2), range := 2 }

/-- Bit `k` of an integer (R170, `(low >> k) & 1`). -/
def intBit (x : Int) (k : Nat) : Bool := x / 2 ^ k % 2 == 1

/-- The flush after `RenormE` (R170): bit 9 of `low` through `PutBitC`, bit 8 directly, then the trailing bits with `CA = 0` at the
cursor position after them. -/
def Coder.flush (c : Coder) (bitOffset : Nat) : Coder :=
  let d := c.putBitC (intBit c.low 9)
  let out := d.out ++ [.field 1 (intBit d.low 8).toNat]
  { d with out := out ++ trailingBits false ((bitOffset + Output.len out) % 8) }

/-- The compute step of SLICE_FINISH (R170). -/
def computeSliceFinish (r : CoderRegs) (bitOffset : Nat) : Computed :=
  match renormE (chooseTerminate r) with
  | .ok c => (CoderRun.ok (c.flush bitOffset)).computed none
  | .overflow => CoderRun.overflow.computed none
  | .endless => CoderRun.endless.computed none

/-- SLICE_FINISH (R170). -/
def execSliceFinish (s : State) : Host.Outcome State Fault Refusal :=
  s.execute (computeSliceFinish s.coder s.bitOffset.toNat)

end Sys2Proof.Machine
end

