-- ==== Sys2Proof/Machine/BitWriter.lean ====
section
/-! DEFINITION. The bit-writer commands (40_bitwriter.md): PUT_BITS, PUT_BIT, PUT_UE, PUT_SE, PUT_TRAILING_BITS, GET_BIT_OFFSET. -/
namespace Sys2Proof.Machine

/-- The compute step of a command that emits `out`, leaves the coder registers as they are (R113) and does not respond. -/
def State.emitOnly (s : State) (out : Output) : Computed := .done { out := out, coder := s.coder, response := none }

/-- The compute step of PUT_BITS (R100): the low `N` bits of `VALUE`, most significant first; `N > 32` is OPERAND_RANGE. -/
def computePutBits (n : BitVec 6) (value : BitVec 32) (s : State) : Computed :=
  if 32 < n.toNat then .raise .operandRange else s.emitOnly [.field n.toNat value.toNat]

/-- PUT_BITS (R100). -/
def execPutBits (n : BitVec 6) (value : BitVec 32) (s : State) : Host.Outcome State Fault Refusal :=
  s.execute (computePutBits n value s)

/-- The compute step of PUT_BIT (R102): exactly one bit. -/
def computePutBit (b : Bool) (s : State) : Computed := s.emitOnly [.field 1 b.toNat]

/-- PUT_BIT (R102). -/
def execPutBit (b : Bool) (s : State) : Host.Outcome State Fault Refusal := s.execute (computePutBit b s)

/-- The compute step of PUT_UE (R104): the unsigned Exp-Golomb code; `0xFFFFFFFF` is OPERAND_RANGE (R106). -/
def computePutUe (value : BitVec 32) (s : State) : Computed :=
  if value = 0xFFFFFFFF then .raise .operandRange else s.emitOnly (expGolomb value.toNat)

/-- PUT_UE (R104). -/
def execPutUe (value : BitVec 32) (s : State) : Host.Outcome State Fault Refusal := s.execute (computePutUe value s)

/-- The compute step of PUT_SE (R108): the code of the signed value's code number; `-2^31` is OPERAND_RANGE. -/
def computePutSe (value : BitVec 32) (s : State) : Computed :=
  if value.toInt = -2 ^ 31 then .raise .operandRange else s.emitOnly (expGolomb (signedCodeNumber value.toInt))

/-- PUT_SE (R108). -/
def execPutSe (value : BitVec 32) (s : State) : Host.Outcome State Fault Refusal := s.execute (computePutSe value s)

/-- The compute step of PUT_TRAILING_BITS (R110): the stop bit and padding to the next byte boundary, or nothing. -/
def computePutTrailingBits (ca : Bool) (s : State) : Computed := s.emitOnly (trailingBits ca s.bitOffset.toNat)

/-- PUT_TRAILING_BITS (R110). -/
def execPutTrailingBits (ca : Bool) (s : State) : Host.Outcome State Fault Refusal :=
  s.execute (computePutTrailingBits ca s)

/-- The compute step of GET_BIT_OFFSET (R112): responds `zext_64(BIT_COUNT)`, emits nothing. -/
def computeGetBitOffset (s : State) : Computed :=
  .done { out := [], coder := s.coder, response := some (BitVec.ofInt 64 s.bitCount) }

/-- GET_BIT_OFFSET (R112). -/
def execGetBitOffset (s : State) : Host.Outcome State Fault Refusal := s.execute (computeGetBitOffset s)

end Sys2Proof.Machine
end

