-- ==== Sys2Proof/Machine/Control.lean ====
section
/-! DEFINITION. The control commands (42_control.md): RESET and READ_REG.  They run in every state of STATUS (rule R213). -/
namespace Sys2Proof.Machine

/-- RESET (R190): OPERAND_RANGE if the operands fail rule R191, else the window is bound and the coder initialised. -/
def execReset (sbo : BitVec 3) (start stop : Word) (s : State) : Host.Outcome State Fault Refusal :=
  if resetOperandsPass s.params.addrW sbo start stop then .next (s.bindWindow sbo start stop)
  else .next (s.raise .operandRange)

/-- READ_REG (R193): OPERAND_RANGE for a number above 10, then NOT_CONFIGURED for registers 1 to 10 before a good RESET, else the
register's value as the response. -/
def execReadReg (reg : BitVec 8) (s : State) : Host.Outcome State Fault Refusal :=
  match s.register reg.toNat with
  | none => .next (s.raise .operandRange)
  | some v =>
    if reg ≠ 0 ∧ s.configured = false then .next (s.raise .notConfigured)
    else .next (s.respond v).redraw

end Sys2Proof.Machine
end

