-- ==== Sys2Proof/Syntax.lean ====
section
/-! DEFINITION. The eleven commands of the opcode map (rule R74), with the operand fields of rule R76 at their own widths. -/
namespace Sys2Proof

/-- A command of the block, one constructor per row of the opcode table (R74). -/
inductive Instr where
  /-- RESET: `SBO`, `START`, `END` (R190). -/
  | reset (sbo : BitVec 3) (start stop : Word)
  /-- PUT_BITS: `N`, `VALUE` (R100). -/
  | putBits (n : BitVec 6) (value : BitVec 32)
  /-- PUT_BIT: `B` (R102). -/
  | putBit (b : Bool)
  /-- PUT_UE: `VALUE`, unsigned (R104). -/
  | putUe (value : BitVec 32)
  /-- PUT_SE: `VALUE`, two's complement (R108). -/
  | putSe (value : BitVec 32)
  /-- PUT_TRAILING_BITS: `CA` (R110). -/
  | putTrailingBits (ca : Bool)
  /-- GET_BIT_OFFSET (R112). -/
  | getBitOffset
  /-- ENCODE_BIN: `CTX` (state in bits 5:0, MPS in bit 6, R143), `BIN` (R150). -/
  | encodeBin (ctx : BitVec 7) (bin : Bool)
  /-- ENCODE_BIN_EP: `BIN` (R160). -/
  | encodeBinEp (bin : Bool)
  /-- SLICE_FINISH (R170). -/
  | sliceFinish
  /-- READ_REG: `REG` (R193). -/
  | readReg (reg : BitVec 8)
deriving DecidableEq, Repr

end Sys2Proof
end

