-- ==== Sys2Proof/Machine/Dispatch.lean ====
section
/-! DEFINITION. One arm per command: its meaning. -/
namespace Sys2Proof.Machine

def exec (i : Instr) (s : State) : Host.Outcome State Fault Refusal :=
  match i with
  | .reset sbo start stop => Sys2Proof.Machine.execReset sbo start stop s
  | .putBits n value => Sys2Proof.Machine.execPutBits n value s
  | .putBit b => Sys2Proof.Machine.execPutBit b s
  | .putUe value => Sys2Proof.Machine.execPutUe value s
  | .putSe value => Sys2Proof.Machine.execPutSe value s
  | .putTrailingBits ca => Sys2Proof.Machine.execPutTrailingBits ca s
  | .getBitOffset => Sys2Proof.Machine.execGetBitOffset s
  | .encodeBin ctx bin => Sys2Proof.Machine.execEncodeBin ctx bin s
  | .encodeBinEp bin => Sys2Proof.Machine.execEncodeBinEp bin s
  | .sliceFinish => Sys2Proof.Machine.execSliceFinish s
  | .readReg reg => Sys2Proof.Machine.execReadReg reg s

end Sys2Proof.Machine
end

