-- ==== Sys2Proof/Decode.lean ====
section
/-! DEFINITION. Decoding the words at the head of the command port (rules R71 to R76, R86), and the encoder. -/
namespace Sys2Proof

/-- A row of the opcode map (R74): a legal first word `w0` has `w0 &&& mask = pattern`.  `words` is the length (R72). -/
structure OpRow where
  mnemonic : String
  pattern : Word
  mask : Word
  words : Nat
deriving DecidableEq, Repr

/-- The match and mask of RESET (R75). -/
def rowReset : OpRow := ⟨"RESET", 0x01, 0xFFFFFFFFFFFFF8FF, 3⟩
/-- The match and mask of PUT_BITS (R75). -/
def rowPutBits : OpRow := ⟨"PUT_BITS", 0x02, 0x00000000FFFFC0FF, 1⟩
/-- The match and mask of PUT_BIT (R75). -/
def rowPutBit : OpRow := ⟨"PUT_BIT", 0x03, 0xFFFFFFFFFFFFFEFF, 1⟩
/-- The match and mask of PUT_UE (R75). -/
def rowPutUe : OpRow := ⟨"PUT_UE", 0x04, 0x00000000FFFFFFFF, 1⟩
/-- The match and mask of PUT_SE (R75). -/
def rowPutSe : OpRow := ⟨"PUT_SE", 0x05, 0x00000000FFFFFFFF, 1⟩
/-- The match and mask of PUT_TRAILING_BITS (R75). -/
def rowPutTrailingBits : OpRow := ⟨"PUT_TRAILING_BITS", 0x06, 0xFFFFFFFFFFFFFEFF, 1⟩
/-- The match and mask of GET_BIT_OFFSET (R75). -/
def rowGetBitOffset : OpRow := ⟨"GET_BIT_OFFSET", 0x07, 0xFFFFFFFFFFFFFFFF, 1⟩
/-- The match and mask of ENCODE_BIN (R75). -/
def rowEncodeBin : OpRow := ⟨"ENCODE_BIN", 0x08, 0xFFFFFFFFFF80FEFF, 1⟩
/-- The match and mask of ENCODE_BIN_EP (R75). -/
def rowEncodeBinEp : OpRow := ⟨"ENCODE_BIN_EP", 0x09, 0xFFFFFFFFFFFFFEFF, 1⟩
/-- The match and mask of SLICE_FINISH (R75). -/
def rowSliceFinish : OpRow := ⟨"SLICE_FINISH", 0x0A, 0xFFFFFFFFFFFFFFFF, 1⟩
/-- The match and mask of READ_REG (R75). -/
def rowReadReg : OpRow := ⟨"READ_REG", 0x0B, 0xFFFFFFFFFFFF00FF, 1⟩

/-- The opcode map (R74, R75), in the table's order. -/
def opRows : List OpRow :=
  [rowReset, rowPutBits, rowPutBit, rowPutUe, rowPutSe, rowPutTrailingBits, rowGetBitOffset, rowEncodeBin,
    rowEncodeBinEp, rowSliceFinish, rowReadReg]

/-- "A decoder matches `(w0 & mask) == match`" (R74). -/
def OpRow.accepts (r : OpRow) (w0 : Word) : Bool := w0 &&& r.mask == r.pattern

/-- The row of a command (R74). -/
def Instr.row : Instr → OpRow
  | .reset _ _ _ => rowReset
  | .putBits _ _ => rowPutBits
  | .putBit _ => rowPutBit
  | .putUe _ => rowPutUe
  | .putSe _ => rowPutSe
  | .putTrailingBits _ => rowPutTrailingBits
  | .getBitOffset => rowGetBitOffset
  | .encodeBin _ _ => rowEncodeBin
  | .encodeBinEp _ => rowEncodeBinEp
  | .sliceFinish => rowSliceFinish
  | .readReg _ => rowReadReg

/-- `OP = w0[7:0]` (R71). -/
def fieldOp (w0 : Word) : BitVec 8 := w0.extractLsb' 0 8
/-- `SBO = w0[10:8]` (R74). -/
def fieldSbo (w0 : Word) : BitVec 3 := w0.extractLsb' 8 3
/-- `N = w0[13:8]` (R74). -/
def fieldN (w0 : Word) : BitVec 6 := w0.extractLsb' 8 6
/-- `VALUE = w0[63:32]` (R74). -/
def fieldValue (w0 : Word) : BitVec 32 := w0.extractLsb' 32 32
/-- `B`, `CA` and `BIN`, all `w0[8]` (R74). -/
def fieldBit (w0 : Word) : Bool := w0.getLsbD 8
/-- `CTX = w0[22:16]` (R74). -/
def fieldCtx (w0 : Word) : BitVec 7 := w0.extractLsb' 16 7
/-- `REG = w0[15:8]` (R74). -/
def fieldReg (w0 : Word) : BitVec 8 := w0.extractLsb' 8 8

/-- What the words waiting on the port begin with. -/
inductive Fetched where
  /-- No whole command yet: the port is empty, or a legal RESET lacks extension words (R72, R229). -/
  | hold
  /-- An illegal first word, one word long (R86), and the words after it. -/
  | illegal (rest : List Word)
  /-- A command and the words after it. -/
  | command (i : Instr) (rest : List Word)
deriving DecidableEq, Repr

/-- A one-word command whose first word `w0` is legal, by its opcode (R74); RESET is three words and is read by `decode`. -/
def decodeOneWord (w0 : Word) : Option Instr :=
  if rowPutBits.accepts w0 then some (.putBits (fieldN w0) (fieldValue w0))
  else if rowPutBit.accepts w0 then some (.putBit (fieldBit w0))
  else if rowPutUe.accepts w0 then some (.putUe (fieldValue w0))
  else if rowPutSe.accepts w0 then some (.putSe (fieldValue w0))
  else if rowPutTrailingBits.accepts w0 then some (.putTrailingBits (fieldBit w0))
  else if rowGetBitOffset.accepts w0 then some .getBitOffset
  else if rowEncodeBin.accepts w0 then some (.encodeBin (fieldCtx w0) (fieldBit w0))
  else if rowEncodeBinEp.accepts w0 then some (.encodeBinEp (fieldBit w0))
  else if rowSliceFinish.accepts w0 then some .sliceFinish
  else if rowReadReg.accepts w0 then some (.readReg (fieldReg w0))
  else none

/-- Reads the command at the head of the port (R72, R74, R86).  Total: an illegal first word is reported as such. -/
def decode : List Word → Fetched
  | [] => .hold
  | w0 :: rest =>
    if rowReset.accepts w0 then
      match rest with
      | start :: stop :: rest' => .command (.reset (fieldSbo w0) start stop) rest'
      | _ => .hold
    else
      match decodeOneWord w0 with
      | some i => .command i rest
      | none => .illegal rest

/-- `v << k` in a 64-bit word. -/
def place {w : Nat} (v : BitVec w) (k : Nat) : Word := v.setWidth 64 <<< k

/-- The words of a command: the opcode in bits 7:0 and each field at the place rule R74 draws it. -/
def encode : Instr → List Word
  | .reset sbo start stop => [place sbo 8 ||| 0x01, start, stop]
  | .putBits n value => [place value 32 ||| place n 8 ||| 0x02]
  | .putBit b => [place (BitVec.ofBool b) 8 ||| 0x03]
  | .putUe value => [place value 32 ||| 0x04]
  | .putSe value => [place value 32 ||| 0x05]
  | .putTrailingBits ca => [place (BitVec.ofBool ca) 8 ||| 0x06]
  | .getBitOffset => [0x07]
  | .encodeBin ctx bin => [place ctx 16 ||| place (BitVec.ofBool bin) 8 ||| 0x08]
  | .encodeBinEp bin => [place (BitVec.ofBool bin) 8 ||| 0x09]
  | .sliceFinish => [0x0A]
  | .readReg reg => [place reg 8 ||| 0x0B]

/-- The three words an instruction's bits `w` give, numbered as the opcode table numbers them: bit 0 is the least
significant bit of the first word, a later word's bits count on from it, and bits at or above `nbits` are 0. -/
def tableWords (nbits w : Nat) : List Word :=
  let v := w % 2 ^ nbits
  [BitVec.ofNat 64 v, BitVec.ofNat 64 (v / 2 ^ 64), BitVec.ofNat 64 (v / 2 ^ 128)]

/-- The words of `tableWords` that belong to the instruction: three for a legal RESET, one for any other first word (R72,
R86). -/
def tableCommandWords (nbits w : Nat) : List Word :=
  match tableWords nbits w with
  | [] => []
  | w0 :: rest => if rowReset.accepts w0 then w0 :: rest else [w0]

/-- The instruction the decoder reads from the bits `w` of the opcode table's numbering. -/
def decodeTableWord (nbits w : Nat) : Option Instr :=
  match decode (tableCommandWords nbits w) with
  | .command i _ => some i
  | .hold => none
  | .illegal _ => none

end Sys2Proof
end

