-- ==== Sys2Proof/Machine/Port.lean ====
section
/-! DEFINITION. The command port (rules R70, R72, R86) and what the host does at it, at the response channel and to memory
(R13, R65, R69, R248). -/
namespace Sys2Proof.Machine

/-- What the words waiting on the port begin with (R72). -/
def State.fetch (s : State) : Fetched := decode s.port

/-- A command's words are taken from the port and the next command is the one after it (R38, R197). -/
def State.consume (s : State) (rest : List Word) : State := { s with port := rest, index := s.index + 1 }

/-- An illegal first word (R86): ILLEGAL_COMMAND, or discarded while FAULTED (R215). -/
def State.illegalWord (s : State) : State := if s.faulted then s else s.raise .illegalCommand

/-- The state with an instruction's words, in the opcode table's numbering, at the head of the port (log entry 1). -/
def State.placeWords (s : State) (nbits w : Nat) : State := { s with port := tableCommandWords nbits w ++ s.port }

/-- The host puts words on the command port, behind those waiting (R70). -/
def State.hostSend (s : State) (ws : List Word) : State := { s with port := s.port ++ ws }

/-- The host takes the oldest response, if there is one (R35, R248). -/
def State.hostTake (s : State) : Option (Word × State) :=
  match s.responses with
  | [] => none
  | v :: vs => some (v, { s with responses := vs })

/-- The address `a` exists (R50: `2^ADDR_W` bytes). -/
def State.addressExists (s : State) (a : Nat) : Bool := decide (a < 2 ^ s.params.addrW)

/-- The address `a` is in the current window (R22). -/
def State.inWindow (s : State) (a : Nat) : Bool :=
  s.configured && decide (s.bufStart.toNat ≤ a) && decide (a < s.bufEnd.toNat)

/-- What a host sees of the memory bit at absolute position `P` between commands: the bit itself on a coherent platform, else any
value (R64, R69, D30; log entry 14). -/
def State.hostReadBit (s : State) (P : Nat) : Bool :=
  if s.params.platformCoherent then s.readBit P else Config.incoherentBit s.draws P

/-- A host read of the byte at `a` between commands, bits most significant first; `none` where the address does not exist. -/
def State.hostRead (s : State) (a : Nat) : Option (List Bool) :=
  if s.addressExists a then some ((List.range 8).map fun j => s.hostReadBit (8 * a + j)) else none

/-- A byte outside the window is stored (log entry 13). -/
def State.hostStore (s : State) (a : Nat) (v : Byte) : State :=
  { s with mem := Memory.write s.mem a v, drawn := regionsMinus s.drawn (8 * a) (8 * a + 8) }

/-- A byte of the window holds any value after a host write (R65, R247, U2): a new draw, wherever the cursor stands.  The bits of the byte
before the cursor are listed with it; those at or after the cursor take it with the rest of the window not yet emitted, which
is unspecified before and after (R57; log entry 13). -/
def State.hostSpoil (s : State) (a : Nat) : State :=
  { s with
    drawn :=
      if 8 * a < s.absPos then
        { lo := 8 * a, hi := min (8 * a + 8) s.absPos, draw := s.draws + 1 }
          :: regionsMinus s.drawn (8 * a) (min (8 * a + 8) s.absPos)
      else s.drawn
    draws := s.draws + 1 }

/-- A host write of the byte at `a` between commands; `none` where the address does not exist.  No register is affected (R65). -/
def State.hostWrite (s : State) (a : Nat) (v : Byte) : Option State :=
  if s.addressExists a then some (if s.inWindow a then s.hostSpoil a else s.hostStore a v) else none

end Sys2Proof.Machine
end

