-- ==== Sys2Proof/Machine/Step.lean ====
section
/-! DEFINITION. One step: the command at the head of the port (rules R70, R72, R80, R86). -/
namespace Sys2Proof.Machine

/-- Takes one command from the port and executes it to completion (R70).  With no whole command waiting the block holds its state
(R72, R229). -/
def step (s : State) : Host.Outcome State Fault Refusal :=
  match s.fetch with
  | .hold => .next s
  | .illegal rest => .next (s.consume rest).illegalWord
  | .command i rest => exec i (s.consume rest)

/-- `s` with an instruction at the head of the port, so that the next step takes exactly it. -/
def State.withFetchWord (s : State) (nbits w : Nat) : State := s.placeWords nbits w

end Sys2Proof.Machine
end

