-- ==== Sys2Proof/Safety.lean ====
section
/-! DEFINITION. What holds of the block between commands, in the terms the statements use: the invariant of rules R24, R29, R147 and
R175 with the canonical form of memory, and what it means to emit bits. -/
namespace Sys2Proof.Machine

/-- STATUS is legal (R29): reserved bits 0, `FAULT_CODE` 0 to 5, and 0 exactly when `FAULTED` is 0. -/
abbrev State.StatusLegal (s : State) : Prop :=
  s.status.extractLsb' 2 2 = 0 ∧ s.faultCode.toNat ≤ 5 ∧ (s.faulted = false ↔ s.faultCode = 0)

/-- The window and the cursor (R24, R191): `BUF_START ≤ BUF_END < 2^ADDR_W`, the window's bits are fewer than `2^64`, and
`8*BUF_START + START_BIT_OFFSET ≤ 8*CUR_PTR + BIT_OFFSET ≤ 8*BUF_END`. -/
abbrev State.WindowLegal (s : State) : Prop :=
  s.bufStart.toNat ≤ s.bufEnd.toNat ∧ s.bufEnd.toNat < 2 ^ s.params.addrW ∧
    8 * (s.bufEnd.toNat - s.bufStart.toNat) < 2 ^ 64 ∧
    8 * s.bufStart.toNat + s.startBitOffset.toNat ≤ s.absPos ∧ s.absPos ≤ 8 * s.bufEnd.toNat

/-- The coder's interval: `256 ≤ CODE_RANGE ≤ 510` (R147), `CODE_LOW + CODE_RANGE ≤ 1024` (R175), and, while the first bit is still to
come, `CODE_LOW + CODE_RANGE ≤ 512` (the model's own inference: the bit that is suppressed is 0). -/
abbrev CoderRegs.Legal (r : CoderRegs) : Prop :=
  256 ≤ r.range.toNat ∧ r.range.toNat ≤ 510 ∧ r.low.toNat + r.range.toNat ≤ 1024 ∧
    (r.firstBit = true → r.low.toNat + r.range.toNat ≤ 512)

/-- No listed region of free values reaches into the window at or after the cursor. -/
abbrev State.DrawnClear (s : State) : Prop :=
  ∀ r ∈ s.drawn, r.hi ≤ s.absPos ∨ 8 * s.bufEnd.toNat ≤ r.lo

/-- The invariant of the block.  What concerns the window and the coder holds once a RESET has succeeded (R31, R40). -/
abbrev State.Inv (s : State) : Prop :=
  Memory.wf s.mem = true ∧ s.params.Legal ∧ s.StatusLegal ∧
    (s.configured = true → s.WindowLegal ∧ s.coder.Legal ∧ s.DrawnClear)

/-- The block takes commands other than RESET and READ_REG: `CONFIGURED = 1` and `FAULTED = 0` (R213). -/
abbrev State.Ready (s : State) : Prop := s.configured = true ∧ s.faulted = false

/-- `n` more bits fit in the window (R59). -/
abbrev State.Room (s : State) (n : Nat) : Prop := s.absPos + n ≤ 8 * s.bufEnd.toNat

/-- The compute step of a command (R80), whose pending output is the `out` of its result; none for RESET and READ_REG, which have
none. -/
def computedOf (s : State) : Instr → Option Computed
  | .reset _ _ _ => none
  | .putBits n v => some (computePutBits n v s)
  | .putBit b => some (computePutBit b s)
  | .putUe v => some (computePutUe v s)
  | .putSe v => some (computePutSe v s)
  | .putTrailingBits ca => some (computePutTrailingBits ca s)
  | .getBitOffset => some (computeGetBitOffset s)
  | .encodeBin ctx bin => some (computeEncodeBin s.coder ctx bin)
  | .encodeBinEp bin => some (computeEncodeBinEp s.coder bin)
  | .sliceFinish => some (computeSliceFinish s.coder s.bitOffset.toNat)
  | .readReg _ => none

/-- The next state of a step or a meaning, if there is one. -/
def nextState? : Host.Outcome State Fault Refusal → Option State
  | .next s => some s
  | .fault _ => none
  | .refused _ => none

/-- From `s` to `t` exactly the bits `bits` were emitted (R52, R53): they stand at the cursor, the cursor is after them, every bit of
memory outside the window's part at or after the old cursor reads as before (R56, R58, R64), and no byte outside those that
the bits lie in is stored to. -/
abbrev Emitted (s t : State) (bits : List Bool) : Prop :=
  t.absPos = s.absPos + bits.length ∧
    (∀ k (h : k < bits.length), t.readBit (s.absPos + k) = bits[k]) ∧
    (∀ P, P < s.absPos ∨ 8 * s.bufEnd.toNat ≤ P → t.readBit P = s.readBit P) ∧
    (∀ a, (∀ k, k < bits.length → (s.absPos + k) / 8 ≠ a) → Memory.read t.mem a = Memory.read s.mem a)

/-- From `s` to `t` nothing changed but the cursor, memory, the coder registers and the response channel. -/
abbrev SameFrame (s t : State) : Prop :=
  t.status = s.status ∧ t.bufStart = s.bufStart ∧ t.bufEnd = s.bufEnd ∧ t.startBitOffset = s.startBitOffset ∧
    t.port = s.port ∧ t.index = s.index ∧ t.params = s.params ∧ t.drawn = s.drawn

end Sys2Proof.Machine
end

