-- ==== Sys2Proof/WellFormed.lean ====
section
/-! DEFINITION. The legal operand values of rule R76.  Every `Instr` has an encoding (its fields have the widths of the
encoding); a command that is not well formed decodes, and faults with OPERAND_RANGE when it is executed (R87). -/
namespace Sys2Proof

/-- The operands of RESET pass the four checks of rule R191. -/
abbrev resetWellFormed (p : Params) (sbo : BitVec 3) (start stop : Word) : Prop :=
  (start.toNat < 2 ^ p.addrW ∧ stop.toNat < 2 ^ p.addrW) ∧ start.toNat ≤ stop.toNat ∧
    (start = stop → sbo = 0) ∧ 8 * (stop.toNat - start.toNat) < 2 ^ 64

/-- Every operand of the command has a legal value (R76, column "legal values"; R87). -/
def Instr.wellFormed (p : Params) : Instr → Bool
  | .reset sbo start stop => decide (resetWellFormed p sbo start stop)
  | .putBits n _ => decide (n.toNat ≤ 32)
  | .putBit _ => true
  | .putUe value => decide (value ≠ 0xFFFFFFFF)
  | .putSe value => decide (value ≠ 0x80000000)
  | .putTrailingBits _ => true
  | .getBitOffset => true
  | .encodeBin _ _ => true
  | .encodeBinEp _ => true
  | .sliceFinish => true
  | .readReg reg => decide (reg.toNat ≤ 10)

end Sys2Proof
end

