-- ==== Sys2Proof/Safety/Reference.lean ====
section
/-! DEFINITION. What the statements compare the machine with, written from the spec's words and not from the meanings: the reserved bits
of a first word (rule R74), a state with a fault recorded (R211), reference decoders of the Exp-Golomb codes (R105, R109), the
code value of an unbounded-precision interval coder, and the arithmetic decoder of R177. -/
namespace Sys2Proof

/-! ### Kinds of instructions -/

/-- The instruction is a RESET (whatever its operands). -/
def Instr.isReset : Instr → Bool
  | .reset _ _ _ => true
  | .putBits _ _ => false
  | .putBit _ => false
  | .putUe _ => false
  | .putSe _ => false
  | .putTrailingBits _ => false
  | .getBitOffset => false
  | .encodeBin _ _ => false
  | .encodeBinEp _ => false
  | .sliceFinish => false
  | .readReg _ => false

/-- The instruction is a RESET or a READ_REG, the two that run in every state of STATUS (R213). -/
def Instr.isControl : Instr → Bool
  | .reset _ _ _ => true
  | .putBits _ _ => false
  | .putBit _ => false
  | .putUe _ => false
  | .putSe _ => false
  | .putTrailingBits _ => false
  | .getBitOffset => false
  | .encodeBin _ _ => false
  | .encodeBinEp _ => false
  | .sliceFinish => false
  | .readReg _ => true

/-- The instruction is one of the commands of 40_bitwriter.md. -/
def Instr.isBitWriter : Instr → Bool
  | .reset _ _ _ => false
  | .putBits _ _ => true
  | .putBit _ => true
  | .putUe _ => true
  | .putSe _ => true
  | .putTrailingBits _ => true
  | .getBitOffset => true
  | .encodeBin _ _ => false
  | .encodeBinEp _ => false
  | .sliceFinish => false
  | .readReg _ => false

/-- How many words a completed command places on the response channel (R73). -/
def Instr.responseCount : Instr → Nat
  | .reset _ _ _ => 0
  | .putBits _ _ => 0
  | .putBit _ => 0
  | .putUe _ => 0
  | .putSe _ => 0
  | .putTrailingBits _ => 0
  | .getBitOffset => 1
  | .encodeBin _ _ => 1
  | .encodeBinEp _ => 0
  | .sliceFinish => 0
  | .readReg _ => 1

end Sys2Proof

namespace Sys2Proof.Machine

/-! ### Words -/

/-- The reserved bits of a first word with opcode `op`, as the format table of rule R74 draws them; `none` for the opcodes that
have no row (0x00 and 0x0C to 0xFF). -/
def reservedBits (op : Nat) : Option Word :=
  match op with
  | 0x01 => some 0xFFFFFFFFFFFFF800
  | 0x02 => some 0x00000000FFFFC000
  | 0x03 => some 0xFFFFFFFFFFFFFE00
  | 0x04 => some 0x00000000FFFFFF00
  | 0x05 => some 0x00000000FFFFFF00
  | 0x06 => some 0xFFFFFFFFFFFFFE00
  | 0x07 => some 0xFFFFFFFFFFFFFF00
  | 0x08 => some 0xFFFFFFFFFF80FE00
  | 0x09 => some 0xFFFFFFFFFFFFFE00
  | 0x0A => some 0xFFFFFFFFFFFFFF00
  | 0x0B => some 0xFFFFFFFFFFFF0000
  | _ => none

/-- The first word is illegal (R86): its opcode has no row, or a reserved bit of its row is set. -/
def illegalFirstWord (w0 : Word) : Bool :=
  match reservedBits (w0.toNat % 256) with
  | none => true
  | some bits => w0 &&& bits != 0

/-- A legal first word of opcode `op` (R74, R86). -/
abbrev LegalWord (op : Nat) (w0 : Word) : Prop := w0.toNat % 256 = op ∧ illegalFirstWord w0 = false

/-! ### Faults and runs -/

/-- `s` after a fault with code `code` raised while `FAULTED = 0` (R211): `FAULTED = 1`, the code recorded, nothing else changed. -/
def State.withFault (s : State) (code : BitVec 4) : State :=
  { s with status := code ++ 0b001#3 ++ BitVec.ofBool s.configured }

/-- The commands are executed one after the other; `none` if the machine stops. -/
def execAll : List Instr → State → Option State
  | [], s => some s
  | i :: is, s => (nextState? (exec i s)).bind (execAll is)

/-! ### Bit strings and Exp-Golomb codes -/

/-- The number a bit string stands for, first bit most significant. -/
def natOfBits (bs : List Bool) : Nat := bs.foldl (fun n b => 2 * n + b.toNat) 0

/-- `bits_n(v)` (R8): the `n` bits of `v[n-1:0]`, most significant first. -/
def bitsOf (n v : Nat) : List Bool := (List.range n).map fun i => v / 2 ^ (n - 1 - i) % 2 == 1

/-- The unsigned Exp-Golomb code of `v` (R104): for the `n` with `2^(n-1) ≤ v + 1 < 2^n`, `n - 1` zeros and `bits_n(v + 1)`. -/
def ueBits (n v : Nat) : List Bool := List.replicate (n - 1) false ++ bitsOf n (v + 1)

/-- A reference decoder of unsigned Exp-Golomb codes, after `zeros` leading zeros: counts the zeros up to the first 1, reads as many
bits after it, and subtracts 1.  Gives the value and the bits that follow. -/
def ueDecodeFrom : Nat → List Bool → Option (Nat × List Bool)
  | _, [] => none
  | zeros, false :: bs => ueDecodeFrom (zeros + 1) bs
  | zeros, true :: bs =>
    if bs.length < zeros then none else some (natOfBits (true :: bs.take zeros) - 1, bs.drop zeros)

/-- A reference decoder of unsigned Exp-Golomb codes. -/
def ueDecode (bs : List Bool) : Option (Nat × List Bool) := ueDecodeFrom 0 bs

/-- The signed decode rule: an odd code number `k` is `(k + 1) / 2`, an even one `-(k / 2)` (the table of R109). -/
def seValue (k : Nat) : Int := if k % 2 = 1 then ((k : Int) + 1) / 2 else -((k : Int) / 2)

/-! ### The arithmetic coder -/

/-- The low end of the coder's interval as an unbounded-precision coder would hold it: the emitted bits `pre` of the codeword,
then the pending bits (a 0 and `BITS_OUTSTANDING` ones, to which a carry out of `CODE_LOW` may still add), then `CODE_LOW`. -/
def codeValue (pre : List Bool) (r : CoderRegs) : Int :=
  (natOfBits pre : Int) * 2 ^ (r.outstanding.toNat + 10) + (2 ^ r.outstanding.toNat - 1) * 512 + r.low.toNat

/-- How many passes of `RenormE` defer before the first one that emits or the loop's end (R146): with `BITS_OUTSTANDING` they must not
exceed `2^32 - 1` (R148). -/
def leadingDeferrals : Nat → Int → Int → Nat
  | 0, _, _ => 0
  | fuel + 1, low, range =>
    if range < 256 ∧ 256 ≤ low ∧ low < 512 then leadingDeferrals fuel (2 * (low - 256)) (2 * range) + 1 else 0

/-- The LPS width of a context in a coder state (R141, R144): `RANGE_TAB_LPS[s][(range >> 6) & 3]`. -/
def lpsWidth (r : CoderRegs) (ctx : BitVec 7) : Nat := rangeTabLps (ctx.extractLsb' 0 6) (r.range.extractLsb' 6 2)

/-- Where the sub-interval of a bin starts above the low end (R150): the MPS at 0, the LPS after the reduced range. -/
def subStart (r : CoderRegs) (ctx : BitVec 7) (bin : Bool) : Nat :=
  if bin = ctx.getLsbD 6 then 0 else r.range.toNat - lpsWidth r ctx

/-- The width of the sub-interval of a bin (R150). -/
def subWidth (r : CoderRegs) (ctx : BitVec 7) (bin : Bool) : Nat :=
  if bin = ctx.getLsbD 6 then r.range.toNat - lpsWidth r ctx else lpsWidth r ctx

/-- A bin to code: with a context word, or bypass. -/
inductive Bin where
  | context (ctx : BitVec 7) (value : Bool)
  | bypass (value : Bool)
deriving DecidableEq, Repr

/-- The command that codes a bin. -/
def Bin.instr : Bin → Instr
  | .context ctx v => .encodeBin ctx v
  | .bypass v => .encodeBinEp v

/-- The symbol of a bin. -/
def Bin.value : Bin → Bool
  | .context _ v => v
  | .bypass v => v

/-- The state of an arithmetic decoder: range, 9-bit offset, and the bits not yet read.  PRESUMED (log entry 17): the spec names this
decoder in R177 and does not give its steps. -/
structure Decoder where
  range : Nat
  offset : Nat
  bits : List Bool
deriving DecidableEq, Repr

/-- Reads one bit into the offset; past the end of the codeword it reads 0. -/
def Decoder.shift (d : Decoder) : Decoder :=
  match d.bits with
  | [] => { d with offset := 2 * d.offset }
  | b :: bs => { d with offset := 2 * d.offset + b.toNat, bits := bs }

/-- Initial range 510 and the first nine bits as the offset (R177). -/
def Decoder.start (bs : List Bool) : Decoder :=
  { range := 510, offset := natOfBits (bs.take 9), bits := bs.drop 9 }

/-- Doubles the range and reads a bit until the range is at least 256. -/
def Decoder.renorm : Nat → Decoder → Decoder
  | 0, d => d
  | fuel + 1, d => if d.range < 256 then Decoder.renorm fuel { d.shift with range := 2 * d.range } else d

/-- Decodes one bin of the kind and with the context word of `b` (whose value it does not read). -/
def Decoder.bin (d : Decoder) : Bin → Bool × Decoder
  | .context ctx _ =>
    let lps := rangeTabLps (ctx.extractLsb' 0 6) (BitVec.ofNat 2 (d.range / 64))
    if d.range - lps ≤ d.offset then
      (!ctx.getLsbD 6, Decoder.renorm 8 { d with range := lps, offset := d.offset - (d.range - lps) })
    else (ctx.getLsbD 6, Decoder.renorm 8 { d with range := d.range - lps })
  | .bypass _ =>
    let e := d.shift
    if d.range ≤ e.offset then (true, { e with offset := e.offset - d.range }) else (false, e)

/-- Decodes bins of the given kinds, then the terminating bin. -/
def Decoder.run : Decoder → List Bin → List Bool × Bool
  | d, [] => ([], decide (d.range - 2 ≤ d.offset))
  | d, b :: bs =>
    let r := d.bin b
    let q := Decoder.run r.2 bs
    (r.1 :: q.1, q.2)

/-- The bits of memory from absolute position `P` to before `Q`. -/
def State.bitsFrom (s : State) (P Q : Nat) : List Bool := (List.range (Q - P)).map fun k => s.readBit (P + k)

end Sys2Proof.Machine
end

