-- ==== Sys2Proof/Certificates/Slice0/Obligations.lean ====
section
/-! DEFINITION. The statements for the provers, from the numbered rules of spec/. -/

open Sys2Proof Sys2Proof.Machine

/-! ### Encoding -/

/-- Words written out from the format table of R74 decode to the commands they stand for; words of rule R86 are illegal (vectors
L2.1 to L2.12 of 95_test_vectors.md). -/
def Obligations.SpecWordsDecode : Prop :=
  decode [0x0000000000000501, 0x1000, 0x1010] = .command (.reset 5 0x1000 0x1010) [] ∧
  decode [0x0000123400001002] = .command (.putBits 16 0x1234) [] ∧
  decode [0x0000000000000103] = .command (.putBit true) [] ∧
  decode [0x0000000200000004] = .command (.putUe 2) [] ∧
  decode [0xFFFFFFFE00000005] = .command (.putSe 0xFFFFFFFE) [] ∧
  decode [0x0000000000000106] = .command (.putTrailingBits true) [] ∧
  decode [0x0000000000000007] = .command .getBitOffset [] ∧
  decode [0x0000000000410008] = .command (.encodeBin 0x41 false) [] ∧
  decode [0x0000000000000109] = .command (.encodeBinEp true) [] ∧
  decode [0x000000000000000A] = .command .sliceFinish [] ∧
  decode [0x000000000000060B] = .command (.readReg 6) [] ∧
  decode [0x0000000000000801, 0x100, 0x110] = .illegal [0x100, 0x110] ∧
  decode [0x0000000000800008] = .illegal []

/-- Decoding the words of any command, with any words after them, gives the command back with every operand. -/
def Obligations.DecodeInvertsEncode : Prop :=
  ∀ (i : Instr) (rest : List Word), decode (encode i ++ rest) = .command i rest

/-- The words a command is decoded from are the words it is encoded to: no command has two encodings, and no bit is ignored. -/
def Obligations.EncodeInvertsDecode : Prop :=
  ∀ (ws : List Word) (i : Instr) (rest : List Word), decode ws = .command i rest → ws = encode i ++ rest

/-- R86 at a step: the words illegal by their opcode or a reserved bit fault with ILLEGAL_COMMAND (code 1) when the block is not
FAULTED, are discarded when it is, and are one word long; and no other first word is treated as illegal. -/
def Obligations.IllegalFirstWords : Prop :=
  ∀ (s : State) (w0 : Word) (rest : List Word), s.port = w0 :: rest →
    (illegalFirstWord w0 = true → s.faulted = false →
      step s = .next (({ s with port := rest, index := s.index + 1 } : State).withFault 1)) ∧
    (illegalFirstWord w0 = true → s.faulted = true → step s = .next { s with port := rest, index := s.index + 1 }) ∧
    (illegalFirstWord w0 = false → ∀ rest', decode (w0 :: rest) ≠ .illegal rest')

/-- At most one row of the opcode map accepts a word, and one does exactly where the word is legal (the spec marks R75 as
derived). -/
def Obligations.OneRowPerLegalWord : Prop :=
  ∀ w0 : Word, (∀ r ∈ opRows, ∀ q ∈ opRows, r.accepts w0 = true → q.accepts w0 = true → r = q) ∧
    ((∃ r ∈ opRows, r.accepts w0 = true) ↔ illegalFirstWord w0 = false)

/-! ### The step -/

/-- A step executes the command its port begins with, after taking that command's words from the port and advancing the index.
-/
def Obligations.StepExecutesDecoded : Prop :=
  ∀ (s : State) (i : Instr) (rest : List Word), decode s.port = .command i rest →
    step s = exec i { s with port := rest, index := s.index + 1 }

/-- R229: with an empty port, or a legal RESET word whose extension words have not both arrived, the block holds its state. -/
def Obligations.StepHoldsWithoutCommand : Prop :=
  ∀ s : State, (s.port = [] ∨ ∃ w0, w0.toNat % 256 = 1 ∧ illegalFirstWord w0 = false ∧
      (s.port = [w0] ∨ ∃ w1, s.port = [w0, w1])) → step s = .next s

/-- R72: the opcode gives the length: three words for RESET, one for every other opcode, one for an illegal word. A RESET whose
extension words have not both arrived holds, with no effect, and when they arrive they lift the hold: the next step is that
RESET. -/
def Obligations.LengthsAndHold : Prop :=
  (∀ (op : Nat) (w0 : Word) (rest : List Word), op ≠ 1 → LegalWord op w0 → ∃ i, decode (w0 :: rest) = .command i rest) ∧
  (∀ (w0 : Word) (rest : List Word), illegalFirstWord w0 = true → decode (w0 :: rest) = .illegal rest) ∧
  ∀ (s : State) (w0 start stop : Word) (ws : List Word), LegalWord 1 w0 →
    (s.port = w0 :: start :: stop :: ws → step s =
      exec (.reset (w0.extractLsb' 8 3) start stop) { s with port := ws, index := s.index + 1 }) ∧
    (s.port = [w0] ∨ s.port = [w0, start] → step s = .next s) ∧
    (s.port = [w0] → step (s.hostSend (start :: stop :: ws)) =
      exec (.reset (w0.extractLsb' 8 3) start stop) { s with port := ws, index := s.index + 1 }) ∧
    (s.port = [w0, start] → step (s.hostSend (stop :: ws)) =
      exec (.reset (w0.extractLsb' 8 3) start stop) { s with port := ws, index := s.index + 1 })

/-- R197: every command, a faulting or discarded one included, is followed by the next command on the port, and adds one to the
index. -/
def Obligations.NextCommandFollows : Prop :=
  ∀ s t : State, step s = .next t →
    (∀ i rest, decode s.port = .command i rest → t.port = rest ∧ t.index = s.index + 1) ∧
    (∀ rest, decode s.port = .illegal rest → t.port = rest ∧ t.index = s.index + 1)

/-! ### The invariant -/

/-- The state at power-on: STATUS 0x00, an empty response channel, nothing stored, and no register but STATUS can be read (the
rest of `State.reset` is the model's choice, log entries 1 to 3 and 7). -/
def Obligations.PowerOnState : Prop :=
  State.reset.status = 0x00 ∧ State.reset.responses = [] ∧ State.reset.mem = [] ∧
    ∀ reg : BitVec 8, 1 ≤ reg.toNat → reg.toNat ≤ 10 → exec (.readReg reg) State.reset = .next (State.reset.withFault 2)

/-- The power-on state meets the invariant. -/
def Obligations.ResetStateMeetsInv : Prop := State.reset.Inv

/-- Every step keeps the invariant: memory in canonical form, legal parameters and STATUS, and, once configured, the window and
cursor of R24, the coder's interval of R147 and R175. -/
def Obligations.StepKeepsInv : Prop :=
  ∀ s t : State, s.Inv → step s = .next t → t.Inv

/-- From every state that meets the invariant a step answers a next state: no command stops the block. -/
def Obligations.StepNeverStops : Prop :=
  ∀ s : State, s.Inv → ∃ t, step s = .next t

/-- What the host does keeps the invariant and leaves every register as it was: sending words, which go behind those waiting;
taking the oldest response; writing a byte (in the window R65: "The block's own registers are not affected"; outside it the
model's choice, log entry 13). -/
def Obligations.HostActionsKeepInv : Prop :=
  ∀ s : State, s.Inv →
    (∀ ws, (s.hostSend ws).Inv ∧ (s.hostSend ws).port = s.port ++ ws ∧
      ∀ n, (s.hostSend ws).register n = s.register n) ∧
    (∀ v t, s.hostTake = some (v, t) → t.Inv ∧ s.responses = v :: t.responses ∧ ∀ n, t.register n = s.register n) ∧
    (∀ a v t, s.hostWrite a v = some t → t.Inv ∧ ∀ n, t.register n = s.register n)

/-- Host reads and host writes between commands. An address that does not exist can be neither read nor written; a read gives
what memory holds where PLATFORM_COHERENT is true, and free values where it is false (R69, D30, log entry 14). A write outside
the window is read back, and every other byte reads as before: that such a write is stored is the model's choice (log entry 13).
A written window byte holds any value (R65, U2): a new draw of free values, wherever the cursor stands; every other bit, but
those of the window not yet emitted, is as it was. -/
def Obligations.HostWriteReadsBack : Prop :=
  ∀ (s : State) (a : Nat), s.Inv →
    (s.hostRead a = none ↔ 2 ^ s.params.addrW ≤ a) ∧ (∀ v, s.hostWrite a v = none ↔ 2 ^ s.params.addrW ≤ a) ∧
    (a < 2 ^ s.params.addrW → s.hostRead a = some (if s.params.platformCoherent then s.readByte a
      else (List.range 8).map fun j => Config.incoherentBit s.draws (8 * a + j))) ∧
    ∀ (v : Byte) (t : State), s.hostWrite a v = some t →
      (s.inWindow a = false →
        (∀ P, t.readBit P = if P / 8 = a then v.getLsbD (7 - P % 8) else s.readBit P) ∧
        (s.params.platformCoherent = true → t.hostRead a = some ((List.range 8).map fun j => v.getLsbD (7 - j)) ∧
          ∀ b, b ≠ a → t.hostRead b = s.hostRead b)) ∧
      (s.inWindow a = true → t.draws = s.draws + 1 ∧
        (∀ P, P / 8 = a → t.readBit P = Config.freeBit t.draws P) ∧
        (∀ P, P / 8 ≠ a → (P < s.absPos ∨ 8 * s.bufEnd.toNat ≤ P) → t.readBit P = s.readBit P) ∧
        (s.params.platformCoherent = true →
          t.hostRead a = some ((List.range 8).map fun j => Config.freeBit t.draws (8 * a + j))))

/-! ### RESET and READ_REG -/

/-- RESET (R190): its encoding; with operands that pass R191 it completes in every state of STATUS, writes every register as the
rule says, gives no response and stores nothing, and every bit outside the new window's part from the cursor on reads as before,
the leading `SBO` bits among them; with operands that fail R191 only STATUS changes, and an unfaulted block records
OPERAND_RANGE (3). -/
def Obligations.ResetMeaning : Prop :=
  (∀ (w0 start stop : Word) (rest : List Word), LegalWord 0x01 w0 →
    decode (w0 :: start :: stop :: rest) = .command (.reset (w0.extractLsb' 8 3) start stop) rest) ∧
  ∀ (s : State) (sbo : BitVec 3) (start stop : Word),
    (resetWellFormed s.params sbo start stop → ∃ t, exec (.reset sbo start stop) s = .next t ∧
      t.status = 0x01 ∧ t.bufStart = start ∧ t.bufEnd = stop ∧ t.startBitOffset = sbo ∧ t.curPtr = start ∧
      t.bitOffset = sbo ∧ t.coder = { low := 0, range := 510, outstanding := 0, firstBit := true } ∧
      t.responses = s.responses ∧ t.mem = s.mem ∧ t.port = s.port ∧ t.index = s.index ∧ t.params = s.params ∧
      ∀ P, (P < 8 * start.toNat + sbo.toNat ∨ 8 * stop.toNat ≤ P) → t.readBit P = s.readBit P) ∧
    (¬ resetWellFormed s.params sbo start stop → ∃ t, exec (.reset sbo start stop) s = .next t ∧
      t = { s with status := t.status } ∧ (s.faulted = false → t = s.withFault 3))

/-- R42: a RESET whose operands fail R191 has no effect except on STATUS: `FAULTED` becomes 1 and, if it was 0, `FAULT_CODE`
becomes 3; `CONFIGURED` keeps its value. -/
def Obligations.FailedResetOnlyFaults : Prop :=
  ∀ (s : State) (sbo : BitVec 3) (start stop : Word), ¬ resetWellFormed s.params sbo start stop →
    ∃ t, exec (.reset sbo start stop) s = .next t ∧ t = { s with status := t.status } ∧
      t.faulted = true ∧ t.configured = s.configured ∧ t.faultCode = (if s.faulted then s.faultCode else 3) ∧
      (s.status = 0x00 → t.status = 0x32) ∧ (s.status = 0x01 → t.status = 0x33)

/-- READ_REG (R193): its encoding; the value of the register as one response, in every state of STATUS; nothing else changes but
the draw of the window bits not yet emitted (R57, log entry 5). `REG > 10` is OPERAND_RANGE (3) even before a good RESET;
registers 1 to 10 before one are NOT_CONFIGURED (2); a fault while FAULTED keeps the code. -/
def Obligations.ReadRegMeaning : Prop :=
  (∀ (w0 : Word) (rest : List Word), LegalWord 0x0B w0 → decode (w0 :: rest) = .command (.readReg (w0.extractLsb' 8 8)) rest) ∧
  ∀ (s : State) (reg : BitVec 8),
    (reg.toNat ≤ 10 → (reg = 0 ∨ s.configured = true) →
      ∃ v : Word, exec (.readReg reg) s = .next { s with responses := s.responses ++ [v], draws := s.draws + 1 } ∧
        (reg = 0 → v.toNat = s.status.toNat) ∧
        (reg = 1 → v = s.bufStart) ∧
        (reg = 2 → v = s.bufEnd) ∧
        (reg = 3 → v.toNat = s.startBitOffset.toNat) ∧
        (reg = 4 → v = s.curPtr) ∧
        (reg = 5 → v.toNat = s.bitOffset.toNat) ∧
        (reg = 6 → v.toNat = s.coder.low.toNat) ∧
        (reg = 7 → v.toNat = s.coder.range.toNat) ∧
        (reg = 8 → v.toNat = s.coder.outstanding.toNat) ∧
        (reg = 9 → v.toNat = s.coder.firstBit.toNat) ∧
        (reg = 10 → s.Inv → v.toNat = s.absPos - 8 * s.bufStart.toNat - s.startBitOffset.toNat)) ∧
    (10 < reg.toNat → s.faulted = false → exec (.readReg reg) s = .next (s.withFault 3)) ∧
    (reg.toNat ≤ 10 → reg ≠ 0 → s.configured = false → s.faulted = false →
      exec (.readReg reg) s = .next (s.withFault 2)) ∧
    ((10 < reg.toNat ∨ (reg ≠ 0 ∧ s.configured = false)) → s.Inv → s.faulted = true → exec (.readReg reg) s = .next s)

/-- R73: a command that faults or is discarded places nothing on the response channel; one that completes places exactly one
word if it is GET_BIT_OFFSET, ENCODE_BIN or READ_REG, and nothing otherwise. Words already there stay, in order. -/
def Obligations.OneResponsePerCommand : Prop :=
  ∀ (i : Instr) (s t : State), exec i s = .next t →
    ∃ vs, t.responses = s.responses ++ vs ∧
      ((s.faulted = false ∧ t.faulted = true) ∨ (s.faulted = true ∧ i.isControl = false) → vs = []) ∧
      (s.faulted = false → t.faulted = false → vs.length = i.responseCount) ∧
      (∀ reg, i = .readReg reg → vs.length = if reg.toNat ≤ 10 ∧ (reg = 0 ∨ s.configured = true) then 1 else 0) ∧
      (i.isReset = true → vs = [])

/-! ### The bit-writer commands -/

/-- PUT_BITS (R100): its encoding; in a state that is not FAULTED: NOT_CONFIGURED (2), OPERAND_RANGE (3) for `N > 32`,
BUFFER_EXHAUSTED (4) where fewer than `N` bits remain; else it completes, emits the low `N` bits of `VALUE`, most significant
first, and changes nothing but the cursor and memory. -/
def Obligations.PutBitsMeaning : Prop :=
  (∀ (w0 : Word) (rest : List Word), LegalWord 0x02 w0 →
    decode (w0 :: rest) = .command (.putBits (w0.extractLsb' 8 6) (w0.extractLsb' 32 32)) rest) ∧
  ∀ (n : BitVec 6) (value : BitVec 32) (s : State), s.Inv → s.faulted = false →
    (s.configured = false → exec (.putBits n value) s = .next (s.withFault 2)) ∧
    (s.configured = true → 32 < n.toNat → exec (.putBits n value) s = .next (s.withFault 3)) ∧
    (s.configured = true → n.toNat ≤ 32 → ¬ s.Room n.toNat → exec (.putBits n value) s = .next (s.withFault 4)) ∧
    (s.configured = true → n.toNat ≤ 32 → s.Room n.toNat → ∃ t, exec (.putBits n value) s = .next t ∧
      Emitted s t (bitsOf n.toNat value.toNat) ∧ SameFrame s t ∧ t.coder = s.coder ∧ t.responses = s.responses)

/-- PUT_BIT (R102): its encoding; NOT_CONFIGURED, BUFFER_EXHAUSTED if no bit of window remains; else it completes, emits exactly
the bit `B`, and changes nothing but the cursor and memory. -/
def Obligations.PutBitMeaning : Prop :=
  (∀ (w0 : Word) (rest : List Word), LegalWord 0x03 w0 → decode (w0 :: rest) = .command (.putBit (w0.getLsbD 8)) rest) ∧
  ∀ (b : Bool) (s : State), s.Inv → s.faulted = false →
    (s.configured = false → exec (.putBit b) s = .next (s.withFault 2)) ∧
    (s.configured = true → ¬ s.Room 1 → exec (.putBit b) s = .next (s.withFault 4)) ∧
    (s.configured = true → s.Room 1 → ∃ t, exec (.putBit b) s = .next t ∧
      Emitted s t [b] ∧ SameFrame s t ∧ t.coder = s.coder ∧ t.responses = s.responses)

/-- PUT_UE (R104, R106): its encoding; NOT_CONFIGURED, OPERAND_RANGE for `0xFFFFFFFF`, BUFFER_EXHAUSTED if fewer than `2n - 1`
bits remain; else it completes and emits `n - 1` zeros and the `n` bits of `VALUE + 1`, `n` being the bit length of `VALUE + 1`;
nothing else changes. -/
def Obligations.PutUeMeaning : Prop :=
  (∀ (w0 : Word) (rest : List Word), LegalWord 0x04 w0 → decode (w0 :: rest) = .command (.putUe (w0.extractLsb' 32 32)) rest) ∧
  ∀ (value : BitVec 32) (s : State) (n : Nat), s.Inv → s.faulted = false →
    (s.configured = false → exec (.putUe value) s = .next (s.withFault 2)) ∧
    (s.configured = true → value = 0xFFFFFFFF → exec (.putUe value) s = .next (s.withFault 3)) ∧
    (s.configured = true → value ≠ 0xFFFFFFFF → 1 ≤ n → 2 ^ (n - 1) ≤ value.toNat + 1 → value.toNat + 1 < 2 ^ n →
      (¬ s.Room (2 * n - 1) → exec (.putUe value) s = .next (s.withFault 4)) ∧
      (s.Room (2 * n - 1) → ∃ t, exec (.putUe value) s = .next t ∧
        Emitted s t (ueBits n value.toNat) ∧ SameFrame s t ∧ t.coder = s.coder ∧ t.responses = s.responses))

/-- PUT_SE (R108): its encoding; NOT_CONFIGURED, OPERAND_RANGE for `-2^31`, BUFFER_EXHAUSTED if the code does not fit; else it
completes and emits the unsigned code of `k = 2x - 1` for `x > 0` and `k = -2x` otherwise; nothing else changes. -/
def Obligations.PutSeMeaning : Prop :=
  (∀ (w0 : Word) (rest : List Word), LegalWord 0x05 w0 → decode (w0 :: rest) = .command (.putSe (w0.extractLsb' 32 32)) rest) ∧
  ∀ (value : BitVec 32) (s : State) (n k : Nat), s.Inv → s.faulted = false →
    (s.configured = false → exec (.putSe value) s = .next (s.withFault 2)) ∧
    (s.configured = true → value = 0x80000000 → exec (.putSe value) s = .next (s.withFault 3)) ∧
    (s.configured = true → value ≠ 0x80000000 →
      (k : Int) = (if 0 < value.toInt then 2 * value.toInt - 1 else -2 * value.toInt) →
      1 ≤ n → 2 ^ (n - 1) ≤ k + 1 → k + 1 < 2 ^ n →
      (¬ s.Room (2 * n - 1) → exec (.putSe value) s = .next (s.withFault 4)) ∧
      (s.Room (2 * n - 1) → ∃ t, exec (.putSe value) s = .next t ∧
        Emitted s t (ueBits n k) ∧ SameFrame s t ∧ t.coder = s.coder ∧ t.responses = s.responses))

/-- PUT_TRAILING_BITS (R110): its encoding; NOT_CONFIGURED; with `CA = 1` at a byte boundary nothing is emitted; else the stop
bit and zeros to the next byte boundary, BUFFER_EXHAUSTED if they do not fit. It ends at a byte boundary and changes nothing but
the cursor and memory. -/
def Obligations.PutTrailingBitsMeaning : Prop :=
  (∀ (w0 : Word) (rest : List Word), LegalWord 0x06 w0 → decode (w0 :: rest) = .command (.putTrailingBits (w0.getLsbD 8)) rest) ∧
  ∀ (ca : Bool) (s : State), s.Inv → s.faulted = false →
    (s.configured = false → exec (.putTrailingBits ca) s = .next (s.withFault 2)) ∧
    (s.configured = true → ca = true → s.bitOffset = 0 → ∃ t, exec (.putTrailingBits ca) s = .next t ∧
      Emitted s t [] ∧ SameFrame s t ∧ t.bitOffset = 0 ∧ t.coder = s.coder ∧ t.responses = s.responses) ∧
    (s.configured = true → (ca = false ∨ s.bitOffset ≠ 0) →
      (¬ s.Room (8 - s.bitOffset.toNat) → exec (.putTrailingBits ca) s = .next (s.withFault 4)) ∧
      (s.Room (8 - s.bitOffset.toNat) → ∃ t, exec (.putTrailingBits ca) s = .next t ∧
        Emitted s t (true :: List.replicate (7 - s.bitOffset.toNat) false) ∧ SameFrame s t ∧ t.bitOffset = 0 ∧
        t.coder = s.coder ∧ t.responses = s.responses))

/-- GET_BIT_OFFSET (R112): its encoding; NOT_CONFIGURED; else it completes with the number of bits emitted since the last good
RESET as its one response; no register changes and nothing is stored (the window bits not yet emitted are drawn anew, R57, log
entry 5). -/
def Obligations.GetBitOffsetMeaning : Prop :=
  (∀ (w0 : Word) (rest : List Word), LegalWord 0x07 w0 → decode (w0 :: rest) = .command .getBitOffset rest) ∧
  ∀ s : State, s.Inv → s.faulted = false →
    (s.configured = false → exec .getBitOffset s = .next (s.withFault 2)) ∧
    (s.configured = true → ∃ v : Word,
      exec .getBitOffset s = .next { s with responses := s.responses ++ [v], draws := s.draws + 1 } ∧
      v.toNat + (8 * s.bufStart.toNat + s.startBitOffset.toNat) = s.absPos)

/-- `PUT_BIT b` and `PUT_BITS 1, b` have the same effect in every state (the spec marks R103 as derived). -/
def Obligations.PutBitIsPutBitsOne : Prop :=
  ∀ (b : Bool) (s : State), exec (.putBit b) s = exec (.putBits 1 (if b then 1 else 0)) s

/-- Split transparency (the spec marks R101's law as derived): for `16 < N ≤ 32`, where PUT_BITS N, v completes, so do PUT_BITS
16, v >> (N-16) and PUT_BITS N-16, v one after the other, with the same registers, the same stored memory and the same
responses. -/
def Obligations.PutBitsSplitTransparent : Prop :=
  ∀ (n m : BitVec 6) (value : BitVec 32) (s t : State), s.Inv → s.Ready → 16 < n.toNat → n.toNat ≤ 32 → m.toNat = n.toNat - 16 →
    exec (.putBits n value) s = .next t → t.faulted = false →
    ∃ u, execAll [.putBits 16 (value >>> m.toNat), .putBits m value] s = some u ∧ t = { u with draws := t.draws }

/-- Exp-Golomb length and round trip (the spec marks R105 as derived): with `L = floor(log2(v + 1))` the model's code of `v` has
`2L + 1` bits, `L` zeros and then a 1, and a reference decoder reads back `v` and the bits that follow, whatever they are; so it
does from the bits that a PUT_UE which completes leaves in memory at the old cursor. -/
def Obligations.UnsignedExpGolombRoundTrip : Prop :=
  (∀ (v : Nat) (rest : List Bool),
    (Output.bits (expGolomb v)).length = 2 * Nat.log2 (v + 1) + 1 ∧
      (∃ tail, Output.bits (expGolomb v) = List.replicate (Nat.log2 (v + 1)) false ++ true :: tail) ∧
      ueDecode (Output.bits (expGolomb v) ++ rest) = some (v, rest)) ∧
  ∀ (value : BitVec 32) (s t : State) (rest : List Bool), s.Inv → s.Ready → exec (.putUe value) s = .next t →
    t.faulted = false → t.absPos = s.absPos + (2 * Nat.log2 (value.toNat + 1) + 1) ∧
      ueDecode (t.bitsFrom s.absPos t.absPos ++ rest) = some (value.toNat, rest)

/-- Signed mapping (the spec marks R109 as derived): the code number of R108, decoded by the signed rule, gives the value back,
and every code number is the code number of the value it decodes to. -/
def Obligations.SignedCodeNumberBijective : Prop :=
  (∀ x : Int, seValue (signedCodeNumber x) = x) ∧ (∀ k : Nat, signedCodeNumber (seValue k) = k) ∧
    (∀ x : Int, -(2 ^ 31 - 1) ≤ x ∧ x ≤ 2 ^ 31 - 1 ↔ signedCodeNumber x ≤ 2 ^ 32 - 2)

/-- R113: no bit-writer command reads or writes the coder registers: with other coder registers it does the same and leaves
those as they are; what it emits stands at the cursor at once. -/
def Obligations.BitWriterIgnoresCoder : Prop :=
  ∀ (i : Instr) (s : State) (r : CoderRegs), i.isBitWriter = true →
    ∀ t, exec i s = .next t → t.coder = s.coder ∧ exec i { s with coder := r } = .next { t with coder := r } ∧
      (s.Inv → ∃ bits, Emitted s t bits)

/-! ### The arithmetic coder -/

/-- `PutBitC` (R145): the first call puts no bit of its own; every call then puts the outstanding bits, opposite to the bit, and
clears the counter. -/
def Obligations.PutBitCEmits : Prop :=
  ∀ (c : Coder) (b : Bool),
    Output.bits (c.putBitC b).out =
      Output.bits c.out ++ (if c.firstBit then [] else [b]) ++ List.replicate c.outstanding (!b) ∧
    (c.putBitC b).firstBit = false ∧ (c.putBitC b).outstanding = 0 ∧ (c.putBitC b).low = c.low ∧
    (c.putBitC b).range = c.range

/-- `RenormE` (R146): while the range is below 256, one pass on `low` below 256, from 512 on, or between (a deferred decision,
or counter overflow), each pass doubling the range and `low`. -/
def Obligations.RenormLoop : Prop :=
  ∀ c : Coder, 0 < c.range → renormE c =
    if c.range < 256 then
      if c.low < 256 then renormE { c.putBitC false with low := 2 * c.low, range := 2 * c.range }
      else if 512 ≤ c.low then renormE { c.putBitC true with low := 2 * (c.low - 512), range := 2 * c.range }
      else if 2 ^ 32 ≤ c.outstanding + 1 then .overflow
      else renormE { c with low := 2 * (c.low - 256), range := 2 * c.range, outstanding := c.outstanding + 1 }
    else .ok c

/-- The range after `RenormE` (the spec marks R147 as derived): from any range from 1 to 510, when the loop ends the range is in
[256, 510]. -/
def Obligations.RenormRange : Prop :=
  ∀ c d : Coder, 0 < c.range → c.range ≤ 510 → renormE c = .ok d → 256 ≤ d.range ∧ d.range ≤ 510

/-- LPS widths (R150 and R176, the latter derived): with a range of 256 to 510 the reduced range is at least 128 for every
context; the width is at least 6 for states 0 to 62 and exactly 2 for state 63. -/
def Obligations.LpsWidthBounds : Prop :=
  ∀ (r : CoderRegs) (ctx : BitVec 7), 256 ≤ r.range.toNat → r.range.toNat ≤ 510 →
    lpsWidth r ctx + 128 ≤ r.range.toNat ∧ (ctx.toNat % 64 ≠ 63 → 6 ≤ lpsWidth r ctx) ∧
      (ctx.toNat % 64 = 63 → lpsWidth r ctx = 2)

/-- The context state machine (the spec marks R151 as derived): the new context depends on the context and the bin only; an MPS
moves to the next state up to 62 and keeps the MPS; only an LPS in state 0 flips the MPS; state 63 is absorbing. -/
def Obligations.ContextStateMachine : Prop :=
  ∀ (ctx : BitVec 7) (bin : Bool),
    (bin = ctx.getLsbD 6 → (nextCtx ctx bin).toNat =
      (if ctx.toNat % 64 ≤ 61 then ctx.toNat + 1 else ctx.toNat)) ∧
    (bin ≠ ctx.getLsbD 6 → ((nextCtx ctx bin).getLsbD 6 ≠ ctx.getLsbD 6 ↔ ctx.toNat % 64 = 0)) ∧
    (ctx.toNat % 64 = 63 → nextCtx ctx bin = ctx) ∧
    (ctx.toNat % 64 ≠ 63 → (nextCtx ctx bin).toNat % 64 ≤ 62)

/-- ENCODE_BIN (R150): its encoding; NOT_CONFIGURED; the sub-interval of the bin from `RANGE_TAB_LPS`, then `RenormE`:
COUNTER_OVERFLOW (5) if it overflows, BUFFER_EXHAUSTED (4) if its bits do not fit, else they are emitted, the coder registers
are what it leaves, and the one response is the new MPS in bit 6 and the new state in bits 5:0. -/
def Obligations.EncodeBinMeaning : Prop :=
  (∀ (w0 : Word) (rest : List Word), LegalWord 0x08 w0 →
    decode (w0 :: rest) = .command (.encodeBin (w0.extractLsb' 16 7) (w0.getLsbD 8)) rest) ∧
  ∀ (ctx : BitVec 7) (bin : Bool) (s : State), s.Inv → s.faulted = false →
    let mps := ctx.getLsbD 6
    let state := ctx.extractLsb' 0 6
    let lps : Int := rangeTabLps state (s.coder.range.extractLsb' 6 2)
    let c : Coder :=
      { low := s.coder.low.toNat + (if bin = mps then 0 else s.coder.range.toNat - lps)
        range := if bin = mps then s.coder.range.toNat - lps else lps
        outstanding := s.coder.outstanding.toNat, firstBit := s.coder.firstBit, out := [] }
    (s.configured = false → exec (.encodeBin ctx bin) s = .next (s.withFault 2)) ∧
    (s.configured = true → renormE c ≠ .endless ∧
      (renormE c = .overflow → exec (.encodeBin ctx bin) s = .next (s.withFault 5)) ∧
      ∀ d, renormE c = .ok d →
        (¬ s.Room (Output.bits d.out).length → exec (.encodeBin ctx bin) s = .next (s.withFault 4)) ∧
        (s.Room (Output.bits d.out).length → ∃ t v, exec (.encodeBin ctx bin) s = .next t ∧
          Emitted s t (Output.bits d.out) ∧ SameFrame s t ∧ t.responses = s.responses ++ [v] ∧
          v.toNat = 64 * (if bin ≠ mps ∧ state = 0 then !mps else mps).toNat +
            (if bin = mps then transIdxMps state else transIdxLps state).toNat ∧
          (t.coder.low.toNat : Int) = d.low ∧ (t.coder.range.toNat : Int) = d.range ∧
          t.coder.outstanding.toNat = d.outstanding ∧ t.coder.firstBit = d.firstBit))

/-- ENCODE_BIN completes: in every legal, configured, unfaulted state with room for the outstanding bits and seven more, and a
counter that cannot overflow in seven passes, for every context and bin. Its one response is the updated context; nothing
changes but the cursor, memory and the coder registers. -/
def Obligations.EncodeBinCompletes : Prop :=
  ∀ (ctx : BitVec 7) (bin : Bool) (s : State), s.Inv → s.Ready → s.coder.outstanding.toNat + 7 < 2 ^ 32 →
    s.Room (s.coder.outstanding.toNat + 7) →
    ∃ t bits, exec (.encodeBin ctx bin) s = .next t ∧ t.faulted = false ∧ Emitted s t bits ∧ SameFrame s t ∧
      t.responses = s.responses ++ [(nextCtx ctx bin).setWidth 64]

/-- ENCODE_BIN codes the bin (R150 with R145, R146): COUNTER_OVERFLOW (5) exactly when the outstanding bits and the passes that
defer first exceed `2^32 - 1`; else BUFFER_EXHAUSTED (4) if the bits do not fit; else they are emitted, and the interval the
emitted bits, the outstanding bits and the registers stand for is the bin's sub-interval, doubled `k ≤ 7` times, the least `k`
that brings the range to 256. The claim about the code value is the model's own inference from R145, R146 and R150. -/
def Obligations.EncodeBinChoosesInterval : Prop :=
  ∀ (ctx : BitVec 7) (bin : Bool) (s : State), s.Inv → s.Ready →
    let low := s.coder.low.toNat + subStart s.coder ctx bin
    let d := leadingDeferrals 16 low (subWidth s.coder ctx bin)
    (2 ^ 32 ≤ s.coder.outstanding.toNat + d → exec (.encodeBin ctx bin) s = .next (s.withFault 5)) ∧
    (s.coder.outstanding.toNat + d < 2 ^ 32 → ∃ bits regs k,
      (¬ s.Room bits.length → exec (.encodeBin ctx bin) s = .next (s.withFault 4)) ∧
      (s.Room bits.length → ∃ t, exec (.encodeBin ctx bin) s = .next t ∧ Emitted s t bits ∧ SameFrame s t ∧
        t.coder = regs ∧ t.responses = s.responses ++ [(nextCtx ctx bin).setWidth 64]) ∧
      k ≤ 7 ∧ regs.range.toNat = 2 ^ k * subWidth s.coder ctx bin ∧ regs.Legal ∧
      (k ≠ 0 → 2 ^ (k - 1) * subWidth s.coder ctx bin < 256) ∧
      (bin = ctx.getLsbD 6 → k ≤ 1) ∧
      ∀ pre, (s.coder.firstBit = true → pre = []) →
        codeValue (pre ++ bits) regs = 2 ^ k * (codeValue pre s.coder + subStart s.coder ctx bin))

/-- ENCODE_BIN_EP (R160): its encoding; NOT_CONFIGURED; the decision on the doubled `low` at 1024 and 512: a 1, a 0, or a
deferred bit (COUNTER_OVERFLOW at `2^32 - 1`); the bit goes out by `PutBitC`, BUFFER_EXHAUSTED if it does not fit. CODE_RANGE is
not written, no response is given. -/
def Obligations.EncodeBinEpMeaning : Prop :=
  (∀ (w0 : Word) (rest : List Word), LegalWord 0x09 w0 → decode (w0 :: rest) = .command (.encodeBinEp (w0.getLsbD 8)) rest) ∧
  ∀ (bin : Bool) (s : State), s.Inv → s.faulted = false →
    let low := 2 * s.coder.low.toNat + (if bin then s.coder.range.toNat else 0)
    let bo := s.coder.outstanding.toNat
    let put (b : Bool) := (if s.coder.firstBit then [] else [b]) ++ List.replicate bo (!b)
    (s.configured = false → exec (.encodeBinEp bin) s = .next (s.withFault 2)) ∧
    (s.configured = true → 1024 ≤ low →
      (¬ s.Room (put true).length → exec (.encodeBinEp bin) s = .next (s.withFault 4)) ∧
      (s.Room (put true).length → ∃ t, exec (.encodeBinEp bin) s = .next t ∧ Emitted s t (put true) ∧ SameFrame s t ∧
        t.responses = s.responses ∧
        t.coder = { low := BitVec.ofNat 10 (low - 1024), range := s.coder.range, outstanding := 0, firstBit := false })) ∧
    (s.configured = true → low < 512 →
      (¬ s.Room (put false).length → exec (.encodeBinEp bin) s = .next (s.withFault 4)) ∧
      (s.Room (put false).length → ∃ t, exec (.encodeBinEp bin) s = .next t ∧ Emitted s t (put false) ∧ SameFrame s t ∧
        t.responses = s.responses ∧
        t.coder = { low := BitVec.ofNat 10 low, range := s.coder.range, outstanding := 0, firstBit := false })) ∧
    (s.configured = true → 512 ≤ low → low < 1024 →
      (bo = 2 ^ 32 - 1 → exec (.encodeBinEp bin) s = .next (s.withFault 5)) ∧
      (bo < 2 ^ 32 - 1 → ∃ t, exec (.encodeBinEp bin) s = .next t ∧ Emitted s t [] ∧ SameFrame s t ∧
        t.responses = s.responses ∧
        t.coder = { low := BitVec.ofNat 10 (low - 512), range := s.coder.range,
                    outstanding := BitVec.ofNat 32 (bo + 1), firstBit := s.coder.firstBit }))

/-- The bypass interval (the model's own inference from R160 and R145): where ENCODE_BIN_EP completes, the code value doubles
and, for a 1, adds the range. -/
def Obligations.BypassChoosesHalf : Prop :=
  ∀ (bin : Bool) (s t : State) (bits pre : List Bool), s.Inv → s.Ready → exec (.encodeBinEp bin) s = .next t → t.faulted = false →
    Emitted s t bits → (s.coder.firstBit = true → pre = []) →
    codeValue (pre ++ bits) t.coder = 2 * codeValue pre s.coder + (if bin then s.coder.range.toNat else 0)

/-- SLICE_FINISH (R170): its encoding; NOT_CONFIGURED; the last two units of the interval, then `RenormE` (COUNTER_OVERFLOW if
it overflows), bit 9 of `low` through `PutBitC`, bit 8, the stop bit and zeros to the next byte boundary; BUFFER_EXHAUSTED if
all that does not fit, else it is emitted and the registers are as the rule says. No response. -/
def Obligations.SliceFinishMeaning : Prop :=
  (∀ (w0 : Word) (rest : List Word), LegalWord 0x0A w0 → decode (w0 :: rest) = .command .sliceFinish rest) ∧
  ∀ s : State, s.Inv → s.faulted = false →
    let c : Coder :=
      { low := s.coder.low.toNat + (s.coder.range.toNat - 2), range := 2, outstanding := s.coder.outstanding.toNat
        firstBit := s.coder.firstBit, out := [] }
    (s.configured = false → exec .sliceFinish s = .next (s.withFault 2)) ∧
    (s.configured = true → renormE c ≠ .endless ∧
      (renormE c = .overflow → exec .sliceFinish s = .next (s.withFault 5)) ∧
      ∀ d, renormE c = .ok d →
        let body := Output.bits (d.putBitC (decide (d.low / 512 % 2 = 1))).out ++ [decide (d.low / 256 % 2 = 1)]
        let out := body ++ true :: List.replicate (7 - (s.bitOffset.toNat + body.length) % 8) false
        d.range = 256 ∧
        (¬ s.Room out.length → exec .sliceFinish s = .next (s.withFault 4)) ∧
        (s.Room out.length → ∃ t, exec .sliceFinish s = .next t ∧ Emitted s t out ∧ SameFrame s t ∧
          t.responses = s.responses ∧ (t.coder.low.toNat : Int) = d.low ∧ t.coder.range = 256 ∧ t.coder.outstanding = 0 ∧
          t.coder.firstBit = false ∧ t.bitOffset = 0))

/-- SLICE_FINISH completes: in every legal, configured, unfaulted state with a counter that cannot overflow in seven passes and
room for the outstanding bits and 17 more. It leaves the registers as R171 says. -/
def Obligations.SliceFinishCompletes : Prop :=
  ∀ s : State, s.Inv → s.Ready → s.coder.outstanding.toNat + 7 < 2 ^ 32 → s.Room (s.coder.outstanding.toNat + 17) →
    ∃ t bits, exec .sliceFinish s = .next t ∧ t.faulted = false ∧ Emitted s t bits ∧ SameFrame s t ∧
      t.responses = s.responses ∧ t.coder.range = 256 ∧ t.coder.outstanding = 0 ∧ t.coder.firstBit = false ∧
      t.bitOffset = 0

/-- SLICE_FINISH terminates the codeword (R170, R171): COUNTER_OVERFLOW (5) exactly when the outstanding bits and the passes
that defer first exceed `2^32 - 1`; BUFFER_EXHAUSTED (4) if the whole output does not fit; else it emits the codeword's end, the
stop bit and zeros to a byte boundary. With the stop bit as its last bit the codeword lies in the last two units of the
interval: it decodes as a terminating bin 1 (the model's own inference). -/
def Obligations.SliceFinishTerminates : Prop :=
  ∀ s : State, s.Inv → s.Ready →
    let d := leadingDeferrals 16 (s.coder.low.toNat + s.coder.range.toNat - 2) 2
    (2 ^ 32 ≤ s.coder.outstanding.toNat + d → exec .sliceFinish s = .next (s.withFault 5)) ∧
    (s.coder.outstanding.toNat + d < 2 ^ 32 → ∃ body z, z ≤ 7 ∧
      (¬ s.Room (body.length + 1 + z) → exec .sliceFinish s = .next (s.withFault 4)) ∧
      (s.Room (body.length + 1 + z) → ∃ t, exec .sliceFinish s = .next t ∧
        Emitted s t (body ++ true :: List.replicate z false) ∧ SameFrame s t ∧ t.responses = s.responses ∧
        t.coder.range = 256 ∧ t.coder.outstanding = 0 ∧ t.coder.firstBit = false ∧ t.bitOffset = 0) ∧
      ∀ pre, (s.coder.firstBit = true → pre = []) →
        codeValue pre s.coder + s.coder.range.toNat - 2 ≤ natOfBits (pre ++ body ++ [true]) ∧
          (natOfBits (pre ++ body ++ [true]) : Int) < codeValue pre s.coder + s.coder.range.toNat)

/-- R177: a stream of ENCODE_BIN and ENCODE_BIN_EP from the coder's initial state, ended by SLICE_FINISH, decodes to the same
bins and a terminating bin 1. The spec names the decoder and does not give its steps: `Decoder` is PRESUMED (log entry 17). -/
def Obligations.CodewordDecodes : Prop :=
  ∀ (s t : State) (bins : List Bin), s.Inv → s.Ready → s.coder = coderInit →
    execAll (bins.map Bin.instr ++ [.sliceFinish]) s = some t → t.faulted = false →
    (Decoder.start (t.bitsFrom s.absPos t.absPos)).run bins = (bins.map Bin.value, true)

/-- Only a good RESET sets FIRST_BIT_FLAG again (R28): after any other step the flag is 1 only if it was. -/
def Obligations.FirstBitFlagOnlySetByReset : Prop :=
  ∀ s t : State, step s = .next t → t.coder.firstBit = true →
    s.coder.firstBit = true ∨ ∃ sbo start stop rest, decode s.port = .command (.reset sbo start stop) rest ∧
      resetWellFormed s.params sbo start stop

/-! ### Faults -/

/-- R211: a step that raises a fault changes STATUS and nothing else but that the command's words have been taken from the port:
the code is recorded if FAULTED was 0, FAULTED becomes 1, `CONFIGURED` keeps its value. A code recorded before is kept until
FAULTED is cleared. -/
def Obligations.FaultChangesOnlyStatus : Prop :=
  ∀ s t : State, s.Inv → step s = .next t → t.faulted = true →
    (s.faulted = false → ∃ code : BitVec 4, 1 ≤ code.toNat ∧ code.toNat ≤ 5 ∧
      t = { s.withFault code with port := t.port, index := s.index + 1 }) ∧
    (s.faulted = true → t.status = s.status)

/-- R215: while FAULTED, every command but a legal RESET and a legal READ_REG is discarded: nothing changes but that its word
has been taken from the port. A legal RESET, with its three words, and a legal READ_REG execute. -/
def Obligations.FaultedDiscards : Prop :=
  ∀ (s : State) (w0 : Word) (rest : List Word), s.faulted = true → s.port = w0 :: rest →
    ((illegalFirstWord w0 = true ∨ (w0.toNat % 256 ≠ 0x01 ∧ w0.toNat % 256 ≠ 0x0B)) →
      step s = .next { s with port := rest, index := s.index + 1 }) ∧
    (illegalFirstWord w0 = false → w0.toNat % 256 = 0x01 → ∀ start stop ws, rest = start :: stop :: ws →
      step s = exec (.reset (w0.extractLsb' 8 3) start stop) { s with port := ws, index := s.index + 1 }) ∧
    (illegalFirstWord w0 = false → w0.toNat % 256 = 0x0B →
      step s = exec (.readReg (w0.extractLsb' 8 8)) { s with port := rest, index := s.index + 1 })

/-- R213: before a good RESET every command other than RESET and READ_REG faults with NOT_CONFIGURED (2), whatever its operands.
-/
def Obligations.UnconfiguredFaults : Prop :=
  ∀ (i : Instr) (s : State), i.isControl = false → s.configured = false → s.faulted = false →
    exec i s = .next (s.withFault 2)

/-- R216: the only step out of FAULTED is a RESET whose operands pass R191; it sets STATUS to 0x01 and re-initialises the cursor
and the coder, and the bits emitted before stay in memory. -/
def Obligations.OnlyGoodResetRecovers : Prop :=
  ∀ s t : State, s.faulted = true → step s = .next t → t.faulted = false →
    t.status = 0x01 ∧ t.coder = { low := 0, range := 510, outstanding := 0, firstBit := true } ∧ t.mem = s.mem ∧
      ∃ sbo start stop rest, decode s.port = .command (.reset sbo start stop) rest ∧
        resetWellFormed s.params sbo start stop ∧ t.curPtr = start ∧ t.bitOffset = sbo

/-- R87: a command in a state in which its operands are checked faults with OPERAND_RANGE (3) exactly when an operand is outside
its legal values, whatever the room in the window. -/
def Obligations.OperandRangeExactly : Prop :=
  ∀ (i : Instr) (s : State), s.Inv → s.faulted = false → (s.configured = true ∨ i.isReset = true) →
    (i.wellFormed s.params = false ↔ exec i s = .next (s.withFault 3))

/-! ### Memory and the whole machine -/

/-- R58: no step stores to a byte outside the window. -/
def Obligations.NothingOutsideWindow : Prop :=
  ∀ s t : State, s.Inv → step s = .next t → ∀ a, (a < s.bufStart.toNat ∨ s.bufEnd.toNat ≤ a) →
    Memory.read t.mem a = Memory.read s.mem a

/-- Emitted bits stay (R64: "A later command never changes an emitted bit"; R24): any step but a good RESET leaves every bit
before the cursor and every bit outside the window as it was, and does not move the cursor back. -/
def Obligations.EmittedBitsStay : Prop :=
  ∀ s t : State, s.Inv → step s = .next t →
    (∀ sbo start stop rest, decode s.port = .command (.reset sbo start stop) rest → ¬ resetWellFormed s.params sbo start stop) →
    s.absPos ≤ t.absPos ∧
      (s.configured = true → ∀ P, (P < s.absPos ∨ 8 * s.bufEnd.toNat ≤ P) → t.readBit P = s.readBit P)

/-- R56: the first START_BIT_OFFSET bits of the window keep the value memory held before the RESET, whatever commands other than
RESET follow it. -/
def Obligations.LeadingBitsPreserved : Prop :=
  ∀ (s t : State) (sbo : BitVec 3) (start stop : Word) (is : List Instr), s.Inv → resetWellFormed s.params sbo start stop →
    (∀ i ∈ is, i.isReset = false) → execAll (.reset sbo start stop :: is) s = some t →
    ∀ P, 8 * start.toNat ≤ P → P < 8 * start.toNat + sbo.toNat → t.readBit P = s.readBit P

/-- R51: no command reads memory: with other memory contents it does the same to every register, the port and the response
channel; and every store is to a byte of the window. -/
def Obligations.NoCommandReadsMemory : Prop :=
  ∀ (i : Instr) (s t : State) (m : Memory) (rs : List Region) (n : Nat), exec i s = .next t →
    ∃ u, exec i { s with mem := m, drawn := rs, draws := n } = .next u ∧
      u = { t with mem := u.mem, drawn := u.drawn, draws := u.draws } ∧
      (s.Inv → ∀ a, (a < s.bufStart.toNat ∨ s.bufEnd.toNat ≤ a) → Memory.read t.mem a = Memory.read s.mem a)

/-- R21, R22, R23: BUF_START, BUF_END and START_BIT_OFFSET are written only by a good RESET, from its operands. -/
def Obligations.OnlyResetMovesWindow : Prop :=
  ∀ s t : State, step s = .next t →
    (t.bufStart = s.bufStart ∧ t.bufEnd = s.bufEnd ∧ t.startBitOffset = s.startBitOffset) ∨
    ∃ sbo start stop rest, decode s.port = .command (.reset sbo start stop) rest ∧
      resetWellFormed s.params sbo start stop ∧ t.bufStart = start ∧ t.bufEnd = stop ∧ t.startBitOffset = sbo

/-- R59: a command whose pending output has `pos + len(out) > cap` faults with BUFFER_EXHAUSTED, writes no bit and changes no
register other than STATUS; one with `pos + len(out) ≤ cap` passes, and its bits are emitted. -/
def Obligations.CapacityCheck : Prop :=
  ∀ (s : State) (r : Result), s.Inv → s.Ready →
    let pos : Int := 8 * ((s.curPtr.toNat : Int) - s.bufStart.toNat) + s.bitOffset.toNat
    let cap : Int := 8 * ((s.bufEnd.toNat : Int) - s.bufStart.toNat)
    (cap < pos + (Output.bits r.out).length → s.execute (.done r) = .next (s.withFault 4)) ∧
    (pos + (Output.bits r.out).length ≤ cap → ∃ t, s.execute (.done r) = .next t ∧ t.faulted = false ∧
      Emitted s t (Output.bits r.out) ∧ t.coder = r.coder)

/-- The parameters of R6 never change: no step changes them, in any state. The cursor moves by emission only (R24: "It moves
only when a bit is emitted"): a command that completes emits exactly the bits of its compute step's pending output, and moves
the cursor exactly when there are some; the cursor stays where the block holds, at an illegal word, after GET_BIT_OFFSET and
READ_REG, and where the step ends FAULTED (a fault or a discarded command). -/
def Obligations.CursorMovesByEmission : Prop :=
  (∀ s t : State, step s = .next t → t.params = s.params) ∧
  (∀ (i : Instr) (s t : State) (r : Result), s.Inv → s.Ready → computedOf s i = some (.done r) → exec i s = .next t →
    t.faulted = false → Emitted s t (Output.bits r.out) ∧
      (t.curPtr = s.curPtr ∧ t.bitOffset = s.bitOffset ↔ Output.bits r.out = [])) ∧
  ∀ s t : State, step s = .next t →
    (decode s.port = .hold ∨ (∃ rest, decode s.port = .illegal rest) ∨
      (∃ rest, decode s.port = .command .getBitOffset rest) ∨ (∃ reg rest, decode s.port = .command (.readReg reg) rest) ∨
      t.faulted = true) →
    t.curPtr = s.curPtr ∧ t.bitOffset = s.bitOffset

/-- What a host may rely on (R64), where PLATFORM_COHERENT is true (D30): once a command has completed, the host reads every bit
it emitted at its place, and goes on reading it whatever commands other than RESET follow. -/
def Obligations.HostSeesEmittedBits : Prop :=
  ∀ (i : Instr) (is : List Instr) (s t u : State) (r : Result), s.Inv → s.Ready → s.params.platformCoherent = true →
    computedOf s i = some (.done r) → exec i s = .next t → t.faulted = false → (∀ j ∈ is, j.isReset = false) →
    execAll is t = some u →
    ∀ k (h : k < (Output.bits r.out).length), u.hostReadBit (s.absPos + k) = (Output.bits r.out)[k]
end

