-- ==== Sys2Proof/Laws/Memory.lean ====
section
/-! SUPPORT. Memory: reading back what was written, everything else unchanged, and the canonical form kept by every operation. -/
namespace Sys2Proof.Machine

/-! ### The canonical form -/

theorem Memory.wfFrom_mono {lo lo' : Nat} (h : lo ≤ lo') : ∀ {m : Memory}, Memory.wfFrom lo' m = true → Memory.wfFrom lo m = true
  | [], _ => rfl
  | (k, v) :: m, hm => by
    simp only [Memory.wfFrom, Bool.and_eq_true, decide_eq_true_eq] at hm ⊢
    exact ⟨⟨by omega, hm.1.2⟩, hm.2⟩

theorem Memory.wfFrom_cell {lo a : Nat} {v : Byte} {m : Memory} (h : lo ≤ a) (hm : Memory.wfFrom (a + 1) m = true) :
    Memory.wfFrom lo (Memory.cell a v m) = true := by
  unfold Memory.cell
  split
  · exact Memory.wfFrom_mono (by omega) hm
  · simp [Memory.wfFrom, *]

theorem Memory.wfFrom_write (a : Nat) (v : Byte) :
    ∀ {lo : Nat} {m : Memory}, lo ≤ a → Memory.wfFrom lo m = true → Memory.wfFrom lo (Memory.write m a v) = true
  | lo, [], h, _ => Memory.wfFrom_cell h rfl
  | lo, (k, x) :: m, h, hm => by
    simp only [Memory.wfFrom, Bool.and_eq_true, decide_eq_true_eq, bne_iff_ne, ne_eq] at hm
    unfold Memory.write
    split
    · refine Memory.wfFrom_cell h ?_
      simp only [Memory.wfFrom, Bool.and_eq_true, decide_eq_true_eq, bne_iff_ne, ne_eq]
      exact ⟨⟨by omega, hm.1.2⟩, hm.2⟩
    · split
      · subst a
        exact Memory.wfFrom_cell h hm.2
      · simp only [Memory.wfFrom, Bool.and_eq_true, decide_eq_true_eq, bne_iff_ne, ne_eq]
        exact ⟨hm.1, Memory.wfFrom_write a v (by omega) hm.2⟩

/-- A write keeps the canonical form. -/
theorem Memory.wf_write {m : Memory} (a : Nat) (v : Byte) (h : Memory.wf m = true) : Memory.wf (Memory.write m a v) = true :=
  Memory.wfFrom_write a v (Nat.zero_le a) h

/-- A bit write keeps the canonical form. -/
theorem Memory.wf_writeBit {m : Memory} (P : Nat) (b : Bool) (h : Memory.wf m = true) :
    Memory.wf (Memory.writeBit m P b) = true := Memory.wf_write _ _ h

/-- Emitting bits keeps the canonical form. -/
theorem Memory.wf_writeBits : ∀ (bs : List Bool) {m : Memory} (P : Nat), Memory.wf m = true →
    Memory.wf (Memory.writeBits m P bs) = true
  | [], _, _, h => h
  | b :: bs, _, P, h => Memory.wf_writeBits bs (P + 1) (Memory.wf_writeBit P b h)

/-! ### Reading -/

theorem Memory.read_below : ∀ {lo a : Nat} {m : Memory}, Memory.wfFrom lo m = true → a < lo → Memory.read m a = unlistedByte
  | _, _, [], _, _ => rfl
  | lo, a, (k, x) :: m, hm, h => by
    simp only [Memory.wfFrom, Bool.and_eq_true, decide_eq_true_eq] at hm
    rw [Memory.read, if_neg (by omega), Memory.read_below hm.2 (by omega)]

theorem Memory.read_cell {a : Nat} {v : Byte} {m : Memory} (hm : Memory.wfFrom (a + 1) m = true) (b : Nat) :
    Memory.read (Memory.cell a v m) b = if a = b then v else Memory.read m b := by
  unfold Memory.cell
  split
  · rename_i hv
    split
    · subst b
      rw [Memory.read_below hm (by omega), hv]
    · rfl
  · rfl

theorem Memory.read_write_from (a : Nat) (v : Byte) (b : Nat) : ∀ {lo : Nat} {m : Memory}, Memory.wfFrom lo m = true →
    Memory.read (Memory.write m a v) b = if a = b then v else Memory.read m b
  | _, [], _ => Memory.read_cell rfl b
  | lo, (k, x) :: m, hm => by
    simp only [Memory.wfFrom, Bool.and_eq_true, decide_eq_true_eq, bne_iff_ne, ne_eq] at hm
    unfold Memory.write
    split
    · refine Memory.read_cell ?_ b
      simp only [Memory.wfFrom, Bool.and_eq_true, decide_eq_true_eq, bne_iff_ne, ne_eq]
      exact ⟨⟨by omega, hm.1.2⟩, hm.2⟩
    · split
      · subst a
        rw [Memory.read_cell hm.2]
        simp only [Memory.read]
        split <;> rfl
      · simp only [Memory.read, Memory.read_write_from a v b hm.2]
        split
        · rw [if_neg (by omega)]
        · rfl

/-- A byte read after a write: the byte written at its address, what was there before anywhere else. -/
theorem Memory.read_write {m : Memory} (h : Memory.wf m = true) (a : Nat) (v : Byte) (b : Nat) :
    Memory.read (Memory.write m a v) b = if a = b then v else Memory.read m b :=
  Memory.read_write_from a v b h

theorem setBit_getLsbD (v : Byte) (b : Bool) : ∀ (k j : Fin 8),
    (setBit v k b).getLsbD j = if k = j then b else v.getLsbD j := by
  intro k j
  cases b <;> simp [setBit] <;> fin_cases k <;> fin_cases j <;> simp

/-- A bit read after a bit write: the bit written at its position, what was there before anywhere else (R52: "and no other
bit"). -/
theorem Memory.bit_writeBit {m : Memory} (h : Memory.wf m = true) (P : Nat) (b : Bool) (Q : Nat) :
    Memory.bit (Memory.writeBit m P b) Q = if P = Q then b else Memory.bit m Q := by
  unfold Memory.bit Memory.writeBit
  rw [Memory.read_write h]
  have hs := setBit_getLsbD (Memory.read m (P / 8)) b ⟨7 - P % 8, by omega⟩ ⟨7 - Q % 8, by omega⟩
  simp only [Fin.mk.injEq] at hs
  by_cases hb : P / 8 = Q / 8
  · rw [if_pos hb, hs, hb]
    by_cases hq : P = Q
    · rw [if_pos (by omega), if_pos hq]
    · rw [if_neg (by omega), if_neg hq]
  · rw [if_neg hb, if_neg (by omega : P ≠ Q)]

/-- Before and after the emitted bits every stored bit is as it was (R52). -/
theorem Memory.bit_writeBits_of_outside : ∀ (bs : List Bool) {m : Memory} (P Q : Nat), Memory.wf m = true →
    (Q < P ∨ P + bs.length ≤ Q) → Memory.bit (Memory.writeBits m P bs) Q = Memory.bit m Q
  | [], _, _, _, _, _ => rfl
  | b :: bs, m, P, Q, h, hQ => by
    simp only [List.length_cons] at hQ
    rw [Memory.writeBits, Memory.bit_writeBits_of_outside bs _ _ (Memory.wf_writeBit P b h) (by omega),
      Memory.bit_writeBit h, if_neg (by omega)]

/-- The emitted bits stand where they were emitted, in emission order (R52, R53). -/
theorem Memory.bit_writeBits : ∀ (bs : List Bool) {m : Memory} (P k : Nat) (_ : Memory.wf m = true) (hk : k < bs.length),
    Memory.bit (Memory.writeBits m P bs) (P + k) = bs[k]
  | [], _, _, _, _, hk => absurd hk (by simp)
  | b :: bs, m, P, 0, h, _ => by
    rw [Memory.writeBits, Memory.bit_writeBits_of_outside bs _ _ (Memory.wf_writeBit P b h) (by omega),
      Memory.bit_writeBit h, if_pos (Nat.add_zero P).symm]
    rfl
  | b :: bs, m, P, k + 1, h, hk => by
    have := Memory.bit_writeBits bs (P + 1) k (Memory.wf_writeBit P b h) (by simpa using hk)
    rw [Memory.writeBits, show P + (k + 1) = P + 1 + k by omega, this]
    rfl

/-- No byte is stored to but those the emitted bits lie in. -/
theorem Memory.read_writeBits : ∀ (bs : List Bool) {m : Memory} (P a : Nat), Memory.wf m = true →
    (∀ k, k < bs.length → (P + k) / 8 ≠ a) → Memory.read (Memory.writeBits m P bs) a = Memory.read m a
  | [], _, _, _, _, _ => rfl
  | b :: bs, m, P, a, h, ha => by
    have h0 := ha 0 (by simp)
    rw [Memory.writeBits, Memory.read_writeBits bs _ _ (Memory.wf_writeBit P b h), Memory.writeBit,
      Memory.read_write h, if_neg (by simpa using h0)]
    intro k hk
    have := ha (k + 1) (by simpa using hk)
    rwa [show P + 1 + k = P + (k + 1) by omega]

/-! ### Regions of free values -/

theorem drawAt_append (rs qs : List Region) (P : Nat) :
    drawAt (rs ++ qs) P = (drawAt rs P).or (drawAt qs P) := by
  induction rs with
  | nil => rfl
  | cons r rs ih =>
    simp only [List.cons_append, drawAt, ih]
    split <;> simp

/-- A position no region covers has no draw. -/
theorem drawAt_eq_none {rs : List Region} {P : Nat} : (∀ r ∈ rs, ¬ (r.lo ≤ P ∧ P < r.hi)) → drawAt rs P = none := by
  induction rs with
  | nil => intro _; rfl
  | cons r rs ih =>
    intro h
    rw [drawAt, if_neg (h r (by simp)), ih fun q hq => h q (by simp [hq])]

/-- Outside the positions taken out, the draws are what they were. -/
theorem drawAt_regionsMinus_of_outside (rs : List Region) {lo hi P : Nat} (h : P < lo ∨ hi ≤ P) :
    drawAt (regionsMinus rs lo hi) P = drawAt rs P := by
  induction rs with
  | nil => rfl
  | cons r rs ih =>
    unfold regionsMinus at ih ⊢
    rw [List.flatMap_cons, drawAt_append, ih, drawAt]
    unfold Region.minus
    by_cases hr : r.lo ≤ P ∧ P < r.hi
    · rw [if_pos hr]
      by_cases h1 : r.lo < min r.hi lo <;> by_cases h2 : max r.lo hi < r.hi
      all_goals simp only [h1, h2, if_true, if_false, List.append_nil, List.nil_append, List.singleton_append, drawAt]
      · by_cases h3 : P < min r.hi lo
        · simp [hr.1, h3]
        · have : max r.lo hi ≤ P := by omega
          simp [h3, this, hr.2]
      · have h3 : P < min r.hi lo := by omega
        simp [hr.1, h3]
      · have : max r.lo hi ≤ P := by omega
        simp [this, hr.2]
      · omega
    · rw [if_neg hr]
      by_cases h1 : r.lo < min r.hi lo <;> by_cases h2 : max r.lo hi < r.hi
      all_goals simp only [h1, h2, if_true, if_false, List.append_nil, List.nil_append, List.singleton_append, drawAt]
      · rw [if_neg (by omega), if_neg (by omega)]; rfl
      · rw [if_neg (by omega)]; rfl
      · rw [if_neg (by omega)]; rfl
      · rfl

/-- What is left of regions lies outside the positions taken out. -/
theorem regionsMinus_clear {rs : List Region} {lo hi : Nat} {r : Region} (h : r ∈ regionsMinus rs lo hi) :
    r.hi ≤ lo ∨ hi ≤ r.lo := by
  unfold regionsMinus at h
  rw [List.mem_flatMap] at h
  obtain ⟨q, -, hq⟩ := h
  unfold Region.minus at hq
  rw [List.mem_append] at hq
  rcases hq with hq | hq <;> split at hq <;> simp at hq <;> subst hq <;> simp

/-- What is left of regions lies inside the regions. -/
theorem regionsMinus_inside {rs : List Region} {lo hi : Nat} {r : Region} (h : r ∈ regionsMinus rs lo hi) :
    ∃ q ∈ rs, q.lo ≤ r.lo ∧ r.hi ≤ q.hi := by
  unfold regionsMinus at h
  rw [List.mem_flatMap] at h
  obtain ⟨q, hm, hq⟩ := h
  refine ⟨q, hm, ?_⟩
  unfold Region.minus at hq
  rw [List.mem_append] at hq
  rcases hq with hq | hq <;> split at hq <;> simp at hq <;> subst hq <;> simp

end Sys2Proof.Machine
end

