-- ==== Sys2Proof/Laws/State.lean ====
section
/-! SUPPORT. One lemma per field of State and per update of it, each true by unfolding, so that no proof unfolds an update. -/
namespace Sys2Proof.Machine

/-! ### `State.raise` -/

@[simp] theorem State.raise_status (s : State) (code : FaultCode) :
    (s.raise code).status = s.statusAfterFault code := rfl
@[simp] theorem State.raise_bufStart (s : State) (code : FaultCode) : (s.raise code).bufStart = s.bufStart := rfl
@[simp] theorem State.raise_bufEnd (s : State) (code : FaultCode) : (s.raise code).bufEnd = s.bufEnd := rfl
@[simp] theorem State.raise_startBitOffset (s : State) (code : FaultCode) :
    (s.raise code).startBitOffset = s.startBitOffset := rfl
@[simp] theorem State.raise_curPtr (s : State) (code : FaultCode) : (s.raise code).curPtr = s.curPtr := rfl
@[simp] theorem State.raise_bitOffset (s : State) (code : FaultCode) : (s.raise code).bitOffset = s.bitOffset := rfl
@[simp] theorem State.raise_coder (s : State) (code : FaultCode) : (s.raise code).coder = s.coder := rfl
@[simp] theorem State.raise_mem (s : State) (code : FaultCode) : (s.raise code).mem = s.mem := rfl
@[simp] theorem State.raise_drawn (s : State) (code : FaultCode) : (s.raise code).drawn = s.drawn := rfl
@[simp] theorem State.raise_draws (s : State) (code : FaultCode) : (s.raise code).draws = s.draws := rfl
@[simp] theorem State.raise_port (s : State) (code : FaultCode) : (s.raise code).port = s.port := rfl
@[simp] theorem State.raise_index (s : State) (code : FaultCode) : (s.raise code).index = s.index := rfl
@[simp] theorem State.raise_responses (s : State) (code : FaultCode) : (s.raise code).responses = s.responses := rfl
@[simp] theorem State.raise_params (s : State) (code : FaultCode) : (s.raise code).params = s.params := rfl

/-! ### `State.respond` -/

@[simp] theorem State.respond_status (s : State) (v : Word) : (s.respond v).status = s.status := rfl
@[simp] theorem State.respond_bufStart (s : State) (v : Word) : (s.respond v).bufStart = s.bufStart := rfl
@[simp] theorem State.respond_bufEnd (s : State) (v : Word) : (s.respond v).bufEnd = s.bufEnd := rfl
@[simp] theorem State.respond_startBitOffset (s : State) (v : Word) :
    (s.respond v).startBitOffset = s.startBitOffset := rfl
@[simp] theorem State.respond_curPtr (s : State) (v : Word) : (s.respond v).curPtr = s.curPtr := rfl
@[simp] theorem State.respond_bitOffset (s : State) (v : Word) : (s.respond v).bitOffset = s.bitOffset := rfl
@[simp] theorem State.respond_coder (s : State) (v : Word) : (s.respond v).coder = s.coder := rfl
@[simp] theorem State.respond_mem (s : State) (v : Word) : (s.respond v).mem = s.mem := rfl
@[simp] theorem State.respond_drawn (s : State) (v : Word) : (s.respond v).drawn = s.drawn := rfl
@[simp] theorem State.respond_draws (s : State) (v : Word) : (s.respond v).draws = s.draws := rfl
@[simp] theorem State.respond_port (s : State) (v : Word) : (s.respond v).port = s.port := rfl
@[simp] theorem State.respond_index (s : State) (v : Word) : (s.respond v).index = s.index := rfl
@[simp] theorem State.respond_responses (s : State) (v : Word) : (s.respond v).responses = s.responses ++ [v] := rfl
@[simp] theorem State.respond_params (s : State) (v : Word) : (s.respond v).params = s.params := rfl

/-! ### `State.redraw` -/

@[simp] theorem State.redraw_status (s : State) : (s.redraw).status = s.status := rfl
@[simp] theorem State.redraw_bufStart (s : State) : (s.redraw).bufStart = s.bufStart := rfl
@[simp] theorem State.redraw_bufEnd (s : State) : (s.redraw).bufEnd = s.bufEnd := rfl
@[simp] theorem State.redraw_startBitOffset (s : State) : (s.redraw).startBitOffset = s.startBitOffset := rfl
@[simp] theorem State.redraw_curPtr (s : State) : (s.redraw).curPtr = s.curPtr := rfl
@[simp] theorem State.redraw_bitOffset (s : State) : (s.redraw).bitOffset = s.bitOffset := rfl
@[simp] theorem State.redraw_coder (s : State) : (s.redraw).coder = s.coder := rfl
@[simp] theorem State.redraw_mem (s : State) : (s.redraw).mem = s.mem := rfl
@[simp] theorem State.redraw_drawn (s : State) : (s.redraw).drawn = s.drawn := rfl
@[simp] theorem State.redraw_draws (s : State) : (s.redraw).draws = s.draws + 1 := rfl
@[simp] theorem State.redraw_port (s : State) : (s.redraw).port = s.port := rfl
@[simp] theorem State.redraw_index (s : State) : (s.redraw).index = s.index := rfl
@[simp] theorem State.redraw_responses (s : State) : (s.redraw).responses = s.responses := rfl
@[simp] theorem State.redraw_params (s : State) : (s.redraw).params = s.params := rfl

/-! ### `State.emit` -/

@[simp] theorem State.emit_status (s : State) (out : Output) : (s.emit out).status = s.status := rfl
@[simp] theorem State.emit_bufStart (s : State) (out : Output) : (s.emit out).bufStart = s.bufStart := rfl
@[simp] theorem State.emit_bufEnd (s : State) (out : Output) : (s.emit out).bufEnd = s.bufEnd := rfl
@[simp] theorem State.emit_startBitOffset (s : State) (out : Output) :
    (s.emit out).startBitOffset = s.startBitOffset := rfl
@[simp] theorem State.emit_curPtr (s : State) (out : Output) :
    (s.emit out).curPtr = BitVec.ofNat 64 ((s.absPos + Output.len out) / 8) := rfl
@[simp] theorem State.emit_bitOffset (s : State) (out : Output) :
    (s.emit out).bitOffset = BitVec.ofNat 3 ((s.absPos + Output.len out) % 8) := rfl
@[simp] theorem State.emit_coder (s : State) (out : Output) : (s.emit out).coder = s.coder := rfl
@[simp] theorem State.emit_mem (s : State) (out : Output) :
    (s.emit out).mem = Memory.writeBits s.mem s.absPos (Output.bits out) := rfl
@[simp] theorem State.emit_drawn (s : State) (out : Output) : (s.emit out).drawn = s.drawn := rfl
@[simp] theorem State.emit_draws (s : State) (out : Output) : (s.emit out).draws = s.draws := rfl
@[simp] theorem State.emit_port (s : State) (out : Output) : (s.emit out).port = s.port := rfl
@[simp] theorem State.emit_index (s : State) (out : Output) : (s.emit out).index = s.index := rfl
@[simp] theorem State.emit_responses (s : State) (out : Output) : (s.emit out).responses = s.responses := rfl
@[simp] theorem State.emit_params (s : State) (out : Output) : (s.emit out).params = s.params := rfl

/-! ### `State.consume` -/

@[simp] theorem State.consume_status (s : State) (rest : List Word) : (s.consume rest).status = s.status := rfl
@[simp] theorem State.consume_bufStart (s : State) (rest : List Word) : (s.consume rest).bufStart = s.bufStart := rfl
@[simp] theorem State.consume_bufEnd (s : State) (rest : List Word) : (s.consume rest).bufEnd = s.bufEnd := rfl
@[simp] theorem State.consume_startBitOffset (s : State) (rest : List Word) :
    (s.consume rest).startBitOffset = s.startBitOffset := rfl
@[simp] theorem State.consume_curPtr (s : State) (rest : List Word) : (s.consume rest).curPtr = s.curPtr := rfl
@[simp] theorem State.consume_bitOffset (s : State) (rest : List Word) : (s.consume rest).bitOffset = s.bitOffset := rfl
@[simp] theorem State.consume_coder (s : State) (rest : List Word) : (s.consume rest).coder = s.coder := rfl
@[simp] theorem State.consume_mem (s : State) (rest : List Word) : (s.consume rest).mem = s.mem := rfl
@[simp] theorem State.consume_drawn (s : State) (rest : List Word) : (s.consume rest).drawn = s.drawn := rfl
@[simp] theorem State.consume_draws (s : State) (rest : List Word) : (s.consume rest).draws = s.draws := rfl
@[simp] theorem State.consume_port (s : State) (rest : List Word) : (s.consume rest).port = rest := rfl
@[simp] theorem State.consume_index (s : State) (rest : List Word) : (s.consume rest).index = s.index + 1 := rfl
@[simp] theorem State.consume_responses (s : State) (rest : List Word) : (s.consume rest).responses = s.responses := rfl
@[simp] theorem State.consume_params (s : State) (rest : List Word) : (s.consume rest).params = s.params := rfl

/-! ### `State.bindWindow` -/

@[simp] theorem State.bindWindow_status (s : State) (sbo : BitVec 3) (start stop : Word) :
    (s.bindWindow sbo start stop).status = statusWord true false 0 := rfl
@[simp] theorem State.bindWindow_bufStart (s : State) (sbo : BitVec 3) (start stop : Word) :
    (s.bindWindow sbo start stop).bufStart = start := rfl
@[simp] theorem State.bindWindow_bufEnd (s : State) (sbo : BitVec 3) (start stop : Word) :
    (s.bindWindow sbo start stop).bufEnd = stop := rfl
@[simp] theorem State.bindWindow_startBitOffset (s : State) (sbo : BitVec 3) (start stop : Word) :
    (s.bindWindow sbo start stop).startBitOffset = sbo := rfl
@[simp] theorem State.bindWindow_curPtr (s : State) (sbo : BitVec 3) (start stop : Word) :
    (s.bindWindow sbo start stop).curPtr = start := rfl
@[simp] theorem State.bindWindow_bitOffset (s : State) (sbo : BitVec 3) (start stop : Word) :
    (s.bindWindow sbo start stop).bitOffset = sbo := rfl
@[simp] theorem State.bindWindow_coder (s : State) (sbo : BitVec 3) (start stop : Word) :
    (s.bindWindow sbo start stop).coder = coderInit := rfl
@[simp] theorem State.bindWindow_mem (s : State) (sbo : BitVec 3) (start stop : Word) :
    (s.bindWindow sbo start stop).mem = s.mem := rfl
@[simp] theorem State.bindWindow_drawn (s : State) (sbo : BitVec 3) (start stop : Word) :
    (s.bindWindow sbo start stop).drawn = regionsMinus s.unspecified (8 * start.toNat + sbo.toNat) (8 * stop.toNat) := rfl
@[simp] theorem State.bindWindow_draws (s : State) (sbo : BitVec 3) (start stop : Word) :
    (s.bindWindow sbo start stop).draws = s.draws + 1 := rfl
@[simp] theorem State.bindWindow_port (s : State) (sbo : BitVec 3) (start stop : Word) :
    (s.bindWindow sbo start stop).port = s.port := rfl
@[simp] theorem State.bindWindow_index (s : State) (sbo : BitVec 3) (start stop : Word) :
    (s.bindWindow sbo start stop).index = s.index := rfl
@[simp] theorem State.bindWindow_responses (s : State) (sbo : BitVec 3) (start stop : Word) :
    (s.bindWindow sbo start stop).responses = s.responses := rfl
@[simp] theorem State.bindWindow_params (s : State) (sbo : BitVec 3) (start stop : Word) :
    (s.bindWindow sbo start stop).params = s.params := rfl

/-! ### `State.hostSend` -/

@[simp] theorem State.hostSend_status (s : State) (ws : List Word) : (s.hostSend ws).status = s.status := rfl
@[simp] theorem State.hostSend_bufStart (s : State) (ws : List Word) : (s.hostSend ws).bufStart = s.bufStart := rfl
@[simp] theorem State.hostSend_bufEnd (s : State) (ws : List Word) : (s.hostSend ws).bufEnd = s.bufEnd := rfl
@[simp] theorem State.hostSend_startBitOffset (s : State) (ws : List Word) :
    (s.hostSend ws).startBitOffset = s.startBitOffset := rfl
@[simp] theorem State.hostSend_curPtr (s : State) (ws : List Word) : (s.hostSend ws).curPtr = s.curPtr := rfl
@[simp] theorem State.hostSend_bitOffset (s : State) (ws : List Word) : (s.hostSend ws).bitOffset = s.bitOffset := rfl
@[simp] theorem State.hostSend_coder (s : State) (ws : List Word) : (s.hostSend ws).coder = s.coder := rfl
@[simp] theorem State.hostSend_mem (s : State) (ws : List Word) : (s.hostSend ws).mem = s.mem := rfl
@[simp] theorem State.hostSend_drawn (s : State) (ws : List Word) : (s.hostSend ws).drawn = s.drawn := rfl
@[simp] theorem State.hostSend_draws (s : State) (ws : List Word) : (s.hostSend ws).draws = s.draws := rfl
@[simp] theorem State.hostSend_port (s : State) (ws : List Word) : (s.hostSend ws).port = s.port ++ ws := rfl
@[simp] theorem State.hostSend_index (s : State) (ws : List Word) : (s.hostSend ws).index = s.index := rfl
@[simp] theorem State.hostSend_responses (s : State) (ws : List Word) : (s.hostSend ws).responses = s.responses := rfl
@[simp] theorem State.hostSend_params (s : State) (ws : List Word) : (s.hostSend ws).params = s.params := rfl

/-! ### `State.hostStore` -/

@[simp] theorem State.hostStore_status (s : State) (a : Nat) (v : Byte) :
    (s.hostStore a v).status = s.status := rfl
@[simp] theorem State.hostStore_bufStart (s : State) (a : Nat) (v : Byte) :
    (s.hostStore a v).bufStart = s.bufStart := rfl
@[simp] theorem State.hostStore_bufEnd (s : State) (a : Nat) (v : Byte) :
    (s.hostStore a v).bufEnd = s.bufEnd := rfl
@[simp] theorem State.hostStore_startBitOffset (s : State) (a : Nat) (v : Byte) :
    (s.hostStore a v).startBitOffset = s.startBitOffset := rfl
@[simp] theorem State.hostStore_curPtr (s : State) (a : Nat) (v : Byte) :
    (s.hostStore a v).curPtr = s.curPtr := rfl
@[simp] theorem State.hostStore_bitOffset (s : State) (a : Nat) (v : Byte) :
    (s.hostStore a v).bitOffset = s.bitOffset := rfl
@[simp] theorem State.hostStore_coder (s : State) (a : Nat) (v : Byte) :
    (s.hostStore a v).coder = s.coder := rfl
@[simp] theorem State.hostStore_mem (s : State) (a : Nat) (v : Byte) :
    (s.hostStore a v).mem = Memory.write s.mem a v := rfl
@[simp] theorem State.hostStore_drawn (s : State) (a : Nat) (v : Byte) :
    (s.hostStore a v).drawn = regionsMinus s.drawn (8 * a) (8 * a + 8) := rfl
@[simp] theorem State.hostStore_draws (s : State) (a : Nat) (v : Byte) :
    (s.hostStore a v).draws = s.draws := rfl
@[simp] theorem State.hostStore_port (s : State) (a : Nat) (v : Byte) :
    (s.hostStore a v).port = s.port := rfl
@[simp] theorem State.hostStore_index (s : State) (a : Nat) (v : Byte) :
    (s.hostStore a v).index = s.index := rfl
@[simp] theorem State.hostStore_responses (s : State) (a : Nat) (v : Byte) :
    (s.hostStore a v).responses = s.responses := rfl
@[simp] theorem State.hostStore_params (s : State) (a : Nat) (v : Byte) :
    (s.hostStore a v).params = s.params := rfl
@[simp] theorem State.hostStore_absPos (s : State) (a : Nat) (v : Byte) :
    (s.hostStore a v).absPos = s.absPos := rfl
@[simp] theorem State.hostStore_configured (s : State) (a : Nat) (v : Byte) :
    (s.hostStore a v).configured = s.configured := rfl
@[simp] theorem State.hostStore_faulted (s : State) (a : Nat) (v : Byte) :
    (s.hostStore a v).faulted = s.faulted := rfl

/-! ### `State.hostSpoil` -/

@[simp] theorem State.hostSpoil_status (s : State) (a : Nat) :
    (s.hostSpoil a).status = s.status := rfl
@[simp] theorem State.hostSpoil_bufStart (s : State) (a : Nat) :
    (s.hostSpoil a).bufStart = s.bufStart := rfl
@[simp] theorem State.hostSpoil_bufEnd (s : State) (a : Nat) :
    (s.hostSpoil a).bufEnd = s.bufEnd := rfl
@[simp] theorem State.hostSpoil_startBitOffset (s : State) (a : Nat) :
    (s.hostSpoil a).startBitOffset = s.startBitOffset := rfl
@[simp] theorem State.hostSpoil_curPtr (s : State) (a : Nat) :
    (s.hostSpoil a).curPtr = s.curPtr := rfl
@[simp] theorem State.hostSpoil_bitOffset (s : State) (a : Nat) :
    (s.hostSpoil a).bitOffset = s.bitOffset := rfl
@[simp] theorem State.hostSpoil_coder (s : State) (a : Nat) :
    (s.hostSpoil a).coder = s.coder := rfl
@[simp] theorem State.hostSpoil_mem (s : State) (a : Nat) :
    (s.hostSpoil a).mem = s.mem := rfl
@[simp] theorem State.hostSpoil_drawn (s : State) (a : Nat) :
    (s.hostSpoil a).drawn =
      if 8 * a < s.absPos then
        { lo := 8 * a, hi := min (8 * a + 8) s.absPos, draw := s.draws + 1 } ::
          regionsMinus s.drawn (8 * a) (min (8 * a + 8) s.absPos)
      else s.drawn := rfl
@[simp] theorem State.hostSpoil_draws (s : State) (a : Nat) :
    (s.hostSpoil a).draws = s.draws + 1 := rfl
@[simp] theorem State.hostSpoil_port (s : State) (a : Nat) :
    (s.hostSpoil a).port = s.port := rfl
@[simp] theorem State.hostSpoil_index (s : State) (a : Nat) :
    (s.hostSpoil a).index = s.index := rfl
@[simp] theorem State.hostSpoil_responses (s : State) (a : Nat) :
    (s.hostSpoil a).responses = s.responses := rfl
@[simp] theorem State.hostSpoil_params (s : State) (a : Nat) :
    (s.hostSpoil a).params = s.params := rfl
@[simp] theorem State.hostSpoil_absPos (s : State) (a : Nat) :
    (s.hostSpoil a).absPos = s.absPos := rfl
@[simp] theorem State.hostSpoil_configured (s : State) (a : Nat) :
    (s.hostSpoil a).configured = s.configured := rfl
@[simp] theorem State.hostSpoil_faulted (s : State) (a : Nat) :
    (s.hostSpoil a).faulted = s.faulted := rfl

/-! ### `State.commit` -/

@[simp] theorem State.commit_status (s : State) (r : Result) :
    (s.commit r).status = s.status := by
  unfold State.commit; cases r.response <;> rfl
@[simp] theorem State.commit_bufStart (s : State) (r : Result) :
    (s.commit r).bufStart = s.bufStart := by
  unfold State.commit; cases r.response <;> rfl
@[simp] theorem State.commit_bufEnd (s : State) (r : Result) :
    (s.commit r).bufEnd = s.bufEnd := by
  unfold State.commit; cases r.response <;> rfl
@[simp] theorem State.commit_startBitOffset (s : State) (r : Result) :
    (s.commit r).startBitOffset = s.startBitOffset := by
  unfold State.commit; cases r.response <;> rfl
@[simp] theorem State.commit_curPtr (s : State) (r : Result) :
    (s.commit r).curPtr = BitVec.ofNat 64 ((s.absPos + Output.len r.out) / 8) := by
  unfold State.commit; cases r.response <;> rfl
@[simp] theorem State.commit_bitOffset (s : State) (r : Result) :
    (s.commit r).bitOffset = BitVec.ofNat 3 ((s.absPos + Output.len r.out) % 8) := by
  unfold State.commit; cases r.response <;> rfl
@[simp] theorem State.commit_coder (s : State) (r : Result) :
    (s.commit r).coder = r.coder := by
  unfold State.commit; cases r.response <;> rfl
@[simp] theorem State.commit_mem (s : State) (r : Result) :
    (s.commit r).mem = Memory.writeBits s.mem s.absPos (Output.bits r.out) := by
  unfold State.commit; cases r.response <;> rfl
@[simp] theorem State.commit_drawn (s : State) (r : Result) :
    (s.commit r).drawn = s.drawn := by
  unfold State.commit; cases r.response <;> rfl
@[simp] theorem State.commit_draws (s : State) (r : Result) :
    (s.commit r).draws = s.draws + 1 := by
  unfold State.commit; cases r.response <;> rfl
@[simp] theorem State.commit_port (s : State) (r : Result) :
    (s.commit r).port = s.port := by
  unfold State.commit; cases r.response <;> rfl
@[simp] theorem State.commit_index (s : State) (r : Result) :
    (s.commit r).index = s.index := by
  unfold State.commit; cases r.response <;> rfl
@[simp] theorem State.commit_responses (s : State) (r : Result) :
    (s.commit r).responses = s.responses ++ r.response.toList := by
  unfold State.commit; cases r.response <;> simp
@[simp] theorem State.commit_params (s : State) (r : Result) :
    (s.commit r).params = s.params := by
  unfold State.commit; cases r.response <;> rfl

/-! ### Derived views that an update leaves alone -/

@[simp] theorem State.commit_configured (s : State) (r : Result) : (s.commit r).configured = s.configured := by
  simp [State.configured]
@[simp] theorem State.commit_faulted (s : State) (r : Result) : (s.commit r).faulted = s.faulted := by
  simp [State.faulted]
@[simp] theorem State.raise_absPos (s : State) (code : FaultCode) : (s.raise code).absPos = s.absPos := rfl
@[simp] theorem State.consume_absPos (s : State) (rest : List Word) : (s.consume rest).absPos = s.absPos := rfl
@[simp] theorem State.consume_configured (s : State) (rest : List Word) :
    (s.consume rest).configured = s.configured := rfl
@[simp] theorem State.consume_faulted (s : State) (rest : List Word) : (s.consume rest).faulted = s.faulted := rfl
@[simp] theorem State.consume_readBit (s : State) (rest : List Word) (P : Nat) :
    (s.consume rest).readBit P = s.readBit P := rfl
@[simp] theorem State.bindWindow_absPos (s : State) (sbo : BitVec 3) (start stop : Word) :
    (s.bindWindow sbo start stop).absPos = 8 * start.toNat + sbo.toNat := rfl

/-- STATUS reads back the fields it was made of. -/
theorem statusWord_configured (c f : Bool) (k : BitVec 4) : (statusWord c f k).getLsbD 0 = c := by
  cases c <;> cases f <;> revert k <;> decide
theorem statusWord_faulted (c f : Bool) (k : BitVec 4) : (statusWord c f k).getLsbD 1 = f := by
  cases c <;> cases f <;> revert k <;> decide
@[simp] theorem statusWord_reserved (c f : Bool) (k : BitVec 4) : (statusWord c f k).extractLsb' 2 2 = 0 := by
  cases c <;> cases f <;> revert k <;> decide
@[simp] theorem statusWord_code (c f : Bool) (k : BitVec 4) : (statusWord c f k).extractLsb' 4 4 = k := by
  cases c <;> cases f <;> revert k <;> decide

@[simp] theorem State.raise_configured (s : State) (code : FaultCode) : (s.raise code).configured = s.configured :=
  statusWord_configured _ _ _
@[simp] theorem State.raise_faulted (s : State) (code : FaultCode) : (s.raise code).faulted = true :=
  statusWord_faulted _ _ _
@[simp] theorem State.raise_faultCode (s : State) (code : FaultCode) :
    (s.raise code).faultCode = if s.faulted then s.faultCode else faultNumber code :=
  statusWord_code _ _ _
@[simp] theorem State.raise_readBit (s : State) (code : FaultCode) (P : Nat) :
    (s.raise code).readBit P = s.readBit P := by
  unfold State.readBit State.unspecified State.tail
  rw [State.raise_configured]
  rfl
@[simp] theorem State.bindWindow_configured (s : State) (sbo : BitVec 3) (start stop : Word) :
    (s.bindWindow sbo start stop).configured = true := statusWord_configured true false 0
@[simp] theorem State.bindWindow_faulted (s : State) (sbo : BitVec 3) (start stop : Word) :
    (s.bindWindow sbo start stop).faulted = false := statusWord_faulted true false 0

end Sys2Proof.Machine
end

