-- ==== Sys2Proof/Laws/Ops.lean ====
section
/-! SUPPORT. One lemma for each shared operation of Machine/Ops.lean that says what it can do, and one for `exec` and `step`. -/
namespace Sys2Proof.Machine

/-! ### Outputs -/

@[simp] theorem Piece.length_bits (p : Piece) : p.bits.length = p.len := by
  cases p <;> simp [Piece.bits, Piece.len]

/-- The length of an output is the length of its bit string (R8). -/
@[simp] theorem Output.length_bits (out : Output) : (Output.bits out).length = Output.len out := by
  induction out with
  | nil => rfl
  | cons p out ih => simp [Output.bits, Output.len, ih]

@[simp] theorem Output.bits_append (a b : Output) : Output.bits (a ++ b) = Output.bits a ++ Output.bits b := by
  induction a with
  | nil => rfl
  | cons p a ih => simp [Output.bits, ih]

@[simp] theorem Output.len_append (a b : Output) : Output.len (a ++ b) = Output.len a + Output.len b := by
  rw [← Output.length_bits, Output.bits_append]; simp

@[simp] theorem Output.bits_nil : Output.bits [] = [] := rfl
@[simp] theorem Output.bits_cons (p : Piece) (out : Output) : Output.bits (p :: out) = p.bits ++ Output.bits out := rfl
@[simp] theorem Output.len_nil : Output.len [] = 0 := rfl
@[simp] theorem Output.len_cons (p : Piece) (out : Output) : Output.len (p :: out) = p.len + Output.len out := rfl
@[simp] theorem Piece.bits_rep (b : Bool) (k : Nat) : (Piece.rep b k).bits = List.replicate k b := rfl
@[simp] theorem Piece.len_rep (b : Bool) (k : Nat) : (Piece.rep b k).len = k := rfl
@[simp] theorem Piece.len_field (n v : Nat) : (Piece.field n v).len = n := rfl

/-- A field piece is `bits_n(v)`. -/
@[simp] theorem Piece.bits_field (n v : Nat) : (Piece.field n v).bits = bitsOf n v := by
  simp only [Piece.bits, bitsOf, Nat.testBit_eq_decide_div_mod_eq]
  congr

@[simp] theorem length_bitsOf (n v : Nat) : (bitsOf n v).length = n := by simp [bitsOf]

/-! ### The cursor and the capacity check -/

/-- The capacity check in absolute positions (R59). -/
theorem State.fits_iff (s : State) (out : Output) : s.fits out = true ↔ s.Room (Output.len out) := by
  unfold State.fits State.pos State.cap State.Room State.absPos
  rw [decide_eq_true_iff]
  omega

/-- After a commit that fits, the cursor is after the emitted bits (R24). -/
theorem State.commit_absPos (s : State) (r : Result) (h : s.Room (Output.len r.out)) :
    (s.commit r).absPos = s.absPos + Output.len r.out := by
  have := s.bufEnd.isLt
  unfold State.Room at h
  unfold State.absPos at h ⊢
  simp only [State.commit_curPtr, State.commit_bitOffset, BitVec.toNat_ofNat, State.absPos]
  omega

/-- What is unspecified after a commit: the rest of the window with a new draw, and what was listed (R57). -/
theorem State.readBit_eq (s : State) (P : Nat) :
    s.readBit P =
      if s.configured = true ∧ s.absPos ≤ P ∧ P < 8 * s.bufEnd.toNat then Config.freeBit s.draws P
      else (drawAt s.drawn P).elim (Memory.bit s.mem P) fun d => Config.freeBit d P := by
  unfold State.readBit State.unspecified State.tail
  by_cases hc : s.configured = true <;> by_cases ht : s.absPos < 8 * s.bufEnd.toNat <;>
    by_cases hp : s.absPos ≤ P <;> by_cases hq : P < 8 * s.bufEnd.toNat <;>
    (simp [hc, ht, hp, hq, drawAt]; try omega)

/-- A bit outside the part of the window not yet emitted: the draw of the region that covers it, or the stored bit. -/
theorem State.readBit_outside {s : State} {P : Nat}
    (h : s.configured = true → P < s.absPos ∨ 8 * s.bufEnd.toNat ≤ P) :
    s.readBit P = (drawAt s.drawn P).elim (Memory.bit s.mem P) fun d => Config.freeBit d P := by
  rw [State.readBit_eq, if_neg]
  rintro ⟨h1, h2, h3⟩
  have := h h1
  omega

/-- THE COMMIT STEP (R52, R53, R57, R58): a commit that fits emits exactly the output's bits. -/
theorem State.commit_emitted {s : State} {r : Result} (hw : Memory.wf s.mem = true) (hd : s.DrawnClear)
    (h : s.Room (Output.len r.out)) : Emitted s (s.commit r) (Output.bits r.out) := by
  have hpos := State.commit_absPos s r h
  unfold State.Room at h
  refine ⟨by rw [hpos, Output.length_bits], ?_, ?_, ?_⟩
  · intro k hk
    rw [Output.length_bits] at hk
    rw [State.readBit_eq, if_neg (by rw [hpos]; omega), State.commit_drawn, drawAt_eq_none, State.commit_mem]
    · exact Memory.bit_writeBits _ _ _ hw _
    · intro q hq
      have := hd q hq
      omega
  · intro P hP
    rw [State.readBit_eq, State.readBit_eq, hpos, State.commit_bufEnd, State.commit_drawn, State.commit_mem,
      if_neg (by omega), if_neg (by omega),
      Memory.bit_writeBits_of_outside _ _ _ hw (by rw [Output.length_bits]; omega)]
  · intro a ha
    rw [State.commit_mem]
    exact Memory.read_writeBits _ _ _ hw ha

/-- A commit that fits leaves no listed region in the rest of the window. -/
theorem State.commit_drawnClear {s : State} {r : Result} (hd : s.DrawnClear) (h : s.Room (Output.len r.out)) :
    (s.commit r).DrawnClear := by
  intro q hq
  have := hd q (by simpa using hq)
  rw [State.commit_absPos s r h, State.commit_bufEnd]
  omega

/-- A commit changes the cursor, memory, the coder registers and the response channel only. -/
theorem State.commit_sameFrame (s : State) (r : Result) : SameFrame s (s.commit r) := by
  simp [SameFrame]

/-! ### Faults -/

/-- TAKING A FAULT while not FAULTED (R211). -/
theorem State.raise_eq_withFault {s : State} (h : s.faulted = false) (code : FaultCode) :
    s.raise code = s.withFault (faultNumber code) := by
  simp only [State.raise, State.withFault, State.statusAfterFault, statusWord, h, Bool.false_eq_true, if_false]
  congr 1
  cases s.configured <;> cases code <;> decide

/-- A fault leaves a legal STATUS. -/
theorem State.raise_statusLegal {s : State} (h : s.StatusLegal) (code : FaultCode) : (s.raise code).StatusLegal := by
  obtain ⟨-, h2, h3⟩ := h
  refine ⟨statusWord_reserved _ _ _, ?_, ?_⟩
  · rw [State.raise_faultCode]
    split
    · exact h2
    · cases code <;> decide
  · rw [State.raise_faultCode, State.raise_faulted]
    cases hf : s.faulted
    · simp only [Bool.false_eq_true, if_false]
      cases code <;> decide
    · simp only [hf, if_true] at h3 ⊢
      exact h3

/-! ### `execute` -/

/-- Discarded while FAULTED (R215). -/
theorem State.execute_faulted {s : State} (h : s.faulted = true) (c : Computed) : s.execute c = .next s := by
  simp [State.execute, h]

/-- NOT_CONFIGURED before a good RESET (R213). -/
theorem State.execute_unconfigured {s : State} (hf : s.faulted = false) (hc : s.configured = false) (c : Computed) :
    s.execute c = .next (s.raise .notConfigured) := by
  simp [State.execute, hf, hc]

/-- A fault of the compute step (R80, R214). -/
theorem State.execute_raise {s : State} (h : s.Ready) (code : FaultCode) :
    s.execute (.raise code) = .next (s.raise code) := by
  simp [State.execute, h.1, h.2]

/-- An output that fits is committed (R59, R80). -/
theorem State.execute_done {s : State} (h : s.Ready) {r : Result} (hr : s.Room (Output.len r.out)) :
    s.execute (.done r) = .next (s.commit r) := by
  simp [State.execute, h.1, h.2, (State.fits_iff s r.out).2 hr]

/-- An output that does not fit is BUFFER_EXHAUSTED (R59). -/
theorem State.execute_exhausted {s : State} (h : s.Ready) {r : Result} (hr : ¬ s.Room (Output.len r.out)) :
    s.execute (.done r) = .next (s.raise .bufferExhausted) := by
  have : s.fits r.out = false := by
    rw [← Bool.not_eq_true, State.fits_iff]; exact hr
  simp [State.execute, h.1, h.2, this]

/-- ALL THAT `execute` CAN DO when it answers a next state. -/
theorem State.execute_cases {s t : State} {c : Computed} (h : s.execute c = .next t) :
    (s.faulted = true ∧ t = s) ∨ (s.faulted = false ∧ ∃ code, t = s.raise code) ∨
      (s.Ready ∧ ∃ r, c = .done r ∧ s.Room (Output.len r.out) ∧ t = s.commit r) := by
  unfold State.execute at h
  split at h
  · rename_i hf
    exact .inl ⟨hf, by cases h; rfl⟩
  · rename_i hf
    have hf' : s.faulted = false := by simpa using hf
    refine .inr ?_
    split at h
    · rename_i hc
      cases c with
      | raise code => exact .inl ⟨hf', code, by cases h; rfl⟩
      | endless => cases h
      | done r =>
        simp only at h
        split at h
        · rename_i hr
          exact .inr ⟨⟨hc, hf'⟩, r, rfl, (State.fits_iff s r.out).1 hr, by cases h; rfl⟩
        · exact .inl ⟨hf', _, by cases h; rfl⟩
    · exact .inl ⟨hf', _, by cases h; rfl⟩

/-- Every command but RESET and READ_REG is `execute` of its compute step (R80). -/
theorem exec_of_computed {i : Instr} {s : State} {c : Computed} (h : computedOf s i = some c) : exec i s = s.execute c := by
  cases i <;> simp only [computedOf, Option.some.injEq, reduceCtorEq] at h <;> subst h <;> rfl

theorem computedOf_isSome {i : Instr} (s : State) (h : i.isControl = false) : ∃ c, computedOf s i = some c := by
  cases i <;> simp [Instr.isControl, computedOf] at h ⊢

/-- The operand check of RESET is the one of rule R191. -/
theorem resetOperandsPass_iff (p : Params) (sbo : BitVec 3) (start stop : Word) :
    resetOperandsPass p.addrW sbo start stop = true ↔ resetWellFormed p sbo start stop := by
  simp only [resetOperandsPass, resetWellFormed, Bool.and_eq_true, decide_eq_true_eq, Bool.or_eq_true, bne_iff_ne,
    beq_iff_eq]
  constructor
  · rintro ⟨⟨⟨⟨h1, h2⟩, h3⟩, h4⟩, h5⟩
    exact ⟨⟨h1, h2⟩, h3, fun h => h4.resolve_left fun g => g h, h5⟩
  · rintro ⟨⟨h1, h2⟩, h3, h4, h5⟩
    exact ⟨⟨⟨⟨h1, h2⟩, h3⟩, by by_cases h : start = stop; exacts [.inr (h4 h), .inl h]⟩, h5⟩

theorem exec_reset_good {s : State} {sbo : BitVec 3} {start stop : Word} (h : resetWellFormed s.params sbo start stop) :
    exec (.reset sbo start stop) s = .next (s.bindWindow sbo start stop) := by
  simp [exec, execReset, (resetOperandsPass_iff s.params sbo start stop).2 h]

theorem exec_reset_bad {s : State} {sbo : BitVec 3} {start stop : Word} (h : ¬ resetWellFormed s.params sbo start stop) :
    exec (.reset sbo start stop) s = .next (s.raise .operandRange) := by
  have : resetOperandsPass s.params.addrW sbo start stop = false := by
    rw [← Bool.not_eq_true, resetOperandsPass_iff]; exact h
  simp [exec, execReset, this]

/-- READ_REG: a response, or a fault. -/
theorem exec_readReg_cases (reg : BitVec 8) (s : State) :
    (∃ v, exec (.readReg reg) s = .next (s.respond v).redraw ∧ s.register reg.toNat = some v ∧
      (reg = 0 ∨ s.configured = true)) ∨
      (∃ code, exec (.readReg reg) s = .next (s.raise code)) := by
  simp only [exec, execReadReg]
  split
  · exact .inr ⟨_, rfl⟩
  · rename_i v hv
    split
    · exact .inr ⟨_, rfl⟩
    · rename_i h
      refine .inl ⟨v, rfl, hv, ?_⟩
      by_cases hr : reg = 0
      · exact .inl hr
      · right
        cases hc : s.configured
        · exact absurd ⟨hr, hc⟩ h
        · rfl

/-- ALL THAT AN INSTRUCTION CAN DO when it answers a next state: discarded, a fault, a commit, a good RESET, a register
read. -/
theorem exec_cases {i : Instr} {s t : State} (h : exec i s = .next t) :
    (s.faulted = true ∧ i.isControl = false ∧ t = s) ∨
      ((s.faulted = false ∨ i.isControl = true) ∧ ∃ code, t = s.raise code) ∨
      (s.Ready ∧ i.isControl = false ∧ ∃ r, computedOf s i = some (.done r) ∧ s.Room (Output.len r.out) ∧ t = s.commit r) ∨
      (∃ sbo start stop, i = .reset sbo start stop ∧ resetWellFormed s.params sbo start stop ∧
        t = s.bindWindow sbo start stop) ∨
      (∃ reg v, i = .readReg reg ∧ s.register reg.toNat = some v ∧ (reg = 0 ∨ s.configured = true) ∧
        t = (s.respond v).redraw) := by
  cases hi : i.isControl
  · obtain ⟨c, hc⟩ := computedOf_isSome s hi
    rw [exec_of_computed hc] at h
    rcases State.execute_cases h with ⟨hf, rfl⟩ | ⟨hf, code, rfl⟩ | ⟨hr, r, rfl, hroom, rfl⟩
    · exact .inl ⟨hf, rfl, rfl⟩
    · exact .inr (.inl ⟨.inl hf, code, rfl⟩)
    · exact .inr (.inr (.inl ⟨hr, rfl, r, hc, hroom, rfl⟩))
  · cases i <;> simp [Instr.isControl] at hi
    · rename_i sbo start stop
      by_cases hw : resetWellFormed s.params sbo start stop
      · rw [exec_reset_good hw] at h
        cases h
        exact .inr (.inr (.inr (.inl ⟨_, _, _, rfl, hw, rfl⟩)))
      · rw [exec_reset_bad hw] at h
        cases h
        exact .inr (.inl ⟨.inr rfl, _, rfl⟩)
    · rename_i reg
      rcases exec_readReg_cases reg s with ⟨v, he, hv, hc⟩ | ⟨code, he⟩
      · rw [he] at h
        cases h
        exact .inr (.inr (.inr (.inr ⟨reg, v, rfl, hv, hc, rfl⟩)))
      · rw [he] at h
        cases h
        exact .inr (.inl ⟨.inr rfl, code, rfl⟩)

/-- ALL THAT A STEP CAN DO: hold, an illegal word, or a command. -/
theorem step_cases (s : State) :
    (decode s.port = .hold ∧ step s = .next s) ∨
      (∃ rest, decode s.port = .illegal rest ∧ step s = .next (s.consume rest).illegalWord) ∨
      (∃ i rest, decode s.port = .command i rest ∧ step s = exec i (s.consume rest)) := by
  unfold step State.fetch
  cases h : decode s.port with
  | hold => exact .inl ⟨rfl, rfl⟩
  | illegal rest => exact .inr (.inl ⟨rest, rfl, rfl⟩)
  | command i rest => exact .inr (.inr ⟨i, rest, rfl, rfl⟩)

/-! ### The host -/

/-- ALL THAT A HOST WRITE CAN DO: a byte of the window becomes any value, another byte is stored. -/
theorem State.hostWrite_cases {s t : State} {a : Nat} {v : Byte} (h : s.hostWrite a v = some t) :
    a < 2 ^ s.params.addrW ∧ ((s.inWindow a = true ∧ t = s.hostSpoil a) ∨ (s.inWindow a = false ∧ t = s.hostStore a v)) := by
  unfold State.hostWrite at h
  split at h
  · rename_i ha
    refine ⟨by simpa [State.addressExists] using ha, ?_⟩
    cases hw : s.inWindow a <;> simp [hw] at h <;> simp [h]
  · cases h

end Sys2Proof.Machine
end

