-- ==== Sys2Proof/Laws/Coder.lean ====
section
/-! SUPPORT. The arithmetic coder: what `PutBitC`, a pass of `RenormE` and the whole loop do to the interval, to the code value and to
the count of bits, and when the loop overflows. -/
namespace Sys2Proof.Machine

/-! ### Numbers of bit strings -/

theorem natOfBits_foldl (bs : List Bool) (n : Nat) :
    bs.foldl (fun n b => 2 * n + b.toNat) n = n * 2 ^ bs.length + natOfBits bs := by
  induction bs generalizing n with
  | nil => simp [natOfBits]
  | cons b bs ih =>
    simp only [List.foldl_cons, List.length_cons, natOfBits]
    rw [ih, ih (2 * 0 + b.toNat), pow_succ]
    ring

/-- The number of a concatenation. -/
theorem natOfBits_append (a b : List Bool) : natOfBits (a ++ b) = natOfBits a * 2 ^ b.length + natOfBits b := by
  rw [natOfBits, List.foldl_append, natOfBits_foldl]
  rfl

@[simp] theorem natOfBits_nil : natOfBits [] = 0 := rfl
@[simp] theorem natOfBits_singleton (b : Bool) : natOfBits [b] = b.toNat := by simp [natOfBits]

/-- The number of a bit string by its first bit. -/
theorem natOfBits_cons (b : Bool) (bs : List Bool) : natOfBits (b :: bs) = b.toNat * 2 ^ bs.length + natOfBits bs := by
  rw [← List.singleton_append, natOfBits_append, natOfBits_singleton]

@[simp] theorem natOfBits_zeros (k : Nat) : natOfBits (List.replicate k false) = 0 := by
  induction k with
  | zero => rfl
  | succ k ih => rw [List.replicate_succ', natOfBits_append, ih]; simp

@[simp] theorem natOfBits_ones (k : Nat) : natOfBits (List.replicate k true) = 2 ^ k - 1 := by
  induction k with
  | zero => rfl
  | succ k ih =>
    have : 0 < 2 ^ k := by positivity
    rw [List.replicate_succ', natOfBits_append, ih]
    simp only [List.length_singleton, natOfBits_singleton, Bool.toNat_true, pow_succ]
    omega

theorem natOfBits_lt (bs : List Bool) : natOfBits bs < 2 ^ bs.length := by
  induction bs using List.reverseRecOn with
  | nil => simp
  | append_singleton bs b ih =>
    rw [natOfBits_append]
    simp only [List.length_singleton, natOfBits_singleton, List.length_append, pow_succ]
    cases b <;> simp only [Bool.toNat_true, Bool.toNat_false] <;> omega

/-! ### The local copies of a compute step -/

/-- `codeValue` of the local copies, the codeword's earlier bits being `pre`. -/
def Coder.value (pre : List Bool) (c : Coder) : Int :=
  (natOfBits (pre ++ Output.bits c.out) : Int) * 2 ^ (c.outstanding + 10) + (2 ^ c.outstanding - 1) * 512 + c.low

/-- The bits the coder has taken in: emitted, outstanding, and the suppressed first one. -/
def Coder.count (c : Coder) : Nat := Output.len c.out + c.outstanding + if c.firstBit then 0 else 1

/-- The interval is inside what RenormE keeps (R147, R175, R148). -/
abbrev Coder.Inside (c : Coder) : Prop :=
  0 ≤ c.low ∧ 0 < c.range ∧ c.range ≤ 510 ∧ c.low + c.range ≤ 1024 ∧
    (c.firstBit = true → c.low + c.range ≤ 512) ∧ c.outstanding < 2 ^ 32

/-- While the first bit is still to come, the codeword's earlier bits stand for 0. -/
abbrev Coder.Fresh (pre : List Bool) (c : Coder) : Prop :=
  c.firstBit = true → natOfBits (pre ++ Output.bits c.out) = 0

@[simp] theorem CoderRegs.load_low (r : CoderRegs) : r.load.low = r.low.toNat := rfl
@[simp] theorem CoderRegs.load_range (r : CoderRegs) : r.load.range = r.range.toNat := rfl
@[simp] theorem CoderRegs.load_outstanding (r : CoderRegs) : r.load.outstanding = r.outstanding.toNat := rfl
@[simp] theorem CoderRegs.load_firstBit (r : CoderRegs) : r.load.firstBit = r.firstBit := rfl
@[simp] theorem CoderRegs.load_out (r : CoderRegs) : r.load.out = [] := rfl
@[simp] theorem Coder.double_low (c : Coder) : c.double.low = 2 * c.low := rfl
@[simp] theorem Coder.double_range (c : Coder) : c.double.range = 2 * c.range := rfl
@[simp] theorem Coder.double_outstanding (c : Coder) : c.double.outstanding = c.outstanding := rfl
@[simp] theorem Coder.double_firstBit (c : Coder) : c.double.firstBit = c.firstBit := rfl
@[simp] theorem Coder.double_out (c : Coder) : c.double.out = c.out := rfl
@[simp] theorem Coder.putBitC_low (c : Coder) (b : Bool) : (c.putBitC b).low = c.low := rfl
@[simp] theorem Coder.putBitC_range (c : Coder) (b : Bool) : (c.putBitC b).range = c.range := rfl
@[simp] theorem Coder.putBitC_outstanding (c : Coder) (b : Bool) : (c.putBitC b).outstanding = 0 := rfl
@[simp] theorem Coder.putBitC_firstBit (c : Coder) (b : Bool) : (c.putBitC b).firstBit = false := rfl
@[simp] theorem Coder.putBitC_out (c : Coder) (b : Bool) :
    (c.putBitC b).out = c.out ++ ((if c.firstBit then [] else [.rep b 1]) ++ [.rep (!b) c.outstanding]) := rfl

/-- The code value of the registers is that of the local copies loaded from them. -/
theorem codeValue_eq (pre : List Bool) (r : CoderRegs) : codeValue pre r = r.load.value pre := by
  simp [codeValue, Coder.value]

/-- `PutBitC` (R145) counts one bit. -/
theorem Coder.putBitC_count (c : Coder) (b : Bool) : (c.putBitC b).count = c.count + 1 := by
  unfold Coder.count
  cases h : c.firstBit
  · simp [h]
    omega
  · simp [h]

/-- `PutBitC(b)` (R145) as a number: the bits out so far, the pending bits and `b` at the weight 1024 of a doubled `low`.  A suppressed
first bit must be 0. -/
theorem Coder.putBitC_number (pre : List Bool) (c : Coder) (b : Bool) (hf : c.Fresh pre) (hb : c.firstBit = true → b = false) :
    (natOfBits (pre ++ Output.bits (c.putBitC b).out) : Int) * 1024 =
      2 * ((natOfBits (pre ++ Output.bits c.out) : Int) * 2 ^ (c.outstanding + 10) + (2 ^ c.outstanding - 1) * 512)
        + if b then 1024 else 0 := by
  have hone : ((2 ^ c.outstanding - 1 : Nat) : Int) = 2 ^ c.outstanding - 1 := by
    have : 1 ≤ 2 ^ c.outstanding := Nat.one_le_two_pow
    push_cast [this]
    ring
  rw [Coder.putBitC_out, Output.bits_append, ← List.append_assoc, natOfBits_append]
  cases hfb : c.firstBit
  · cases b <;>
      simp only [Bool.false_eq_true, if_false, if_true, List.singleton_append, Output.bits_cons, Output.bits_nil,
        Piece.bits_rep, List.append_nil, natOfBits_append, natOfBits_cons, List.length_cons, List.length_replicate,
        natOfBits_zeros, natOfBits_ones, Bool.not_false, Bool.not_true, hone, Nat.cast_add, Nat.cast_mul, Nat.cast_pow,
        Nat.cast_ofNat, pow_add, Nat.cast_zero, List.replicate_one, Bool.toNat_true, Bool.toNat_false, Nat.cast_one,
        pow_one] <;> ring
  · rw [hb hfb, hf hfb]
    simp only [if_true, List.nil_append, Output.bits_cons, Output.bits_nil, Piece.bits_rep, List.append_nil,
      Bool.not_false, natOfBits_ones, Nat.cast_add, hone, Bool.false_eq_true, if_false]
    push_cast
    ring

/-- ONE PASS of `RenormE` (R146) doubles the interval and the code value. -/
theorem Coder.renormPass_spec {c d : Coder} (h : c.renormPass = some d) (hi : c.Inside) (hr : c.range < 256) :
    d.Inside ∧ d.range = 2 * c.range ∧ d.count = c.count + 1 ∧
      ∀ pre, c.Fresh pre → d.Fresh pre ∧ d.value pre = 2 * c.value pre := by
  obtain ⟨h0, h1, h2, h3, h4, h5⟩ := hi
  unfold Coder.renormPass at h
  split at h
  · rename_i hl
    cases h
    refine ⟨⟨?_, ?_, ?_, ?_, ?_, ?_⟩, rfl, Coder.putBitC_count c false, fun pre hf => ⟨by simp [Coder.Fresh], ?_⟩⟩
    case refine_7 =>
      have := Coder.putBitC_number pre c false hf (fun _ => rfl)
      simp only [Coder.value, Coder.double_out, Coder.double_outstanding, Coder.double_low, Coder.putBitC_outstanding,
        Coder.putBitC_low, pow_zero, zero_add, sub_self, zero_mul, Bool.false_eq_true, if_false] at this ⊢
      linarith
    all_goals
      simp only [Coder.double_low, Coder.double_range, Coder.putBitC_low, Coder.putBitC_range, Coder.double_firstBit,
        Coder.putBitC_firstBit, Coder.double_outstanding, Coder.putBitC_outstanding, Bool.false_eq_true, false_implies]
      try omega
  · split at h
    · rename_i hl hl2
      cases h
      have hfb : c.firstBit = false := by
        cases hfb : c.firstBit
        · rfl
        · have := h4 hfb; omega
      refine ⟨⟨?_, ?_, ?_, ?_, ?_, ?_⟩, rfl, ?_, fun pre hf => ⟨by simp [Coder.Fresh], ?_⟩⟩
      case refine_7 => exact Coder.putBitC_count ({ c with low := c.low - 512 } : Coder) true
      case refine_8 =>
        have := Coder.putBitC_number pre ({ c with low := c.low - 512 } : Coder) true hf (by simp [hfb])
        simp only [Coder.value, Coder.double_out, Coder.double_outstanding, Coder.double_low, Coder.putBitC_outstanding,
          Coder.putBitC_low, pow_zero, zero_add, sub_self, zero_mul, if_true] at this ⊢
        linarith
      all_goals
        simp only [Coder.double_low, Coder.double_range, Coder.putBitC_low, Coder.putBitC_range, Coder.double_firstBit,
          Coder.putBitC_firstBit, Coder.double_outstanding, Coder.putBitC_outstanding, Bool.false_eq_true, false_implies]
        try omega
    · rename_i hl hl2
      unfold Coder.defer at h
      split at h
      · simp at h
      · rename_i ho
        cases h
        refine ⟨⟨?_, ?_, ?_, ?_, ?_, ?_⟩, rfl, ?_, fun pre hf => ⟨hf, ?_⟩⟩
        case refine_7 =>
          show Output.len c.out + (c.outstanding + 1) + (if c.firstBit then 0 else 1) =
            Output.len c.out + c.outstanding + (if c.firstBit then 0 else 1) + 1
          omega
        case refine_8 =>
          simp only [Coder.value, Coder.double_out, Coder.double_outstanding, Coder.double_low, pow_add]
          ring
        case refine_5 =>
          intro hfb
          have := h4 hfb
          simp only [Coder.double_low, Coder.double_range]
          omega
        all_goals
          simp only [Coder.double_low, Coder.double_range, Coder.double_outstanding]
          omega

/-- `RenormE` (R146, R147): when the loop ends, the interval and the code value have been doubled `k` times, `k` being the least
number that brings the range to 256, and `k` bits have been taken in. -/
theorem renormLoop_spec : ∀ {fuel : Nat} {c d : Coder}, renormLoop fuel c = .ok d → c.Inside →
    ∃ k, d.Inside ∧ 256 ≤ d.range ∧ d.range = 2 ^ k * c.range ∧ d.count = c.count + k ∧
      (k ≠ 0 → 2 ^ (k - 1) * c.range < 256) ∧
      ∀ pre, c.Fresh pre → d.Fresh pre ∧ d.value pre = 2 ^ k * c.value pre
  | 0, c, d, h, hi => by
    unfold renormLoop at h
    split at h
    · cases h
    · cases h
      exact ⟨0, hi, by omega, by simp, by simp, by simp, fun pre hf => ⟨hf, by simp⟩⟩
  | fuel + 1, c, d, h, hi => by
    unfold renormLoop at h
    split at h
    · rename_i hr
      split at h
      · rename_i e he
        obtain ⟨ei, er, ec, ev⟩ := Coder.renormPass_spec he hi hr
        obtain ⟨k, di, dr, dr2, dc, dk, dv⟩ := renormLoop_spec h ei
        refine ⟨k + 1, di, dr, by rw [dr2, er]; ring, by omega, fun _ => ?_, fun pre hf => ?_⟩
        · cases k with
          | zero => simpa using hr
          | succ k =>
            have := dk (by omega)
            rw [er] at this
            simp only [Nat.add_sub_cancel] at this ⊢
            rw [pow_succ]
            linarith
        · obtain ⟨ef, ev'⟩ := ev pre hf
          obtain ⟨df, dv'⟩ := dv pre ef
          exact ⟨df, by rw [dv', ev']; ring⟩
      · cases h
    · cases h
      exact ⟨0, hi, by omega, by simp, by simp, by simp, fun pre hf => ⟨hf, by simp⟩⟩

/-- A range of at least 1 never runs `RenormE` out of passes (log entry 8). -/
theorem renormLoop_not_endless : ∀ {fuel : Nat} {c : Coder}, 256 ≤ 2 ^ fuel * c.range → renormLoop fuel c ≠ .endless
  | 0, c, h => by
    unfold renormLoop
    rw [if_neg (by simpa using h)]
    simp
  | fuel + 1, c, h => by
    unfold renormLoop
    split
    · split
      · rename_i e he
        refine renormLoop_not_endless ?_
        have : e.range = 2 * c.range := by
          unfold Coder.renormPass at he
          split at he
          · cases he; rfl
          · split at he
            · cases he; rfl
            · unfold Coder.defer at he
              split at he
              · simp at he
              · cases he; rfl
        rw [this]
        rw [pow_succ] at h
        linarith
      · simp
    · simp

theorem leadingDeferrals_le : ∀ (fuel : Nat) (low range : Int), leadingDeferrals fuel low range ≤ fuel
  | 0, _, _ => Nat.le_refl 0
  | fuel + 1, low, range => by
    unfold leadingDeferrals
    split
    · have := leadingDeferrals_le fuel (2 * (low - 256)) (2 * range)
      omega
    · omega

/-- COUNTER OVERFLOW (R148): the loop overflows exactly when the outstanding bits and the passes that defer before the first bit
is put would exceed `2^32 - 1`. -/
theorem renormLoop_overflow_iff : ∀ {fuel : Nat} {c : Coder}, fuel ≤ 16 → c.outstanding < 2 ^ 32 →
    (renormLoop fuel c = .overflow ↔ 2 ^ 32 ≤ c.outstanding + leadingDeferrals fuel c.low c.range)
  | 0, c, _, ho => by
    unfold renormLoop leadingDeferrals
    constructor
    · intro h
      split at h <;> cases h
    · omega
  | fuel + 1, c, hfu, ho => by
    have hlow : ∀ e : Coder, e.outstanding = 0 → renormLoop fuel e ≠ .overflow := by
      intro e he h
      rw [renormLoop_overflow_iff (by omega) (by omega)] at h
      have := leadingDeferrals_le fuel e.low e.range
      omega
    unfold renormLoop leadingDeferrals
    by_cases hr : c.range < 256
    · rw [if_pos hr]
      unfold Coder.renormPass
      by_cases h1 : c.low < 256
      · rw [if_pos h1, if_neg (by omega)]
        constructor
        · intro h; exact absurd h (hlow _ rfl)
        · omega
      · rw [if_neg h1]
        by_cases h2 : 512 ≤ c.low
        · rw [if_pos h2, if_neg (by omega)]
          constructor
          · intro h; exact absurd h (hlow _ rfl)
          · omega
        · rw [if_neg h2, if_pos ⟨hr, by omega, by omega⟩]
          unfold Coder.defer
          by_cases h3 : 2 ^ 32 - 1 < c.outstanding + 1
          · rw [if_pos h3]
            simp only [Option.map_none]
            exact ⟨fun _ => by omega, fun _ => trivial⟩
          · rw [if_neg h3]
            simp only [Option.map_some]
            rw [renormLoop_overflow_iff (by omega)]
            · simp only [Coder.double_outstanding, Coder.double_low, Coder.double_range]
              omega
            · simp only [Coder.double_outstanding]
              omega
    · rw [if_neg hr, if_neg (by omega)]
      constructor
      · intro h; cases h
      · omega

/-- The commit step loses nothing of local copies that are inside: CODE_LOW. -/
theorem Coder.store_low {c : Coder} (hi : c.Inside) : ((c.store.low.toNat : Nat) : Int) = c.low := by
  obtain ⟨h0, h1, h2, h3, h4, h5⟩ := hi
  simp only [Coder.store, BitVec.toNat_ofInt]
  omega

/-- The commit step loses nothing of local copies that are inside: CODE_RANGE. -/
theorem Coder.store_range {c : Coder} (hi : c.Inside) : ((c.store.range.toNat : Nat) : Int) = c.range := by
  obtain ⟨h0, h1, h2, h3, h4, h5⟩ := hi
  simp only [Coder.store, BitVec.toNat_ofInt]
  omega

/-- The commit step loses nothing of local copies that are inside: BITS_OUTSTANDING. -/
theorem Coder.store_outstanding {c : Coder} (hi : c.Inside) : c.store.outstanding.toNat = c.outstanding := by
  obtain ⟨h0, h1, h2, h3, h4, h5⟩ := hi
  simp only [Coder.store, BitVec.toNat_ofNat]
  omega

@[simp] theorem Coder.store_firstBit (c : Coder) : c.store.firstBit = c.firstBit := rfl

/-- The code value of the stored registers after the command's output is that of the local copies. -/
theorem Coder.codeValue_store {c : Coder} (hi : c.Inside) (pre : List Bool) :
    codeValue (pre ++ Output.bits c.out) c.store = c.value pre := by
  simp only [codeValue, Coder.value, Coder.store_low hi, Coder.store_outstanding hi]

/-- Registers stored from local copies with a renormalised interval are legal. -/
theorem Coder.store_legal {c : Coder} (hi : c.Inside) (hr : 256 ≤ c.range) : c.store.Legal := by
  have hl := Coder.store_low hi
  have hg := Coder.store_range hi
  obtain ⟨h0, h1, h2, h3, h4, h5⟩ := hi
  refine ⟨by omega, by omega, by omega, fun hf => ?_⟩
  have := h4 hf
  omega

/-- The local copies loaded from legal registers are inside. -/
theorem CoderRegs.load_inside {r : CoderRegs} (h : r.Legal) : r.load.Inside := by
  obtain ⟨h1, h2, h3, h4⟩ := h
  have := r.outstanding.isLt
  refine ⟨?_, ?_, ?_, ?_, fun hf => ?_, ?_⟩ <;> simp only [CoderRegs.load_low, CoderRegs.load_range,
    CoderRegs.load_outstanding] <;> try omega
  have := h4 hf
  omega

/-! ### Choosing an interval -/

theorem rangeTabLps_bounds : ∀ (s : BitVec 6) (q : BitVec 2), 2 ≤ rangeTabLps s q ∧ rangeTabLps s q + 128 ≤ 256 + 64 * q.toNat := by
  intro s q
  have h : ∀ (i : Fin 64) (j : Fin 4), 2 ≤ rangeTabLps (BitVec.ofFin i) (BitVec.ofFin j) ∧
      rangeTabLps (BitVec.ofFin i) (BitVec.ofFin j) + 128 ≤ 256 + 64 * (j : Nat) := by decide +kernel
  exact h s.toFin q.toFin

/-- The reduced range is at least 128 for every context (R150). -/
theorem lps_le_range {r : BitVec 9} (h1 : 256 ≤ r.toNat) (s : BitVec 6) :
    2 ≤ rangeTabLps s (quantIndex r) ∧ rangeTabLps s (quantIndex r) + 128 ≤ r.toNat := by
  obtain ⟨a, b⟩ := rangeTabLps_bounds s (quantIndex r)
  refine ⟨a, ?_⟩
  have hq : (quantIndex r).toNat = r.toNat / 64 % 4 := by
    simp [quantIndex, BitVec.extractLsb'_toNat, Nat.shiftRight_eq_div_pow]
  have := r.isLt
  omega

/-- ENCODE_BIN's interval before RenormE (R150): inside, with the width and the start the statements name. -/
theorem chooseInterval_spec {r : CoderRegs} (h : r.Legal) (ctx : BitVec 7) (bin : Bool) :
    (chooseInterval r ctx bin).Inside ∧ (chooseInterval r ctx bin).range = subWidth r ctx bin ∧
      (chooseInterval r ctx bin).low = r.low.toNat + subStart r ctx bin ∧
      (chooseInterval r ctx bin).outstanding = r.outstanding.toNat ∧ (chooseInterval r ctx bin).firstBit = r.firstBit ∧
      (chooseInterval r ctx bin).out = [] := by
  obtain ⟨i0, i1, i2, i3, i4, i5⟩ := CoderRegs.load_inside h
  obtain ⟨h1, h2, h3, h4⟩ := h
  obtain ⟨l1, l2⟩ := lps_le_range h1 (ctxState ctx)
  unfold chooseInterval subWidth subStart lpsWidth ctxMps
  simp only [show ctx.extractLsb' 0 6 = ctxState ctx from rfl, show r.range.extractLsb' 6 2 = quantIndex r.range from rfl]
  simp only [CoderRegs.load_low, CoderRegs.load_range, CoderRegs.load_outstanding, CoderRegs.load_firstBit] at *
  by_cases hb : bin = ctx.getLsbD 6
  · rw [if_pos hb, if_pos hb, if_pos hb]
    refine ⟨⟨?_, ?_, ?_, ?_, fun hf => ?_, ?_⟩, ?_, ?_, rfl, rfl, rfl⟩ <;>
      (try dsimp only [CoderRegs.load]) <;> try omega
    have := h4 hf
    omega
  · rw [if_neg hb, if_neg hb, if_neg hb]
    refine ⟨⟨?_, ?_, ?_, ?_, fun hf => ?_, ?_⟩, ?_, ?_, rfl, rfl, rfl⟩ <;>
      (try dsimp only [CoderRegs.load]) <;> try omega
    have := h4 hf
    omega

/-- SLICE_FINISH's interval before RenormE (R170): the last two units of the interval. -/
theorem chooseTerminate_spec {r : CoderRegs} (h : r.Legal) :
    (chooseTerminate r).Inside ∧ (chooseTerminate r).range = 2 ∧
      (chooseTerminate r).low = r.low.toNat + r.range.toNat - 2 ∧
      (chooseTerminate r).outstanding = r.outstanding.toNat ∧ (chooseTerminate r).firstBit = r.firstBit ∧
      (chooseTerminate r).out = [] := by
  obtain ⟨i0, i1, i2, i3, i4, i5⟩ := CoderRegs.load_inside h
  obtain ⟨h1, h2, h3, h4⟩ := h
  refine ⟨⟨?_, ?_, ?_, ?_, fun hf => ?_, ?_⟩, rfl, ?_, rfl, rfl, rfl⟩ <;>
    simp only [chooseTerminate, CoderRegs.load_low, CoderRegs.load_range, CoderRegs.load_outstanding,
      CoderRegs.load_firstBit] at * <;> try omega
  have := h4 hf
  omega

@[simp] theorem bypassDouble_range (c : Coder) (bin : Bool) : (bypassDouble c bin).range = c.range := rfl
@[simp] theorem bypassDouble_outstanding (c : Coder) (bin : Bool) :
    (bypassDouble c bin).outstanding = c.outstanding := rfl
@[simp] theorem bypassDouble_firstBit (c : Coder) (bin : Bool) : (bypassDouble c bin).firstBit = c.firstBit := rfl
@[simp] theorem bypassDouble_out (c : Coder) (bin : Bool) : (bypassDouble c bin).out = c.out := rfl

/-- The bypass decision (R160): the interval is halved or its upper half taken, at the doubled scale. -/
theorem bypass_spec {r : CoderRegs} (h : r.Legal) (bin : Bool) {d : Coder}
    (hd : (bypassDouble r.load bin).bypassDecide = some d) :
    d.Inside ∧ d.range = r.range.toNat ∧ d.count = r.load.count + 1 ∧
      ∀ pre, r.load.Fresh pre → d.Fresh pre ∧ d.value pre = 2 * r.load.value pre + if bin then (r.range.toNat : Int) else 0 := by
  obtain ⟨i0, i1, i2, i3, i4, i5⟩ := CoderRegs.load_inside h
  obtain ⟨h1, h2, h3, h4⟩ := h
  have hlow : (bypassDouble r.load bin).low = 2 * (r.low.toNat : Int) + if bin then (r.range.toNat : Int) else 0 := rfl
  have hle : (0 : Int) ≤ (if bin then (r.range.toNat : Int) else 0) ∧
      (if bin then (r.range.toNat : Int) else 0) ≤ r.range.toNat := by
    split <;> omega
  generalize hadd : (if bin then (r.range.toNat : Int) else 0) = add at hlow hle ⊢
  simp only [CoderRegs.load_low, CoderRegs.load_range, CoderRegs.load_outstanding, CoderRegs.load_firstBit] at i0 i1 i2 i3 i4 i5
  unfold Coder.bypassDecide at hd
  rw [hlow] at hd
  split at hd
  · rename_i hl
    cases hd
    have hfb : r.firstBit = false := by
      cases hfb : r.firstBit
      · rfl
      · have := h4 hfb; omega
    refine ⟨⟨?_, i1, i2, ?_, by simp, by simp⟩, rfl, ?_, fun pre hf => ⟨by simp [Coder.Fresh], ?_⟩⟩
    case refine_3 => exact Coder.putBitC_count ({ bypassDouble r.load bin with low := _ } : Coder) true
    case refine_4 =>
      have := Coder.putBitC_number pre ({ bypassDouble r.load bin with low := 2 * (r.low.toNat : Int) + add - 1024 } : Coder) true hf
        (by simp [bypassDouble, hfb])
      simp only [Coder.value, Coder.putBitC_outstanding, Coder.putBitC_low, pow_zero, zero_add, sub_self, zero_mul,
        if_true] at this ⊢
      simp only [bypassDouble_outstanding, bypassDouble_out, CoderRegs.load_outstanding, CoderRegs.load_low] at this ⊢
      linarith
    all_goals
      simp only [Coder.putBitC_low, Coder.putBitC_range, bypassDouble_range, CoderRegs.load_range]
      omega
  · split at hd
    · rename_i hl hl2
      cases hd
      refine ⟨⟨?_, i1, i2, ?_, by simp, by simp⟩, rfl, ?_, fun pre hf => ⟨by simp [Coder.Fresh], ?_⟩⟩
      case refine_3 => exact Coder.putBitC_count (bypassDouble r.load bin) false
      case refine_4 =>
        have := Coder.putBitC_number pre (bypassDouble r.load bin) false hf (fun _ => rfl)
        simp only [Coder.value, Coder.putBitC_outstanding, Coder.putBitC_low, pow_zero, zero_add, sub_self, zero_mul,
          Bool.false_eq_true, if_false] at this ⊢
        rw [hlow]
        simp only [bypassDouble_outstanding, bypassDouble_out, CoderRegs.load_outstanding, CoderRegs.load_low] at this ⊢
        linarith
      all_goals
        simp only [Coder.putBitC_low, Coder.putBitC_range, hlow, bypassDouble_range, CoderRegs.load_range]
        omega
    · rename_i hl hl2
      unfold Coder.defer at hd
      split at hd
      · simp at hd
      · rename_i ho
        cases hd
        have ho' : (bypassDouble r.load bin).outstanding = r.outstanding.toNat := rfl
        rw [ho'] at ho
        refine ⟨⟨?_, i1, i2, ?_, fun hf => ?_, ?_⟩, rfl, ?_, fun pre hf => ⟨hf, ?_⟩⟩
        case refine_5 =>
          show Output.len [] + (r.outstanding.toNat + 1) + (if r.firstBit then 0 else 1) =
            Output.len [] + r.outstanding.toNat + (if r.firstBit then 0 else 1) + 1
          omega
        case refine_6 =>
          simp only [Coder.value, hlow]
          simp only [bypassDouble_outstanding, bypassDouble_out, CoderRegs.load_outstanding, CoderRegs.load_low,
            CoderRegs.load_out, pow_add]
          ring
        case refine_3 =>
          have := h4 hf
          simp only [hlow, bypassDouble_range, CoderRegs.load_range]
          omega
        all_goals
          simp only [hlow, bypassDouble_range, bypassDouble_outstanding, CoderRegs.load_range, CoderRegs.load_outstanding]
          omega

/-! ### What the compute steps leave -/

theorem RenormE_fuel {c : Coder} (h : 0 < c.range) : renormE c ≠ .endless :=
  renormLoop_not_endless (by norm_num; omega)

/-- ENCODE_BIN's compute step (R150) never runs out of passes in a legal state. -/
theorem computeEncodeBin_cases {r : CoderRegs} (h : r.Legal) (ctx : BitVec 7) (bin : Bool) :
    (computeEncodeBin r ctx bin = .raise .counterOverflow ∧ renormE (chooseInterval r ctx bin) = .overflow) ∨
      ∃ d, renormE (chooseInterval r ctx bin) = .ok d ∧ computeEncodeBin r ctx bin =
        .done { out := d.out, coder := d.store, response := some ((nextCtx ctx bin).setWidth 64) } := by
  unfold computeEncodeBin
  cases he : renormE (chooseInterval r ctx bin) with
  | ok d => exact .inr ⟨d, rfl, rfl⟩
  | overflow => exact .inl ⟨rfl, rfl⟩
  | endless => exact absurd he (RenormE_fuel (chooseInterval_spec h ctx bin).1.2.1)

/-- SLICE_FINISH's compute step (R170) never runs out of passes in a legal state. -/
theorem computeSliceFinish_cases {r : CoderRegs} (h : r.Legal) (k : Nat) :
    (computeSliceFinish r k = .raise .counterOverflow ∧ renormE (chooseTerminate r) = .overflow) ∨
      ∃ d, renormE (chooseTerminate r) = .ok d ∧ computeSliceFinish r k =
        .done { out := (d.flush k).out, coder := (d.flush k).store, response := none } := by
  unfold computeSliceFinish
  cases he : renormE (chooseTerminate r) with
  | ok d => exact .inr ⟨d, rfl, rfl⟩
  | overflow => exact .inl ⟨rfl, rfl⟩
  | endless => exact absurd he (RenormE_fuel (chooseTerminate_spec h).1.2.1)

/-- ENCODE_BIN_EP's compute step (R160). -/
theorem computeEncodeBinEp_cases (r : CoderRegs) (bin : Bool) :
    (computeEncodeBinEp r bin = .raise .counterOverflow ∧ (bypassDouble r.load bin).bypassDecide = none) ∨
      ∃ d, (bypassDouble r.load bin).bypassDecide = some d ∧
        computeEncodeBinEp r bin = .done { out := d.out, coder := d.store, response := none } := by
  unfold computeEncodeBinEp
  cases he : (bypassDouble r.load bin).bypassDecide with
  | some d => exact .inr ⟨d, rfl, rfl⟩
  | none => exact .inl ⟨rfl, rfl⟩

@[simp] theorem Coder.flush_low (c : Coder) (k : Nat) : (c.flush k).low = c.low := rfl
@[simp] theorem Coder.flush_range (c : Coder) (k : Nat) : (c.flush k).range = c.range := rfl
@[simp] theorem Coder.flush_outstanding (c : Coder) (k : Nat) : (c.flush k).outstanding = 0 := rfl
@[simp] theorem Coder.flush_firstBit (c : Coder) (k : Nat) : (c.flush k).firstBit = false := rfl

/-- The flush leaves the interval inside. -/
theorem Coder.flush_inside {c : Coder} (h : c.Inside) (k : Nat) : (c.flush k).Inside := by
  obtain ⟨h0, h1, h2, h3, h4, h5⟩ := h
  exact ⟨h0, h1, h2, h3, by simp, by simp⟩

/-- Whatever a compute step leaves to commit, legal coder registers stay legal. -/
theorem computedOf_legal {s : State} {i : Instr} {r : Result} (hl : s.coder.Legal) (h : computedOf s i = some (.done r)) :
    r.coder.Legal := by
  cases i <;> simp only [computedOf, computePutBits, computePutBit, computePutUe, computePutSe, computePutTrailingBits, computeGetBitOffset,
    State.emitOnly, Option.some.injEq, reduceCtorEq] at h
  case putBits => split at h <;> cases h; exact hl
  case putBit => cases h; exact hl
  case putUe => split at h <;> cases h; exact hl
  case putSe => split at h <;> cases h; exact hl
  case putTrailingBits => cases h; exact hl
  case getBitOffset => cases h; exact hl
  case encodeBin ctx bin =>
    rcases computeEncodeBin_cases hl ctx bin with ⟨hc, -⟩ | ⟨d, hd, hc⟩
    · rw [hc] at h; cases h
    · rw [hc] at h
      cases h
      obtain ⟨k, di, dr, -⟩ := renormLoop_spec hd (chooseInterval_spec hl ctx bin).1
      exact Coder.store_legal di dr
  case encodeBinEp bin =>
    rcases computeEncodeBinEp_cases s.coder bin with ⟨hc, -⟩ | ⟨d, hd, hc⟩
    · rw [hc] at h; cases h
    · rw [hc] at h
      cases h
      obtain ⟨di, dr, -⟩ := bypass_spec hl bin hd
      exact Coder.store_legal di (by have := hl.1; omega)
  case sliceFinish =>
    rcases computeSliceFinish_cases hl s.bitOffset.toNat with ⟨hc, -⟩ | ⟨d, hd, hc⟩
    · rw [hc] at h; cases h
    · rw [hc] at h
      cases h
      obtain ⟨k, di, dr, -⟩ := renormLoop_spec hd (chooseTerminate_spec hl).1
      exact Coder.store_legal (Coder.flush_inside di _) (by simpa using dr)

end Sys2Proof.Machine
end

