-- ==== Sys2Proof/Laws/Decode.lean ====
section
/-! SUPPORT. The decoder: when a row of the opcode map accepts a word, and which command it then reads. -/
namespace Sys2Proof
open Sys2Proof.Machine

/-- The low byte as a number. -/
theorem and_ff_toNat (w : Word) : (w &&& 0xFF).toNat = w.toNat % 256 := by
  have : w &&& 0xFF = (w.setWidth 8).setWidth 64 := by
    ext i hi
    by_cases h8 : i < 8 <;> simp [h8]
    all_goals interval_cases i <;> simp_all
  rw [this]
  simp
  omega

/-- A row whose mask covers the opcode accepts a word exactly when the opcode is its own and no reserved bit is set. -/
theorem OpRow.accepts_iff (r : OpRow) (w : Word) (hm : r.mask &&& 0xFF = 0xFF) (hp : r.pattern &&& 0xFF = r.pattern) :
    r.accepts w = true ↔ (w.toNat % 256 = r.pattern.toNat ∧ w &&& (r.mask &&& ~~~0xFF) = 0) := by
  unfold OpRow.accepts
  rw [beq_iff_eq, ← and_ff_toNat]
  have hsplit : w &&& r.mask = (w &&& 0xFF) ||| (w &&& (r.mask &&& ~~~0xFF)) := by
    rw [← BitVec.and_or_distrib_left]
    congr 1
    rw [← hm]
    ext i hi
    simp
    cases r.mask[i] <;> simp
  constructor
  · intro h
    constructor
    · rw [← hp, ← h, BitVec.and_assoc, hm]
    · have : w &&& (r.mask &&& ~~~0xFF) = (w &&& r.mask) &&& ~~~0xFF := by rw [BitVec.and_assoc]
      rw [this, h, ← hp, BitVec.and_assoc]
      simp
  · rintro ⟨h1, h2⟩
    rw [hsplit, BitVec.eq_of_toNat_eq h1, h2]
    simp

theorem rowReset_accepts (w : Word) : rowReset.accepts w = true ↔ w.toNat % 256 = 1 ∧ w &&& 0xFFFFFFFFFFFFF800 = 0 :=
  OpRow.accepts_iff rowReset w rfl rfl
theorem rowPutBits_accepts (w : Word) : rowPutBits.accepts w = true ↔ w.toNat % 256 = 2 ∧ w &&& 0x00000000FFFFC000 = 0 :=
  OpRow.accepts_iff rowPutBits w rfl rfl
theorem rowPutBit_accepts (w : Word) : rowPutBit.accepts w = true ↔ w.toNat % 256 = 3 ∧ w &&& 0xFFFFFFFFFFFFFE00 = 0 :=
  OpRow.accepts_iff rowPutBit w rfl rfl
theorem rowPutUe_accepts (w : Word) : rowPutUe.accepts w = true ↔ w.toNat % 256 = 4 ∧ w &&& 0x00000000FFFFFF00 = 0 :=
  OpRow.accepts_iff rowPutUe w rfl rfl
theorem rowPutSe_accepts (w : Word) : rowPutSe.accepts w = true ↔ w.toNat % 256 = 5 ∧ w &&& 0x00000000FFFFFF00 = 0 :=
  OpRow.accepts_iff rowPutSe w rfl rfl
theorem rowPutTrailingBits_accepts (w : Word) :
    rowPutTrailingBits.accepts w = true ↔ w.toNat % 256 = 6 ∧ w &&& 0xFFFFFFFFFFFFFE00 = 0 :=
  OpRow.accepts_iff rowPutTrailingBits w rfl rfl
theorem rowGetBitOffset_accepts (w : Word) :
    rowGetBitOffset.accepts w = true ↔ w.toNat % 256 = 7 ∧ w &&& 0xFFFFFFFFFFFFFF00 = 0 :=
  OpRow.accepts_iff rowGetBitOffset w rfl rfl
theorem rowEncodeBin_accepts (w : Word) : rowEncodeBin.accepts w = true ↔ w.toNat % 256 = 8 ∧ w &&& 0xFFFFFFFFFF80FE00 = 0 :=
  OpRow.accepts_iff rowEncodeBin w rfl rfl
theorem rowEncodeBinEp_accepts (w : Word) :
    rowEncodeBinEp.accepts w = true ↔ w.toNat % 256 = 9 ∧ w &&& 0xFFFFFFFFFFFFFE00 = 0 :=
  OpRow.accepts_iff rowEncodeBinEp w rfl rfl
theorem rowSliceFinish_accepts (w : Word) :
    rowSliceFinish.accepts w = true ↔ w.toNat % 256 = 10 ∧ w &&& 0xFFFFFFFFFFFFFF00 = 0 :=
  OpRow.accepts_iff rowSliceFinish w rfl rfl
theorem rowReadReg_accepts (w : Word) : rowReadReg.accepts w = true ↔ w.toNat % 256 = 11 ∧ w &&& 0xFFFFFFFFFFFF0000 = 0 :=
  OpRow.accepts_iff rowReadReg w rfl rfl

/-- The acceptance of every row by opcode and reserved bits, for rewriting. -/
theorem acceptances (w : Word) :
    (rowReset.accepts w = true ↔ w.toNat % 256 = 1 ∧ w &&& 0xFFFFFFFFFFFFF800 = 0) ∧
    (rowPutBits.accepts w = true ↔ w.toNat % 256 = 2 ∧ w &&& 0x00000000FFFFC000 = 0) ∧
    (rowPutBit.accepts w = true ↔ w.toNat % 256 = 3 ∧ w &&& 0xFFFFFFFFFFFFFE00 = 0) ∧
    (rowPutUe.accepts w = true ↔ w.toNat % 256 = 4 ∧ w &&& 0x00000000FFFFFF00 = 0) ∧
    (rowPutSe.accepts w = true ↔ w.toNat % 256 = 5 ∧ w &&& 0x00000000FFFFFF00 = 0) ∧
    (rowPutTrailingBits.accepts w = true ↔ w.toNat % 256 = 6 ∧ w &&& 0xFFFFFFFFFFFFFE00 = 0) ∧
    (rowGetBitOffset.accepts w = true ↔ w.toNat % 256 = 7 ∧ w &&& 0xFFFFFFFFFFFFFF00 = 0) ∧
    (rowEncodeBin.accepts w = true ↔ w.toNat % 256 = 8 ∧ w &&& 0xFFFFFFFFFF80FE00 = 0) ∧
    (rowEncodeBinEp.accepts w = true ↔ w.toNat % 256 = 9 ∧ w &&& 0xFFFFFFFFFFFFFE00 = 0) ∧
    (rowSliceFinish.accepts w = true ↔ w.toNat % 256 = 10 ∧ w &&& 0xFFFFFFFFFFFFFF00 = 0) ∧
    (rowReadReg.accepts w = true ↔ w.toNat % 256 = 11 ∧ w &&& 0xFFFFFFFFFFFF0000 = 0) :=
  ⟨rowReset_accepts w, rowPutBits_accepts w, rowPutBit_accepts w, rowPutUe_accepts w, rowPutSe_accepts w,
    rowPutTrailingBits_accepts w, rowGetBitOffset_accepts w, rowEncodeBin_accepts w, rowEncodeBinEp_accepts w,
    rowSliceFinish_accepts w, rowReadReg_accepts w⟩

/-- A legal RESET word with its two extension words is that RESET (R72, R74). -/
theorem decode_reset {w0 : Word} (h : rowReset.accepts w0 = true) (start stop : Word) (rest : List Word) :
    decode (w0 :: start :: stop :: rest) = .command (.reset (fieldSbo w0) start stop) rest := by
  simp [decode, h]

/-- A first word that is no legal RESET is a command of one word, or illegal (R72, R86). -/
theorem decode_oneWord {w0 : Word} (h : rowReset.accepts w0 = false) (rest : List Word) :
    decode (w0 :: rest) = (decodeOneWord w0).elim (.illegal rest) fun i => .command i rest := by
  cases hd : decodeOneWord w0 <;> simp [decode, h, hd]

end Sys2Proof
end

