-- ==== Sys2Proof/Laws/PerInstr.lean ====
section
/-! SUPPORT. Lemmas made once per instruction.  Family EncodedRow: a command's first word is accepted by its own row of the opcode map,
and the command has as many words as the row says (rules R72, R74, R75). -/
namespace Sys2Proof.Laws.EncodedRow

/-- The first word of the encoding is accepted by the instruction's row, and the length is the row's. -/
def Statement (i : Instr) : Prop :=
  (∃ w0 ws, encode i = w0 :: ws ∧ i.row.accepts w0 = true) ∧ (encode i).length = i.row.words

theorem reset (sbo : BitVec 3) (start stop : Word) : Statement (.reset sbo start stop) := by
  refine ⟨⟨_, _, rfl, ?_⟩, rfl⟩
  rw [OpRow.accepts, beq_iff_eq]
  apply BitVec.eq_of_getElem_eq
  intro j hj
  interval_cases j <;> simp [Instr.row, rowReset, place]

theorem putBits (n : BitVec 6) (value : BitVec 32) : Statement (.putBits n value) := by
  refine ⟨⟨_, _, rfl, ?_⟩, rfl⟩
  rw [OpRow.accepts, beq_iff_eq]
  apply BitVec.eq_of_getElem_eq
  intro j hj
  interval_cases j <;> simp [Instr.row, rowPutBits, place]

theorem putBit (b : Bool) : Statement (.putBit b) := by
  refine ⟨⟨_, _, rfl, ?_⟩, rfl⟩
  cases b <;> decide

theorem putUe (value : BitVec 32) : Statement (.putUe value) := by
  refine ⟨⟨_, _, rfl, ?_⟩, rfl⟩
  rw [OpRow.accepts, beq_iff_eq]
  apply BitVec.eq_of_getElem_eq
  intro j hj
  interval_cases j <;> simp [Instr.row, rowPutUe, place]

theorem putSe (value : BitVec 32) : Statement (.putSe value) := by
  refine ⟨⟨_, _, rfl, ?_⟩, rfl⟩
  rw [OpRow.accepts, beq_iff_eq]
  apply BitVec.eq_of_getElem_eq
  intro j hj
  interval_cases j <;> simp [Instr.row, rowPutSe, place]

theorem putTrailingBits (ca : Bool) : Statement (.putTrailingBits ca) := by
  refine ⟨⟨_, _, rfl, ?_⟩, rfl⟩
  cases ca <;> decide

theorem getBitOffset : Statement (.getBitOffset) := by
  refine ⟨⟨_, _, rfl, ?_⟩, rfl⟩
  decide

theorem encodeBin (ctx : BitVec 7) (bin : Bool) : Statement (.encodeBin ctx bin) := by
  refine ⟨⟨_, _, rfl, ?_⟩, rfl⟩
  rw [OpRow.accepts, beq_iff_eq]
  apply BitVec.eq_of_getElem_eq
  intro j hj
  interval_cases j <;> simp [Instr.row, rowEncodeBin, place]

theorem encodeBinEp (bin : Bool) : Statement (.encodeBinEp bin) := by
  refine ⟨⟨_, _, rfl, ?_⟩, rfl⟩
  cases bin <;> decide

theorem sliceFinish : Statement (.sliceFinish) := by
  refine ⟨⟨_, _, rfl, ?_⟩, rfl⟩
  decide

theorem readReg (reg : BitVec 8) : Statement (.readReg reg) := by
  refine ⟨⟨_, _, rfl, ?_⟩, rfl⟩
  rw [OpRow.accepts, beq_iff_eq]
  apply BitVec.eq_of_getElem_eq
  intro j hj
  interval_cases j <;> simp [Instr.row, rowReadReg, place]

end Sys2Proof.Laws.EncodedRow
end

