-- ==== Sys2Proof/Tests/Slice0.lean ====
section
/-! SUPPORT. Tests: ill-formed operands refused, words of the spec decoded, one-step vectors of 95_test_vectors.md, and a witness
for the hypotheses of every statement that has some. -/
namespace Sys2Proof.Tests
open Sys2Proof Sys2Proof.Machine

/-! ### WellFormed refuses an ill-formed operand, one term per check -/

theorem test_wf_reset_address_width :
    (Instr.reset 0 0x100 0x200).wellFormed { Params.atReset with addrW := 9 } = false := by decide
theorem test_wf_reset_start_after_end : (Instr.reset 0 0x400 0x3FF).wellFormed Params.atReset = false := by decide
theorem test_wf_reset_empty_with_offset : (Instr.reset 1 0x500 0x500).wellFormed Params.atReset = false := by decide
theorem test_wf_reset_too_many_bits : (Instr.reset 0 0 0x2000000000000000).wellFormed Params.atReset = false := by decide
theorem test_wf_putBits : (Instr.putBits 33 0).wellFormed Params.atReset = false := by decide
theorem test_wf_putUe : (Instr.putUe 0xFFFFFFFF).wellFormed Params.atReset = false := by decide
theorem test_wf_putSe : (Instr.putSe 0x80000000).wellFormed Params.atReset = false := by decide
theorem test_wf_readReg : (Instr.readReg 11).wellFormed Params.atReset = false := by decide
/-- The largest legal value of each. -/
theorem test_wf_accepts_limits :
    (Instr.reset 7 0x1FE 0x1FF).wellFormed { Params.atReset with addrW := 9 } = true ∧
      (Instr.reset 0 0x500 0x500).wellFormed Params.atReset = true ∧
      (Instr.reset 0 0 0x1FFFFFFFFFFFFFFF).wellFormed Params.atReset = true ∧
      (Instr.putBits 32 0xFFFFFFFF).wellFormed Params.atReset = true ∧
      (Instr.putUe 0xFFFFFFFE).wellFormed Params.atReset = true ∧
      (Instr.putSe 0x80000001).wellFormed Params.atReset = true ∧ (Instr.readReg 10).wellFormed Params.atReset = true := by
  decide

/-! ### Words written out from the format table of R74, one per row -/

theorem test_decode_reset : decode [0x501, 0x1000, 0x1010] = .command (.reset 5 0x1000 0x1010) [] := by decide
theorem test_decode_putBits : decode [0x000000A500000802] = .command (.putBits 8 0xA5) [] := by decide
theorem test_decode_putBit : decode [0x103] = .command (.putBit true) [] := by decide
theorem test_decode_putUe : decode [0xFFFFFFFE00000004] = .command (.putUe 0xFFFFFFFE) [] := by decide
theorem test_decode_putSe : decode [0xFFFFFFF900000005] = .command (.putSe (-7)) [] := by decide
theorem test_decode_putTrailingBits : decode [0x106] = .command (.putTrailingBits true) [] := by decide
theorem test_decode_getBitOffset : decode [0x07] = .command .getBitOffset [] := by decide
theorem test_decode_encodeBin : decode [0x0000000000400108] = .command (.encodeBin 0x40 true) [] := by decide
theorem test_decode_encodeBinEp : decode [0x109] = .command (.encodeBinEp true) [] := by decide
theorem test_decode_sliceFinish : decode [0x0A] = .command .sliceFinish [] := by decide
theorem test_decode_readReg : decode [0x60B] = .command (.readReg 6) [] := by decide
/-- The illegal first words of L2.2, L2.7, L2.10 and L2.12. -/
theorem test_decode_illegal :
    [(0x0 : Word), 0x0C, 0xFF, 0x4002, 0x107, 0x100000003, 0x203, 0x800008, 0x208, 0x801].map (fun w => decode [w]) =
      List.replicate 10 (.illegal []) := by decide
/-- The words the opcode table's numbering gives: a RESET of zero operands, and SLICE_FINISH. -/
theorem test_decodeTableWord : decodeTableWord 192 0x01 = some (.reset 0 0 0) ∧
    decodeTableWord 64 0x0A = some .sliceFinish ∧ decodeTableWord 64 0x0C = none := by decide

/-! ### Small states -/

/-- A configured block: window `[start, stop)`, cursor at bit `sbo` of `start`, the coder as given, nothing in memory. -/
def block (start stop : Word) (sbo : BitVec 3) (coder : CoderRegs) : State :=
  { State.reset with
    status := 0x01, bufStart := start, bufEnd := stop, startBitOffset := sbo, curPtr := start, bitOffset := sbo,
    coder := coder, drawn := [] }

/-- A window of 256 bytes, the coder at its initial state. -/
def ready : State := block 0x100 0x200 3 coderInit

/-- A window of two bytes, the coder at its initial state. -/
def small : State := block 0x100 0x102 3 coderInit

/-- The coder about to defer with the counter at its limit (L2.7). -/
def brim : State := block 0x100 0x200 3 { low := 100, range := 300, outstanding := 0xFFFFFFFF, firstBit := false }

/-- `ready` after a fault. -/
def faulty : State := { ready with status := 0x43 }

/-- One step with the words on the port. -/
def stepOn (s : State) (ws : List Word) : Option State := nextState? (step { s with port := ws })

/-- STATUS after one step. -/
def statusOn (s : State) (ws : List Word) : Option (BitVec 8) := (stepOn s ws).map State.status

/-- The cursor and memory after one step. -/
def bitsOn (s : State) (ws : List Word) : Option (Word × BitVec 3 × Memory) :=
  (stepOn s ws).map fun t => (t.curPtr, t.bitOffset, t.mem)

/-- The coder registers after one step. -/
def coderOn (s : State) (ws : List Word) : Option CoderRegs := (stepOn s ws).map State.coder

/-- The responses after one step. -/
def responsesOn (s : State) (ws : List Word) : Option (List Word) := (stepOn s ws).map State.responses

/-! ### One-step vectors, at most two per instruction -/

/-- L2.10. -/
theorem test_reset_good : (stepOn State.reset [0x501, 0x1000, 0x1010]).map (fun t => (t.status, t.curPtr, t.bitOffset, t.coder)) =
    some (0x01, 0x1000, 5, { low := 0, range := 510, outstanding := 0, firstBit := true }) := by decide
/-- L2.10. -/
theorem test_reset_bad : statusOn State.reset [0x01, 0x400, 0x3FF] = some 0x32 := by decide
/-- L2.1, straddling bytes. -/
theorem test_putBits_straddles : bitsOn small [0x00001FFF00000D02] = some (0x102, 0, [(0x100, 0x1F), (0x101, 0xFF)]) := by decide
/-- L2.1. -/
theorem test_putBits_range : statusOn small [0x2102] = some 0x33 := by decide
/-- L2.2. -/
theorem test_putBit_one : bitsOn small [0x103] = some (0x100, 4, [(0x100, 0x10)]) := by decide
/-- L2.1: the window is full. -/
theorem test_putBit_exhausted : statusOn { small with curPtr := 0x102, bitOffset := 0 } [0x103] = some 0x43 := by decide
/-- L2.4: `00100`. -/
theorem test_putUe_three : bitsOn small [0x0000000300000004] = some (0x101, 0, [(0x100, 0x04)]) := by decide
/-- L2.4. -/
theorem test_putUe_range : statusOn small [0xFFFFFFFF00000004] = some 0x33 := by decide
/-- L2.5: `0001111`. -/
theorem test_putSe_minus_seven : bitsOn small [0xFFFFFFF900000005] = some (0x101, 2, [(0x100, 0x03), (0x101, 0xC0)]) := by decide
/-- L2.5. -/
theorem test_putSe_range : statusOn small [0x8000000000000005] = some 0x33 := by decide
/-- L2.6, `k = 3`. -/
theorem test_putTrailingBits_pads : bitsOn small [0x06] = some (0x101, 0, [(0x100, 0x10)]) := by decide
/-- L2.6, `CA = 1` at a byte boundary of an empty window. -/
theorem test_putTrailingBits_aligned : bitsOn (block 0x500 0x500 0 coderInit) [0x106] = some (0x500, 0, []) := by decide
/-- L2.3: 3 bits since the RESET. -/
theorem test_getBitOffset_counts :
    responsesOn { block 0x400 0x404 5 coderInit with curPtr := 0x401, bitOffset := 0 } [0x07] = some [3] := by decide
/-- L2.3. -/
theorem test_getBitOffset_unconfigured : statusOn State.reset [0x07] = some 0x22 := by decide
/-- L2.7, A10: `1000`. -/
theorem test_encodeBin_releases :
    (stepOn (block 0x100 0x200 0 { low := 300, range := 300, outstanding := 2, firstBit := false }) [0x0A0108]).map
        (fun t => (t.coder, t.responses, t.bitOffset, t.mem)) =
      some ({ low := 12, range := 340, outstanding := 0, firstBit := false }, [0x08], 4, [(0x100, 0x80)]) := by decide
/-- L2.7, counter overflow. -/
theorem test_encodeBin_overflow : statusOn brim [0x108] = some 0x53 := by decide
/-- L2.8: `10000`. -/
theorem test_encodeBinEp_releases :
    (stepOn (block 0x100 0x200 0 { low := 700, range := 300, outstanding := 4, firstBit := false }) [0x09]).map
        (fun t => (t.coder, t.bitOffset, t.mem)) =
      some ({ low := 376, range := 300, outstanding := 0, firstBit := false }, 5, [(0x100, 0x80)]) := by decide
/-- L2.8, the suppressed first bit. -/
theorem test_encodeBinEp_first : (stepOn (block 0x100 0x200 0 { low := 200, range := 256, outstanding := 0, firstBit := true })
    [0x09]).map (fun t => (t.coder, t.bitOffset)) = some ({ low := 400, range := 256, outstanding := 0, firstBit := false }, 0) := by
  decide
/-- L2.9, row 1: bytes 0xFE 0x80. -/
theorem test_sliceFinish_init : (stepOn (block 0x100 0x102 0 coderInit) [0x0A]).map (fun t => (t.coder.low, t.curPtr, t.mem)) =
    some (0, 0x102, [(0x100, 0xFE), (0x101, 0x80)]) := by decide
/-- L2.9: no room in one byte. -/
theorem test_sliceFinish_exhausted : statusOn (block 0x100 0x101 0 coderInit) [0x0A] = some 0x43 := by decide
/-- L2.11: register 6 after a deferred bin. -/
theorem test_readReg_low :
    responsesOn (block 0x100 0x104 3 { low := 28, range := 480, outstanding := 1, firstBit := true }) [0x60B] = some [28] := by
  decide
/-- L2.11: `REG > 10` is checked first. -/
theorem test_readReg_range : statusOn State.reset [0xC0B] = some 0x32 := by decide
/-- `withFetchWord` puts the instruction before the next step: SLICE_FINISH right after power-on is NOT_CONFIGURED. -/
theorem test_withFetchWord : (nextState? (step (State.reset.withFetchWord 64 0x0A))).map State.status = some 0x22 := by decide

/-! ### Witnesses for the hypotheses of the statements -/

theorem test_witness_IllegalFirstWords :
    (∃ rest, ({ ready with port := [0x4002] } : State).port = 0x4002 :: rest) ∧ illegalFirstWord 0x0C = true ∧
      illegalFirstWord 0x4002 = true ∧ ready.faulted = false ∧ faulty.faulted = true ∧ illegalFirstWord 0x0B = false ∧
      illegalFirstWord 0x3F02 = false := ⟨⟨_, rfl⟩, by decide⟩

theorem test_witness_StepExecutesDecoded : decode ({ ready with port := [0x103, 0x0A] } : State).port = .command (.putBit true) [0x0A] := by
  decide

theorem test_witness_StepHoldsWithoutCommand : State.reset.port = [] ∧ (0x701 : Word).toNat % 256 = 1 ∧ illegalFirstWord 0x701 = false ∧
    ({ ready with port := [0x701] } : State).port = [0x701] ∧
    ∃ w1, ({ ready with port := [0x701, 0x100] } : State).port = [0x701, w1] := ⟨by decide, by decide, by decide, rfl, _, rfl⟩

theorem test_witness_LengthsAndHold : LegalWord 0x0B 0x00B ∧ LegalWord 2 0x3F02 ∧ illegalFirstWord 0x801 = true ∧ LegalWord 1 0x701 ∧
    ({ ready with port := [0x701, 0x100, 0x200, 0x07] } : State).port = 0x701 :: 0x100 :: 0x200 :: [0x07] ∧
    ({ ready with port := [0x701] } : State).port = [0x701] ∧
    ({ ready with port := [0x701, 0x100] } : State).port = [0x701, 0x100] := by and_intros <;> decide

theorem test_witness_NextCommandFollows :
    (∃ t, step { ready with port := [0x103, 0x0A] } = .next t) ∧ decode [0x103, 0x0A] = .command (.putBit true) [0x0A] ∧
      (∃ t, step { faulty with port := [0x0C, 0x0A] } = .next t) ∧ decode [0x0C, 0x0A] = .illegal [0x0A] :=
  ⟨⟨_, rfl⟩, by decide, ⟨_, rfl⟩, by decide⟩

theorem test_witness_PowerOnState : 1 ≤ (1 : BitVec 8).toNat ∧ (10 : BitVec 8).toNat ≤ 10 := by decide

theorem test_witness_StepKeepsInv : ready.Inv ∧ ∃ t, step { ready with port := [0x103] } = .next t := ⟨by decide, _, rfl⟩

/-- A window at the top of the address space, full, with the cursor at its end, meets the invariant too. -/
theorem test_witness_StepNeverStops : (block 0xFFFFFFFFFFFFFFFE 0xFFFFFFFFFFFFFFFF 0 coderInit).Inv ∧
    ({ block 0x100 0x102 3 coderInit with curPtr := 0x102, bitOffset := 0 } : State).Inv ∧ State.reset.Inv ∧ faulty.Inv ∧
    brim.Inv := by and_intros <;> decide

theorem test_witness_HostActionsKeepInv : ready.Inv ∧ (∃ v t, ({ ready with responses := [3] } : State).hostTake = some (v, t)) ∧
    (∃ t, ready.hostWrite 0xFF 1 = some t) ∧ ∃ t, ready.hostWrite 0x100 1 = some t := ⟨by decide, ⟨_, _, rfl⟩, ⟨_, rfl⟩, _, rfl⟩

theorem test_witness_HostWriteReadsBack : ready.Inv ∧ ready.params.platformCoherent = true ∧ 0x200 < 2 ^ ready.params.addrW ∧
    (∃ t, ready.hostWrite 0x200 1 = some t) ∧ ready.inWindow 0x200 = false ∧ ready.inWindow 0xFF = false ∧
    (∃ t, ready.hostWrite 0x100 1 = some t) ∧ ready.inWindow 0x100 = true ∧ (∃ t, ready.hostWrite 0x1FF 1 = some t) ∧
    ready.inWindow 0x1FF = true ∧ 0x7FF / 8 ≠ 0x100 ∧ 0x7FF < ready.absPos ∧ 0x1000 / 8 ≠ 0x100 ∧
    8 * ready.bufEnd.toNat ≤ 0x1000 :=
  ⟨by decide, by decide, by decide, ⟨_, rfl⟩, by decide, by decide, ⟨_, rfl⟩, by decide, ⟨_, rfl⟩, by decide⟩

theorem test_witness_ResetMeaning : LegalWord 0x01 0x701 ∧ resetWellFormed ready.params 0 0x500 0x500 ∧ resetWellFormed ready.params 7 0 1 ∧
    resetWellFormed ready.params 0 0 0x1FFFFFFFFFFFFFFF ∧
    resetWellFormed ready.params 7 0xFFFFFFFFFFFFFFFE 0xFFFFFFFFFFFFFFFF ∧ ¬ resetWellFormed ready.params 1 0x500 0x500 ∧
    ready.faulted = false := by and_intros <;> decide

theorem test_witness_FailedResetOnlyFaults : ¬ resetWellFormed ready.params 0 0x400 0x3FF ∧ ¬ resetWellFormed ready.params 1 0x500 0x500 ∧
    ¬ resetWellFormed ready.params 0 0 0x2000000000000000 ∧
    ¬ resetWellFormed { Params.atReset with addrW := 9 } 0 0x100 0x200 ∧ State.reset.status = 0x00 ∧ ready.status = 0x01 := by
  and_intros <;> decide

theorem test_witness_ReadRegMeaning : LegalWord 0x0B 0xFF0B ∧ ((10 : BitVec 8).toNat ≤ 10 ∧ ready.configured = true ∧ ready.Inv) ∧
    (10 < (11 : BitVec 8).toNat ∧ State.reset.faulted = false) ∧
    ((1 : BitVec 8).toNat ≤ 10 ∧ (1 : BitVec 8) ≠ 0 ∧ State.reset.configured = false) ∧
    (({ State.reset with status := 0x22 } : State).configured = false ∧ ({ State.reset with status := 0x22 } : State).Inv ∧
      ({ State.reset with status := 0x22 } : State).faulted = true) := by and_intros <;> decide

theorem test_witness_OneResponsePerCommand : (∃ t, exec (.readReg 0) State.reset = .next t ∧ t.faulted = false) ∧
    (∃ t, exec (.readReg 1) State.reset = .next t ∧ t.faulted = true) ∧ (∃ t, exec .getBitOffset ready = .next t ∧ t.faulted = false) ∧
    (∃ t, exec .getBitOffset faulty = .next t) ∧ (∃ t, exec (.reset 0 0 1) faulty = .next t) ∧
    (Instr.getBitOffset).isControl = false ∧ (Instr.reset 0 0 1).isReset = true :=
  ⟨⟨_, rfl, by decide⟩, ⟨_, rfl, by decide⟩, ⟨_, rfl, by decide⟩, ⟨_, rfl⟩, ⟨_, rfl⟩, by decide⟩

theorem test_witness_PutBitsMeaning : LegalWord 0x02 0xFFFFFFFF00003F02 ∧ (State.reset.Inv ∧ State.reset.faulted = false ∧ State.reset.configured = false) ∧
    (small.Inv ∧ small.faulted = false ∧ small.configured = true) ∧ 32 < (33 : BitVec 6).toNat ∧ small.Room 13 ∧
    ¬ small.Room 14 ∧ ready.Inv ∧ ready.configured = true ∧ ready.faulted = false ∧ ready.Room 32 := by and_intros <;> decide

theorem test_witness_PutBitMeaning : LegalWord 0x03 0x103 ∧ (State.reset.Inv ∧ State.reset.faulted = false ∧ State.reset.configured = false) ∧
    (({ small with curPtr := 0x101, bitOffset := 7 } : State).Inv ∧ ({ small with curPtr := 0x101, bitOffset := 7 } : State).Room 1 ∧
      ({ small with curPtr := 0x101, bitOffset := 7 } : State).Ready) ∧
    (({ small with curPtr := 0x102, bitOffset := 0 } : State).Inv ∧ ¬ ({ small with curPtr := 0x102, bitOffset := 0 } : State).Room 1 ∧
      ({ small with curPtr := 0x102, bitOffset := 0 } : State).Ready) := by and_intros <;> decide

theorem test_witness_PutUeMeaning : LegalWord 0x04 0xFFFFFFFF00000004 ∧ (State.reset.Inv ∧ State.reset.faulted = false ∧ State.reset.configured = false) ∧
    (ready.Inv ∧ ready.Ready) ∧ (0xFFFFFFFE : BitVec 32) ≠ 0xFFFFFFFF ∧ 2 ^ (32 - 1) ≤ (0xFFFFFFFE : BitVec 32).toNat + 1 ∧
    (0xFFFFFFFE : BitVec 32).toNat + 1 < 2 ^ 32 ∧ ready.Room (2 * 32 - 1) ∧ ¬ small.Room (2 * 32 - 1) ∧ small.Inv ∧ small.Ready ∧
    2 ^ (1 - 1) ≤ (0 : BitVec 32).toNat + 1 ∧ (0 : BitVec 32).toNat + 1 < 2 ^ 1 := by and_intros <;> decide

theorem test_witness_PutSeMeaning : LegalWord 0x05 0xFFFFFFFF00000005 ∧ (State.reset.Inv ∧ State.reset.faulted = false ∧ State.reset.configured = false) ∧
    (ready.Inv ∧ ready.Ready) ∧ (0x80000001 : BitVec 32) ≠ 0x80000000 ∧
    ((0xFFFFFFFE : Nat) : Int) = (if 0 < (0x80000001 : BitVec 32).toInt then 2 * (0x80000001 : BitVec 32).toInt - 1
      else -2 * (0x80000001 : BitVec 32).toInt) ∧
    2 ^ (32 - 1) ≤ 0xFFFFFFFE + 1 ∧ 0xFFFFFFFE + 1 < 2 ^ 32 ∧ ready.Room (2 * 32 - 1) ∧ ¬ small.Room (2 * 32 - 1) ∧ small.Inv ∧
    small.Ready ∧ ((0 : Nat) : Int) = (if 0 < (0 : BitVec 32).toInt then 2 * (0 : BitVec 32).toInt - 1
      else -2 * (0 : BitVec 32).toInt) ∧ 2 ^ (1 - 1) ≤ 0 + 1 ∧ 0 + 1 < 2 ^ 1 := by and_intros <;> decide

theorem test_witness_PutTrailingBitsMeaning : LegalWord 0x06 0x106 ∧ (State.reset.Inv ∧ State.reset.faulted = false ∧ State.reset.configured = false) ∧
    ((block 0x500 0x500 0 coderInit).Inv ∧ (block 0x500 0x500 0 coderInit).Ready ∧ (block 0x500 0x500 0 coderInit).bitOffset = 0 ∧
      ¬ (block 0x500 0x500 0 coderInit).Room (8 - (block 0x500 0x500 0 coderInit).bitOffset.toNat)) ∧
    (small.Inv ∧ small.Ready ∧ small.bitOffset ≠ 0 ∧ small.Room (8 - small.bitOffset.toNat)) := by and_intros <;> decide

theorem test_witness_GetBitOffsetMeaning : LegalWord 0x07 0x07 ∧ (State.reset.Inv ∧ State.reset.faulted = false ∧ State.reset.configured = false) ∧
    (ready.Inv ∧ ready.faulted = false ∧ ready.configured = true) := by and_intros <;> decide

theorem test_witness_PutBitsSplitTransparent : ready.Inv ∧ ready.Ready ∧ 16 < (17 : BitVec 6).toNat ∧
    (1 : BitVec 6).toNat = (17 : BitVec 6).toNat - 16 ∧ (32 : BitVec 6).toNat ≤ 32 ∧
    (16 : BitVec 6).toNat = (32 : BitVec 6).toNat - 16 ∧ ∃ t, exec (.putBits 17 0x1FFFF) ready = .next t ∧ t.faulted = false :=
  ⟨by decide, by decide, by decide, by decide, by decide, by decide, _, rfl, by decide⟩

theorem test_witness_UnsignedExpGolombRoundTrip : ready.Inv ∧ ready.Ready ∧
    (∃ t, exec (.putUe 0) ready = .next t ∧ t.faulted = false) ∧
    ∃ t, exec (.putUe 0xFFFFFFFE) ready = .next t ∧ t.faulted = false :=
  ⟨by decide, by decide, ⟨_, rfl, by decide⟩, _, rfl, by decide⟩

theorem test_witness_BitWriterIgnoresCoder : ready.Inv ∧ (Instr.putUe 3).isBitWriter = true ∧ ∃ t, exec (.putUe 3) ready = .next t :=
  ⟨by decide, by decide, _, rfl⟩

theorem test_witness_RenormRange : (∃ d, renormE { low := 0, range := 1, outstanding := 0, firstBit := false, out := [] } = .ok d) ∧
    ∃ d, renormE { low := 0, range := 510, outstanding := 0, firstBit := true, out := [] } = .ok d := ⟨⟨_, rfl⟩, _, rfl⟩

theorem test_witness_RenormLoop : (0 : Int) < ({ low := 0, range := 1, outstanding := 0, firstBit := false, out := [] } : Coder).range ∧
    (0 : Int) < ({ low := 512, range := 255, outstanding := 0, firstBit := false, out := [] } : Coder).range ∧
    2 ^ 32 ≤ ({ low := 256, range := 255, outstanding := 2 ^ 32 - 1, firstBit := false, out := [] } : Coder).outstanding + 1 := by
  decide

theorem test_witness_LpsWidthBounds : 256 ≤ coderInit.range.toNat ∧ coderInit.range.toNat ≤ 510 ∧ (62 : BitVec 7).toNat % 64 ≠ 63 ∧
    (127 : BitVec 7).toNat % 64 = 63 := by and_intros <;> decide

theorem test_witness_ContextStateMachine : (false = (0x3E : BitVec 7).getLsbD 6) ∧ (true ≠ (0x00 : BitVec 7).getLsbD 6) ∧
    (0x7F : BitVec 7).toNat % 64 = 63 ∧ (0x3E : BitVec 7).toNat % 64 ≠ 63 := by and_intros <;> decide

theorem test_witness_EncodeBinMeaning : LegalWord 0x08 0x7F0108 ∧ (State.reset.Inv ∧ State.reset.faulted = false ∧ State.reset.configured = false) ∧
    (brim.Inv ∧ brim.Ready ∧ renormE { low := 272, range := 128, outstanding := 0xFFFFFFFF, firstBit := false, out := [] } = .overflow) ∧
    (small.Inv ∧ small.Ready ∧ renormE { low := 0, range := 270, outstanding := 0, firstBit := true, out := [] } =
        .ok { low := 0, range := 270, outstanding := 0, firstBit := true, out := [] } ∧ small.Room 0) ∧
    ({ small with curPtr := 0x102, bitOffset := 0, coder := { coderInit with firstBit := false, range := 256 } } : State).Inv ∧
    renormE { low := 0, range := 128, outstanding := 0, firstBit := false, out := [] } =
      .ok { low := 0, range := 256, outstanding := 0, firstBit := false, out := [.rep false 1, .rep true 0] } ∧
    ¬ ({ small with curPtr := 0x102, bitOffset := 0 } : State).Room 1 := by and_intros <;> decide

theorem test_witness_EncodeBinCompletes : ready.Inv ∧ ready.Ready ∧ ready.coder.outstanding.toNat + 7 < 2 ^ 32 ∧
    ready.Room (ready.coder.outstanding.toNat + 7) := by and_intros <;> decide

theorem test_witness_EncodeBinChoosesInterval : (brim.Inv ∧ brim.Ready ∧ 2 ^ 32 ≤ brim.coder.outstanding.toNat +
      leadingDeferrals 16 ((brim.coder.low.toNat + subStart brim.coder 0 true : Nat) : Int) (subWidth brim.coder 0 true)) ∧
    (ready.Inv ∧ ready.Ready ∧ ready.coder.outstanding.toNat +
      leadingDeferrals 16 ((ready.coder.low.toNat + subStart ready.coder 0x3F true : Nat) : Int) (subWidth ready.coder 0x3F true)
        < 2 ^ 32) ∧ true ≠ (0x3F : BitVec 7).getLsbD 6 ∧ false = (0x3F : BitVec 7).getLsbD 6 := by and_intros <;> decide

/-- The block with the coder registers `low`, 400, `outstanding`, 0. -/
def deferring (low : BitVec 10) (outstanding : BitVec 32) : State :=
  block 0x100 0x102 3 { low := low, range := 400, outstanding := outstanding, firstBit := false }

theorem test_witness_EncodeBinEpMeaning : LegalWord 0x09 0x109 ∧ (State.reset.Inv ∧ State.reset.faulted = false ∧ State.reset.configured = false) ∧
    ((deferring 512 12).Inv ∧ (deferring 512 12).Ready ∧ 1024 ≤ 2 * (deferring 512 12).coder.low.toNat ∧
      (deferring 512 12).Room 13 ∧ ¬ (deferring 512 13).Room 14 ∧ (deferring 512 13).Inv ∧ (deferring 512 13).Ready) ∧
    ((deferring 255 12).Inv ∧ 2 * (deferring 255 12).coder.low.toNat < 512 ∧ ¬ (deferring 255 13).Room 14) ∧
    ((deferring 256 0xFFFFFFFF).Inv ∧ (deferring 256 0xFFFFFFFF).Ready ∧ (deferring 511 0xFFFFFFFE).Inv ∧
      2 * (deferring 511 0xFFFFFFFE).coder.low.toNat < 1024 ∧ (deferring 511 0xFFFFFFFE).coder.outstanding.toNat < 2 ^ 32 - 1 ∧
      (deferring 256 0xFFFFFFFF).coder.outstanding.toNat = 2 ^ 32 - 1) := by and_intros <;> decide

theorem test_witness_BypassChoosesHalf : ready.Inv ∧ ready.Ready ∧ ready.coder.firstBit = true ∧
    ∃ t, exec (.encodeBinEp true) ready = .next t ∧ t.faulted = false ∧ Emitted ready t [] := by
  refine ⟨by decide, by decide, by decide, _, rfl, by decide, ?_⟩
  exact State.commit_emitted (s := ready)
    (r := { out := [.rep true 0], coder := { low := 510, range := 510, outstanding := 0, firstBit := false }, response := none })
    (by decide) (by decide) (by decide)

theorem test_witness_SliceFinishMeaning : LegalWord 0x0A 0x0A ∧ (State.reset.Inv ∧ State.reset.faulted = false ∧ State.reset.configured = false) ∧
    ((deferring 100 0xFFFFFFFF).Inv ∧ (deferring 100 0xFFFFFFFF).Ready ∧
      renormE { low := 498, range := 2, outstanding := 0xFFFFFFFF, firstBit := false, out := [] } = .overflow) ∧
    (ready.Inv ∧ ready.Ready ∧ ready.Room 17) ∧ ((block 0x100 0x101 0 coderInit).Inv ∧ (block 0x100 0x101 0 coderInit).Ready ∧
      ¬ (block 0x100 0x101 0 coderInit).Room 16) := by and_intros <;> decide

theorem test_witness_SliceFinishCompletes : ready.Inv ∧ ready.Ready ∧ ready.coder.outstanding.toNat + 7 < 2 ^ 32 ∧
    ready.Room (ready.coder.outstanding.toNat + 17) := by and_intros <;> decide

theorem test_witness_SliceFinishTerminates : ((deferring 100 0xFFFFFFFF).Inv ∧ (deferring 100 0xFFFFFFFF).Ready ∧
      2 ^ 32 ≤ (deferring 100 0xFFFFFFFF).coder.outstanding.toNat + leadingDeferrals 16
        (((deferring 100 0xFFFFFFFF).coder.low.toNat : Int) + (deferring 100 0xFFFFFFFF).coder.range.toNat - 2) 2) ∧
    (ready.Inv ∧ ready.Ready ∧ ready.coder.outstanding.toNat + leadingDeferrals 16
        ((ready.coder.low.toNat : Int) + ready.coder.range.toNat - 2) 2 < 2 ^ 32) := by and_intros <;> decide

theorem test_witness_CodewordDecodes : ready.Inv ∧ ready.Ready ∧ ready.coder = coderInit ∧
    ∃ t, execAll ([Bin.context 0 true, Bin.bypass true].map Bin.instr ++ [.sliceFinish]) ready = some t ∧ t.faulted = false :=
  ⟨by decide, by decide, by decide, _, rfl, by decide⟩

theorem test_witness_FirstBitFlagOnlySetByReset :
    (∃ t, step { ready with port := [0x103] } = .next t ∧ t.coder.firstBit = true) ∧
      ∃ t, step { brim with port := [0x01, 0, 1] } = .next t ∧ t.coder.firstBit = true :=
  ⟨⟨_, rfl, by decide⟩, _, rfl, by decide⟩

theorem test_witness_FaultChangesOnlyStatus : ready.Inv ∧ ready.faulted = false ∧
    (∃ t, step { ready with port := [0x2102] } = .next t ∧ t.faulted = true) ∧
    (∃ t, step { ready with port := [0x0C] } = .next t ∧ t.faulted = true) ∧ faulty.Inv ∧ faulty.faulted = true ∧
    ∃ t, step { faulty with port := [0xB0B] } = .next t ∧ t.faulted = true :=
  ⟨by decide, by decide, ⟨_, rfl, by decide⟩, ⟨_, rfl, by decide⟩, by decide, by decide, _, rfl, by decide⟩

theorem test_witness_FaultedDiscards : faulty.faulted = true ∧ (∃ rest, ({ faulty with port := [0x103] } : State).port = 0x103 :: rest) ∧
    (0x103 : Word).toNat % 256 ≠ 0x01 ∧ (0x103 : Word).toNat % 256 ≠ 0x0B ∧ illegalFirstWord 0x801 = true ∧
    illegalFirstWord 0x701 = false ∧ (0x701 : Word).toNat % 256 = 0x01 ∧ illegalFirstWord 0xFF0B = false ∧
    (0xFF0B : Word).toNat % 256 = 0x0B := ⟨by decide, ⟨_, rfl⟩, by decide⟩

theorem test_witness_UnconfiguredFaults : (Instr.putBits 33 0).isControl = false ∧ State.reset.configured = false ∧
    State.reset.faulted = false := by and_intros <;> decide

theorem test_witness_OnlyGoodResetRecovers : faulty.faulted = true ∧
    ∃ t, step { faulty with port := [0x01, 0, 1] } = .next t ∧ t.faulted = false := ⟨by decide, _, rfl, by decide⟩

theorem test_witness_OperandRangeExactly : ready.Inv ∧ ready.faulted = false ∧ ready.configured = true ∧ State.reset.Inv ∧
    State.reset.faulted = false ∧ (Instr.reset 1 0 0).isReset = true := by and_intros <;> decide

theorem test_witness_NothingOutsideWindow : ready.Inv ∧ (∃ t, step { ready with port := [0x103] } = .next t) ∧ 0xFF < ready.bufStart.toNat ∧
    ready.bufEnd.toNat ≤ 0x200 := ⟨by decide, ⟨_, rfl⟩, by decide⟩

theorem test_witness_EmittedBitsStay : ready.Inv ∧ (∃ t, step { ready with port := [0x103] } = .next t) ∧
    (∀ sbo start stop rest, decode ({ ready with port := [0x103] } : State).port ≠ .command (.reset sbo start stop) rest) ∧
    ready.configured = true ∧ 0x802 < ready.absPos ∧ 8 * ready.bufEnd.toNat ≤ 0x1000 := by
  refine ⟨by decide, ⟨_, rfl⟩, fun sbo start stop rest h => ?_, by decide⟩
  rw [show decode ({ ready with port := [0x103] } : State).port = .command (.putBit true) [] by decide] at h
  cases h

theorem test_witness_LeadingBitsPreserved : ready.Inv ∧ resetWellFormed ready.params 5 0x400 0x404 ∧
    (∀ i ∈ [Instr.putBits 3 6, .putTrailingBits true], i.isReset = false) ∧
    (∃ t, execAll (.reset 5 0x400 0x404 :: [Instr.putBits 3 6, .putTrailingBits true]) ready = some t) ∧
    8 * (0x400 : Word).toNat ≤ 0x2004 ∧ 0x2004 < 8 * (0x400 : Word).toNat + (5 : BitVec 3).toNat :=
  ⟨by decide, by decide, by decide, ⟨_, rfl⟩, by decide⟩

theorem test_witness_NoCommandReadsMemory : (∃ t, exec (.putBits 8 0xA5) ready = .next t) ∧ ready.Inv ∧ 0xFF < ready.bufStart.toNat ∧
    ready.bufEnd.toNat ≤ 0x200 := ⟨⟨_, rfl⟩, by decide⟩

theorem test_witness_OnlyResetMovesWindow : (∃ t, step { ready with port := [0x103] } = .next t) ∧
    ∃ t, step { ready with port := [0x01, 0, 1] } = .next t := ⟨⟨_, rfl⟩, _, rfl⟩

theorem test_witness_CapacityCheck : small.Inv ∧ small.Ready ∧
    (8 * ((small.bufEnd.toNat : Int) - small.bufStart.toNat) < 8 * ((small.curPtr.toNat : Int) - small.bufStart.toNat)
      + small.bitOffset.toNat + (Output.bits [.rep true 14]).length) ∧
    (8 * ((small.curPtr.toNat : Int) - small.bufStart.toNat) + small.bitOffset.toNat + (Output.bits [.rep true 13]).length
      ≤ 8 * ((small.bufEnd.toNat : Int) - small.bufStart.toNat)) := by and_intros <;> decide

theorem test_witness_CursorMovesByEmission : (∃ t, step { State.reset with port := [0x103] } = .next t) ∧ ready.Inv ∧ ready.Ready ∧
    (∃ r, computedOf ready (.putBit true) = some (.done r) ∧ Output.bits r.out ≠ []) ∧
    (∃ t, exec (.putBit true) ready = .next t ∧ t.faulted = false) ∧
    (∃ r, computedOf ready (.putBits 0 0) = some (.done r) ∧ Output.bits r.out = []) ∧
    (∃ t, exec (.putBits 0 0) ready = .next t ∧ t.faulted = false) ∧
    (∃ t, step { ready with port := [] } = .next t) ∧ decode [] = .hold ∧
    (∃ t, step { ready with port := [0x0C] } = .next t) ∧ decode [0x0C] = .illegal [] ∧
    (∃ t, step { ready with port := [0x07] } = .next t) ∧ decode [0x07] = .command .getBitOffset [] ∧
    (∃ t, step { ready with port := [0xA0B] } = .next t) ∧ decode [0xA0B] = .command (.readReg 10) [] ∧
    (∃ t, step { faulty with port := [0x103] } = .next t ∧ t.faulted = true) ∧
    ∃ t, step { ready with port := [0x2102] } = .next t ∧ t.faulted = true :=
  ⟨⟨_, rfl⟩, by decide, by decide, ⟨_, rfl, by decide⟩, ⟨_, rfl, by decide⟩, ⟨_, rfl, by decide⟩, ⟨_, rfl, by decide⟩, ⟨_, rfl⟩,
    by decide, ⟨_, rfl⟩, by decide, ⟨_, rfl⟩, by decide, ⟨_, rfl⟩, by decide, ⟨_, rfl, by decide⟩, _, rfl, by decide⟩

theorem test_witness_HostSeesEmittedBits : ready.Inv ∧ ready.Ready ∧ ready.params.platformCoherent = true ∧
    (∃ r, computedOf ready (.putBit true) = some (.done r) ∧ 0 < (Output.bits r.out).length) ∧
    (∃ t, exec (.putBit true) ready = .next t ∧ t.faulted = false ∧ ∃ u, execAll [.putUe 3, .readReg 4] t = some u) ∧
    ∀ j ∈ [Instr.putUe 3, .readReg 4], j.isReset = false :=
  ⟨by decide, by decide, by decide, ⟨_, rfl, by decide⟩, ⟨_, rfl, by decide, _, rfl⟩, by decide⟩

/-- R65, U2: a host write of a window byte the cursor has not reached starts a new draw and touches no register. -/
theorem test_hostWrite_unemitted : (ready.hostWrite 0x1FF 0xAA).map (fun t => (t.draws, t.mem, t.drawn, t.curPtr)) =
    some (ready.draws + 1, [], [], 0x100) := by decide
/-- R65, U2: a host write of an emitted byte makes its bits a new draw. -/
theorem test_hostWrite_emitted : (({ ready with curPtr := 0x102 } : State).hostWrite 0x100 0xAA).map (fun t => (t.draws, t.drawn)) =
    some (ready.draws + 1, [{ lo := 0x800, hi := 0x808, draw := ready.draws + 1 }]) := by decide

end Sys2Proof.Tests
end

