-- ==== Sys2Proof/Proofs/StateRegisters.lean ====
section
/-! PROOFS. Who writes the state's registers (10_state.md): a failed RESET writes STATUS only (R42); BUF_START, BUF_END and
START_BIT_OFFSET are written by a good RESET only (R21 to R23). -/
namespace Sys2Proof.Machine

/-! ### A failed RESET -/

/-- STATUS after the first fault (R29, R211): CONFIGURED as before, FAULTED, and the fault's own code. -/
theorem State.raise_status_of_not_faulted {s : State} (h : s.faulted = false) (code : FaultCode) :
    (s.raise code).status = statusWord s.configured true (faultNumber code) := by
  simp [State.statusAfterFault, h]

/-- Settles O17: a RESET that fails R191 is the fault OPERAND_RANGE, which changes STATUS only. -/
theorem failedResetOnlyFaults : Obligations.FailedResetOnlyFaults := by
  intro s sbo start stop hbad
  refine ⟨s.raise .operandRange, exec_reset_bad hbad, rfl, s.raise_faulted _, s.raise_configured _, s.raise_faultCode _,
    fun hstatus => ?_, fun hstatus => ?_⟩
  · have hf : s.faulted = false := by simp [State.faulted, hstatus]
    have hc : s.configured = false := by simp [State.configured, hstatus]
    rw [State.raise_status_of_not_faulted hf, hc]
    decide
  · have hf : s.faulted = false := by simp [State.faulted, hstatus]
    have hc : s.configured = true := by simp [State.configured, hstatus]
    rw [State.raise_status_of_not_faulted hf, hc]
    decide

/-! ### The window registers -/

/-- BUF_START, BUF_END and START_BIT_OFFSET of `t` are those of `s` (R21 to R23). -/
def SameWindow (s t : State) : Prop :=
  t.bufStart = s.bufStart ∧ t.bufEnd = s.bufEnd ∧ t.startBitOffset = s.startBitOffset

theorem SameWindow.refl (s : State) : SameWindow s s := ⟨rfl, rfl, rfl⟩

theorem State.raise_sameWindow (s : State) (code : FaultCode) : SameWindow s (s.raise code) := ⟨rfl, rfl, rfl⟩

theorem State.commit_sameWindow (s : State) (r : Result) : SameWindow s (s.commit r) :=
  ⟨s.commit_bufStart r, s.commit_bufEnd r, s.commit_startBitOffset r⟩

/-- An illegal first word is discarded or a fault (R86, R215): neither writes the window registers. -/
theorem State.illegalWord_sameWindow (s : State) : SameWindow s s.illegalWord := by
  unfold State.illegalWord
  split
  · exact .refl s
  · exact s.raise_sameWindow _

/-- A command keeps the window registers, or it is a good RESET, which binds the window. -/
theorem exec_sameWindow_or_bindWindow {i : Instr} {s t : State} (h : exec i s = .next t) :
    SameWindow s t ∨
      ∃ sbo start stop, i = .reset sbo start stop ∧ resetWellFormed s.params sbo start stop ∧
        t = s.bindWindow sbo start stop := by
  obtain ⟨-, -, rfl⟩ | ⟨-, code, rfl⟩ | ⟨-, -, r, -, -, rfl⟩ | hreset | ⟨reg, v, -, -, -, rfl⟩ := exec_cases h
  · exact .inl (.refl t)
  · exact .inl (s.raise_sameWindow code)
  · exact .inl (s.commit_sameWindow r)
  · exact .inr hreset
  · exact .inl ⟨rfl, rfl, rfl⟩

/-- Settles O55: of all that a step can do, only a good RESET binds a window, and it does so from its operands. -/
theorem onlyResetMovesWindow : Obligations.OnlyResetMovesWindow := by
  intro s t hstep
  obtain ⟨-, hs⟩ | ⟨rest, -, hs⟩ | ⟨i, rest, hdecode, hs⟩ := step_cases s
  · cases hs.symm.trans hstep
    exact .inl (SameWindow.refl s)
  · cases hs.symm.trans hstep
    exact .inl (s.consume rest).illegalWord_sameWindow
  · obtain hsame | ⟨sbo, start, stop, rfl, hgood, rfl⟩ := exec_sameWindow_or_bindWindow (hs.symm.trans hstep)
    · exact .inl hsame
    · exact .inr ⟨sbo, start, stop, rest, hdecode, hgood, rfl, rfl, rfl⟩

end Sys2Proof.Machine
end

