-- ==== Sys2Proof/Proofs/MemoryWindow.lean ====
section
/-! PROOFS. Memory and the window (20_memory.md): the capacity check (R59), no store outside the window (R58), no command reads memory
(R51), and the bits before the cursor stay, the leading START_BIT_OFFSET bits among them (R56). -/
namespace Sys2Proof.Machine

/-! ### The capacity check -/

/-- The comparison of R59 on the output's bits is the room left after the cursor. -/
theorem State.pos_add_le_cap_iff (s : State) (out : Output) :
    s.pos + (Output.bits out).length ≤ s.cap ↔ s.Room (Output.len out) := by
  rw [Output.length_bits, ← s.fits_iff, State.fits, decide_eq_true_iff]

/-- Settles O56: an output beyond the capacity is the fault BUFFER_EXHAUSTED, which changes STATUS only; one within it is
committed. -/
theorem capacityCheck : Obligations.CapacityCheck := by
  intro s r ⟨hwf, _, _, hwindow⟩ hready pos cap
  obtain ⟨-, -, hclear⟩ := hwindow hready.1
  have hroom : pos + (Output.bits r.out).length ≤ cap ↔ s.Room (Output.len r.out) := s.pos_add_le_cap_iff r.out
  refine ⟨fun hover => ?_, fun hfit => ?_⟩
  · rw [State.execute_exhausted hready fun h => absurd (hroom.2 h) (not_le.2 hover), State.raise_eq_withFault hready.2]
    rfl
  · have h := hroom.1 hfit
    exact ⟨s.commit r, State.execute_done hready h, (s.commit_faulted r).trans hready.2,
      State.commit_emitted hwf hclear h, s.commit_coder r⟩

/-! ### Stores stay in the window -/

/-- No byte outside the window of `s` differs between `s` and `t` (R58). -/
def StoresInWindow (s t : State) : Prop :=
  ∀ a, a < s.bufStart.toNat ∨ s.bufEnd.toNat ≤ a → Memory.read t.mem a = Memory.read s.mem a

theorem StoresInWindow.of_mem_eq {s t : State} (h : t.mem = s.mem) : StoresInWindow s t := fun a _ => by rw [h]

/-- A commit that fits writes its bits from the cursor to the window's end at most (R52, R59). -/
theorem State.commit_storesInWindow {s : State} {r : Result} (hwf : Memory.wf s.mem = true) (hw : s.WindowLegal)
    (h : s.Room (Output.len r.out)) : StoresInWindow s (s.commit r) := by
  intro a ha
  obtain ⟨-, -, -, hstart, -⟩ := hw
  rw [State.commit_mem]
  refine Memory.read_writeBits _ _ _ hwf fun k hk => ?_
  rw [Output.length_bits] at hk
  unfold State.Room at h
  omega

/-- Only the commit step stores to memory, and a good RESET does not (R190). -/
theorem exec_storesInWindow {i : Instr} {s t : State} (hi : s.Inv) (h : exec i s = .next t) : StoresInWindow s t := by
  obtain ⟨-, -, rfl⟩ | ⟨-, code, rfl⟩ | ⟨hready, -, r, -, hroom, rfl⟩ | ⟨sbo, start, stop, -, -, rfl⟩ |
    ⟨reg, v, -, -, -, rfl⟩ := exec_cases h
  · exact .of_mem_eq rfl
  · exact .of_mem_eq rfl
  · obtain ⟨hwf, -, -, hwindow⟩ := hi
    exact State.commit_storesInWindow hwf (hwindow hready.1).1 hroom
  · exact .of_mem_eq rfl
  · exact .of_mem_eq rfl

@[simp] theorem State.illegalWord_mem (s : State) : s.illegalWord.mem = s.mem := by
  unfold State.illegalWord
  split <;> rfl

/-- Settles O51: a held port and an illegal word store nothing, a command stores in the window. -/
theorem nothingOutsideWindow : Obligations.NothingOutsideWindow := by
  intro s t hi hstep
  obtain ⟨-, hs⟩ | ⟨rest, -, hs⟩ | ⟨i, rest, -, hs⟩ := step_cases s
  · cases hs.symm.trans hstep
    exact StoresInWindow.of_mem_eq rfl
  · cases hs.symm.trans hstep
    exact StoresInWindow.of_mem_eq (State.illegalWord_mem _)
  · exact exec_storesInWindow (s := s.consume rest) hi (hs.symm.trans hstep)

/-! ### No command reads memory -/

/-- `s` with other memory contents: the stored bytes, the listed free regions and the number of the draw. -/
def State.withMemory (s : State) (m : Memory) (rs : List Region) (n : Nat) : State :=
  { s with mem := m, drawn := rs, draws := n }

section
variable (s : State) (m : Memory) (rs : List Region) (n : Nat)

theorem State.withMemory_faulted : (s.withMemory m rs n).faulted = s.faulted := rfl

theorem State.withMemory_configured : (s.withMemory m rs n).configured = s.configured := rfl

theorem State.withMemory_register (k : Nat) : (s.withMemory m rs n).register k = s.register k := rfl

theorem State.withMemory_commit (r : Result) :
    (s.withMemory m rs n).commit r = (s.commit r).withMemory (Memory.writeBits m s.absPos (Output.bits r.out)) rs (n + 1) := by
  unfold State.commit
  cases r.response <;> rfl

theorem computedOf_withMemory (i : Instr) : computedOf (s.withMemory m rs n) i = computedOf s i := by cases i <;> rfl

end

/-- The outcome `o` is that of `t` up to memory contents. -/
def NextUpToMemory (t : State) (o : Host.Outcome State Fault Refusal) : Prop :=
  ∃ m rs n, o = .next (t.withMemory m rs n)

/-- The check of STATUS, the capacity check and the commit read no memory (R80). -/
theorem State.execute_withMemory {s t : State} {c : Computed} (h : s.execute c = .next t) (m : Memory) (rs : List Region)
    (n : Nat) : NextUpToMemory t ((s.withMemory m rs n).execute c) := by
  cases hf : s.faulted
  case true =>
    cases (State.execute_faulted hf c).symm.trans h
    exact ⟨m, rs, n, State.execute_faulted ((s.withMemory_faulted m rs n).trans hf) c⟩
  case false =>
    cases hc : s.configured
    case false =>
      cases (State.execute_unconfigured hf hc c).symm.trans h
      exact ⟨m, rs, n, State.execute_unconfigured ((s.withMemory_faulted m rs n).trans hf)
        ((s.withMemory_configured m rs n).trans hc) c⟩
    case true =>
      have hready : s.Ready := ⟨hc, hf⟩
      have hready' : (s.withMemory m rs n).Ready := hready
      cases c with
      | raise code =>
        cases (State.execute_raise hready code).symm.trans h
        exact ⟨m, rs, n, State.execute_raise hready' code⟩
      | endless => simp [State.execute, hf, hc] at h
      | done r =>
        by_cases hroom : s.Room (Output.len r.out)
        · cases (State.execute_done hready hroom).symm.trans h
          exact ⟨_, _, _, (State.execute_done hready' hroom).trans (by rw [State.withMemory_commit])⟩
        · cases (State.execute_exhausted hready hroom).symm.trans h
          exact ⟨m, rs, n, State.execute_exhausted hready' hroom⟩

/-- RESET checks its operands against the parameters, not against memory (R191). -/
theorem exec_reset_withMemory {sbo : BitVec 3} {start stop : Word} {s t : State}
    (h : exec (.reset sbo start stop) s = .next t) (m : Memory) (rs : List Region) (n : Nat) :
    NextUpToMemory t (exec (.reset sbo start stop) (s.withMemory m rs n)) := by
  by_cases hgood : resetWellFormed s.params sbo start stop
  · have hgood' : resetWellFormed (s.withMemory m rs n).params sbo start stop := hgood
    cases (exec_reset_good hgood).symm.trans h
    exact ⟨_, _, _, exec_reset_good hgood'⟩
  · have hbad' : ¬ resetWellFormed (s.withMemory m rs n).params sbo start stop := hgood
    cases (exec_reset_bad hgood).symm.trans h
    exact ⟨_, _, _, exec_reset_bad hbad'⟩

/-- READ_REG reads a register, and no register holds memory (R193). -/
theorem exec_readReg_withMemory {reg : BitVec 8} {s t : State} (h : exec (.readReg reg) s = .next t) (m : Memory)
    (rs : List Region) (n : Nat) : NextUpToMemory t (exec (.readReg reg) (s.withMemory m rs n)) := by
  simp only [exec, execReadReg, State.withMemory_register] at h ⊢
  cases hv : s.register reg.toNat with
  | none =>
    simp only [hv] at h ⊢
    cases h
    exact ⟨m, rs, n, rfl⟩
  | some v =>
    simp only [hv] at h ⊢
    by_cases hnot : reg ≠ 0 ∧ s.configured = false
    · rw [if_pos hnot] at h
      cases h
      exact ⟨m, rs, n, if_pos hnot⟩
    · rw [if_neg hnot] at h
      cases h
      exact ⟨m, rs, n + 1, if_neg hnot⟩

/-- With other memory contents a command has the same outcome up to memory contents (R51). -/
theorem exec_withMemory {i : Instr} {s t : State} (h : exec i s = .next t) (m : Memory) (rs : List Region) (n : Nat) :
    NextUpToMemory t (exec i (s.withMemory m rs n)) := by
  cases hi : i.isControl
  case false =>
    obtain ⟨c, hc⟩ := computedOf_isSome s hi
    rw [exec_of_computed hc] at h
    rw [exec_of_computed ((computedOf_withMemory s m rs n i).trans hc)]
    exact State.execute_withMemory h m rs n
  case true =>
    cases i <;> simp only [Instr.isControl, Bool.false_eq_true] at hi
    case reset => exact exec_reset_withMemory h m rs n
    case readReg => exact exec_readReg_withMemory h m rs n

/-- Settles O54: the run with other memory contents ends in the same state up to memory contents, and stores are in the window. -/
theorem noCommandReadsMemory : Obligations.NoCommandReadsMemory := by
  intro i s t m rs n h
  obtain ⟨m', rs', n', hu⟩ := exec_withMemory h m rs n
  exact ⟨t.withMemory m' rs' n', hu, rfl, fun hi => exec_storesInWindow hi h⟩

/-! ### Bits before the cursor stay -/

/-- The bit at `P` lies before the cursor of a bound window, and every region of free values listed is clear of the window's rest:
what a later command must leave as it is (R64). -/
structure State.Settled (s : State) (P : Nat) : Prop where
  wf : Memory.wf s.mem = true
  configured : s.configured = true
  clear : s.DrawnClear
  before : P < s.absPos

/-- A bit before the cursor does not depend on the current draw (R57). -/
theorem State.readBit_before {s : State} {P : Nat} (h : P < s.absPos) :
    s.readBit P = (drawAt s.drawn P).elim (Memory.bit s.mem P) fun d => Config.freeBit d P :=
  State.readBit_outside fun _ => .inl h

/-- A commit that fits emits at the cursor, so what lies before it stays (R52, R64). -/
theorem State.commit_settled {s : State} {r : Result} {P : Nat} (hs : s.Settled P) (h : s.Room (Output.len r.out)) :
    (s.commit r).Settled P ∧ (s.commit r).readBit P = s.readBit P := by
  obtain ⟨hwf, hc, hclear, hP⟩ := hs
  refine ⟨⟨?_, by simpa using hc, State.commit_drawnClear hclear h, ?_⟩, ?_⟩
  · rw [State.commit_mem]
    exact Memory.wf_writeBits _ _ hwf
  · rw [State.commit_absPos s r h]
    exact Nat.lt_add_right _ hP
  · obtain ⟨-, -, hkept, -⟩ := State.commit_emitted hwf hclear h
    exact hkept P (.inl hP)

/-- A command other than RESET leaves a bit before the cursor as it is, and before the cursor. -/
theorem exec_settled {i : Instr} {s t : State} {P : Nat} (hi : i.isReset = false) (h : exec i s = .next t) (hs : s.Settled P) :
    t.Settled P ∧ t.readBit P = s.readBit P := by
  obtain ⟨-, -, rfl⟩ | ⟨-, code, rfl⟩ | ⟨-, -, r, -, hroom, rfl⟩ | ⟨sbo, start, stop, rfl, -, rfl⟩ |
    ⟨reg, v, -, -, -, rfl⟩ := exec_cases h
  · exact ⟨hs, rfl⟩
  · exact ⟨⟨hs.wf, (s.raise_configured code).trans hs.configured, hs.clear, hs.before⟩, s.raise_readBit code P⟩
  · exact State.commit_settled hs hroom
  · cases hi
  · have hsettled : ((s.respond v).redraw).Settled P := ⟨hs.wf, hs.configured, hs.clear, hs.before⟩
    exact ⟨hsettled, (State.readBit_before hsettled.before).trans (State.readBit_before hs.before).symm⟩

/-- A run of commands other than RESET leaves a bit before the cursor as it is (R64). -/
theorem execAll_settled {is : List Instr} {s t : State} {P : Nat} (his : ∀ i ∈ is, i.isReset = false)
    (h : execAll is s = some t) (hs : s.Settled P) : t.Settled P ∧ t.readBit P = s.readBit P := by
  induction is generalizing s with
  | nil =>
    cases h
    exact ⟨hs, rfl⟩
  | cons i is ih =>
    rw [List.forall_mem_cons] at his
    cases he : exec i s with
    | next u =>
      obtain ⟨hu, hread⟩ := exec_settled his.1 he hs
      obtain ⟨ht, hread'⟩ := ih his.2 (by simpa [execAll, he, nextState?] using h) hu
      exact ⟨ht, hread'.trans hread⟩
    | fault r => simp [execAll, he, nextState?] at h
    | refused r => simp [execAll, he, nextState?] at h

/-- A good RESET takes the draw of the new window's bits from the cursor on only, so the bits before it read as before (R56). -/
theorem State.bindWindow_settled {s : State} {sbo : BitVec 3} {start stop : Word} {P : Nat} (hwf : Memory.wf s.mem = true)
    (hP : P < 8 * start.toNat + sbo.toNat) :
    (s.bindWindow sbo start stop).Settled P ∧ (s.bindWindow sbo start stop).readBit P = s.readBit P := by
  have hsettled : (s.bindWindow sbo start stop).Settled P :=
    ⟨hwf, s.bindWindow_configured sbo start stop, fun _ hr => regionsMinus_clear hr, hP⟩
  refine ⟨hsettled, ?_⟩
  rw [State.readBit_before hsettled.before, State.bindWindow_drawn, drawAt_regionsMinus_of_outside _ (.inl hP)]
  rfl

/-- Settles O53: the RESET sets the cursor after the leading bits, and no later command writes before the cursor. -/
theorem leadingBitsPreserved : Obligations.LeadingBitsPreserved := by
  intro s t sbo start stop is ⟨hwf, _⟩ hgood his hrun P _ hP
  obtain ⟨hsettled, hread⟩ := State.bindWindow_settled (stop := stop) hwf hP
  rw [execAll, exec_reset_good hgood] at hrun
  exact (execAll_settled his hrun hsettled).2.trans hread

end Sys2Proof.Machine
end

