-- ==== Sys2Proof/Proofs/Encoding.lean ====
section
/-! PROOFS. Encoding (30_encoding.md): which first words are illegal and what they do (R86), the length of a command and the hold of
a RESET (R72), and the operands that are out of range (R87). -/
namespace Sys2Proof.Machine

/-! ### Rows and legal words -/

/-- A row's mask covers the opcode and the bits that the format table of R74 draws as reserved. -/
theorem reservedBits_of_mem_opRows : ∀ r ∈ opRows, r.mask &&& 0xFF = 0xFF ∧ r.pattern &&& 0xFF = r.pattern ∧
    reservedBits r.pattern.toNat = some (r.mask &&& ~~~0xFF) := by
  decide

/-- The opcodes of the format table (R74) are those of the rows. -/
theorem exists_opRow_of_reservedBits {op : Nat} {bits : Word} (h : reservedBits op = some bits) :
    ∃ r ∈ opRows, r.pattern.toNat = op := by
  unfold reservedBits at h
  split at h
  case h_12 => cases h
  all_goals decide

/-- A first word whose opcode has a row is legal when no reserved bit is set (R86). -/
theorem illegalFirstWord_eq_false_iff (w0 : Word) :
    illegalFirstWord w0 = false ↔ ∃ bits, reservedBits (w0.toNat % 256) = some bits ∧ w0 &&& bits = 0 := by
  unfold illegalFirstWord
  cases reservedBits (w0.toNat % 256) <;> simp

/-- A row of the opcode map accepts exactly the legal words of its opcode (R74, R86). -/
theorem accepts_iff_legalWord {r : OpRow} (hr : r ∈ opRows) (w0 : Word) :
    r.accepts w0 = true ↔ LegalWord r.pattern.toNat w0 := by
  obtain ⟨hmask, hpattern, hreserved⟩ := reservedBits_of_mem_opRows r hr
  rw [r.accepts_iff w0 hmask hpattern, LegalWord, illegalFirstWord_eq_false_iff]
  refine and_congr_right fun hop => ?_
  simp [hop, hreserved]

/-- A legal word is accepted by the row of its opcode. -/
theorem exists_accepts_of_legalWord {op : Nat} {w0 : Word} (h : LegalWord op w0) :
    ∃ r ∈ opRows, r.pattern.toNat = op ∧ r.accepts w0 = true := by
  obtain ⟨hop, hlegal⟩ := h
  obtain ⟨bits, hbits, -⟩ := (illegalFirstWord_eq_false_iff w0).1 hlegal
  obtain ⟨r, hr, hpattern⟩ := exists_opRow_of_reservedBits hbits
  exact ⟨r, hr, hpattern.trans hop, (accepts_iff_legalWord hr w0).2 ⟨hpattern.symm, hlegal⟩⟩

/-- An illegal word is accepted by no row. -/
theorem accepts_eq_false_of_illegal {r : OpRow} (hr : r ∈ opRows) {w0 : Word} (h : illegalFirstWord w0 = true) :
    r.accepts w0 = false := by
  rw [← Bool.not_eq_true, accepts_iff_legalWord hr]
  simp [h]

/-! ### What the decoder reads from a first word -/

/-- The one-word decoder reads no command exactly where every row other than RESET's refuses the word. -/
theorem decodeOneWord_eq_none_iff (w0 : Word) :
    decodeOneWord w0 = none ↔ ∀ r ∈ opRows, r ≠ rowReset → r.accepts w0 = false := by
  have hrows : opRows.filter (· ≠ rowReset) = opRows.tail := by decide
  have htail : (∀ r ∈ opRows, r ≠ rowReset → r.accepts w0 = false) ↔ ∀ r ∈ opRows.tail, r.accepts w0 = false := by
    simp [← hrows, List.mem_filter]
  rw [htail]
  simp [decodeOneWord, opRows, ite_eq_iff]

/-- An illegal word is reported as one word (R72, R86). -/
theorem decode_of_illegal {w0 : Word} (h : illegalFirstWord w0 = true) (rest : List Word) :
    decode (w0 :: rest) = .illegal rest := by
  have hreset : rowReset.accepts w0 = false := accepts_eq_false_of_illegal (by decide) h
  have hnone : decodeOneWord w0 = none :=
    (decodeOneWord_eq_none_iff w0).2 fun r hr _ => accepts_eq_false_of_illegal hr h
  rw [decode_oneWord hreset, hnone, Option.elim_none]

/-- A legal word of an opcode other than RESET's is a command of one word (R72). -/
theorem decode_of_legal_oneWord {op : Nat} {w0 : Word} (hop : op ≠ 1) (h : LegalWord op w0) (rest : List Word) :
    ∃ i, decode (w0 :: rest) = .command i rest := by
  obtain ⟨r, hr, hpattern, haccepts⟩ := exists_accepts_of_legalWord h
  have hreset : rowReset.accepts w0 = false := by
    rw [← Bool.not_eq_true, accepts_iff_legalWord (by decide)]
    exact fun hlegal => hop (h.1.symm.trans hlegal.1)
  have hsome : decodeOneWord w0 ≠ none := fun hnone => by
    have hrefused := (decodeOneWord_eq_none_iff w0).1 hnone r hr fun heq => hop (by rw [← hpattern, heq]; rfl)
    simp [hrefused] at haccepts
  obtain ⟨i, hi⟩ := Option.ne_none_iff_exists'.1 hsome
  exact ⟨i, by rw [decode_oneWord hreset, hi, Option.elim_some]⟩

/-- RESET's row accepts the legal words of opcode 1. -/
theorem rowReset_accepts_of_legal {w0 : Word} (h : LegalWord 1 w0) : rowReset.accepts w0 = true :=
  (accepts_iff_legalWord (by decide) w0).2 h

/-- A RESET word without both of its extension words is no command yet (R72). -/
theorem decode_reset_hold {w0 : Word} (h : LegalWord 1 w0) {ws : List Word} (hlen : ws.length < 2) :
    decode (w0 :: ws) = .hold := by
  match ws, hlen with
  | [], _ => simp [decode, rowReset_accepts_of_legal h]
  | [_], _ => simp [decode, rowReset_accepts_of_legal h]

/-- No legal word is reported as illegal (R86). -/
theorem decode_ne_illegal {w0 : Word} (h : illegalFirstWord w0 = false) (rest rest' : List Word) :
    decode (w0 :: rest) ≠ .illegal rest' := by
  by_cases hop : w0.toNat % 256 = 1
  · match rest with
    | start :: stop :: ws => simp [decode_reset (rowReset_accepts_of_legal ⟨hop, h⟩)]
    | [] | [_] => simp [decode_reset_hold ⟨hop, h⟩]
  · obtain ⟨i, hi⟩ := decode_of_legal_oneWord hop ⟨rfl, h⟩ rest
    simp [hi]

/-! ### The step on what the decoder reads -/

/-- With no whole command on the port the block holds its state (R72). -/
theorem step_of_hold {s : State} (h : decode s.port = .hold) : step s = .next s := by
  simp [step, State.fetch, h]

/-- An illegal word is taken from the port (R86). -/
theorem step_of_illegal {s : State} {rest : List Word} (h : decode s.port = .illegal rest) :
    step s = .next (s.consume rest).illegalWord := by
  simp [step, State.fetch, h]

/-- A command is executed once its words are taken from the port (R70). -/
theorem step_of_command {s : State} {i : Instr} {rest : List Word} (h : decode s.port = .command i rest) :
    step s = exec i (s.consume rest) := by
  simp [step, State.fetch, h]

/-- A legal RESET word with both of its extension words is executed as that RESET (R72). -/
theorem step_of_reset {s : State} {w0 start stop : Word} {ws : List Word} (h : LegalWord 1 w0)
    (hport : s.port = w0 :: start :: stop :: ws) :
    step s = exec (.reset (fieldSbo w0) start stop) (s.consume ws) :=
  step_of_command (by rw [hport, decode_reset (rowReset_accepts_of_legal h)])

/-- An illegal word while FAULTED is discarded (R86, R215). -/
theorem State.illegalWord_of_faulted {s : State} (h : s.faulted = true) : s.illegalWord = s := by
  simp [State.illegalWord, h]

/-- An illegal word while not FAULTED is the fault ILLEGAL_COMMAND (R86, R212). -/
theorem State.illegalWord_of_not_faulted {s : State} (h : s.faulted = false) : s.illegalWord = s.withFault 1 := by
  rw [State.illegalWord, h, if_neg Bool.false_ne_true, State.raise_eq_withFault h]
  rfl

/-- Settles O4: the decoder reports exactly the illegal first words, as one word, and the step faults or discards by FAULTED. -/
theorem illegalFirstWords : Obligations.IllegalFirstWords := by
  intro s w0 rest hport
  have hstep (hillegal : illegalFirstWord w0 = true) : step s = .next (s.consume rest).illegalWord :=
    step_of_illegal (by rw [hport, decode_of_illegal hillegal])
  refine ⟨fun hillegal hfaulted => ?_, fun hillegal hfaulted => ?_, fun hlegal => decode_ne_illegal hlegal rest⟩
  · exact (hstep hillegal).trans (congrArg _ (State.illegalWord_of_not_faulted hfaulted))
  · exact (hstep hillegal).trans (congrArg _ (State.illegalWord_of_faulted hfaulted))

/-- Settles O8: the length of a command is the decoder's, and words sent to a held RESET complete it. -/
theorem lengthsAndHold : Obligations.LengthsAndHold := by
  refine ⟨fun op w0 rest hop hlegal => decode_of_legal_oneWord hop hlegal rest,
    fun w0 rest hillegal => decode_of_illegal hillegal rest, fun s w0 start stop ws hlegal => ⟨?_, ?_, ?_, ?_⟩⟩
  · exact step_of_reset hlegal
  · rintro (hport | hport) <;> exact step_of_hold (by rw [hport, decode_reset_hold hlegal (by simp)])
  · exact fun hport => step_of_reset hlegal (by rw [State.hostSend_port, hport]; rfl)
  · exact fun hport => step_of_reset hlegal (by rw [State.hostSend_port, hport]; rfl)

/-! ### Operands out of range -/

/-- A value is -2^31 in two's complement exactly when it is 0x80000000 (R108). -/
theorem toInt_eq_neg_two_pow_iff (value : BitVec 32) : value.toInt = -2 ^ 31 ↔ value = 0x80000000 := by
  rw [← BitVec.toInt_inj]
  exact Iff.rfl

/-- The coder's compute steps never end in OPERAND_RANGE. -/
theorem CoderRun.computed_ne_operandRange (r : CoderRun) (response : Option Word) :
    r.computed response ≠ .raise .operandRange := by
  cases r <;> simp [CoderRun.computed]

/-- THE OPERAND CHECK (R80, R87): a compute step ends in OPERAND_RANGE exactly for an operand outside its legal values. -/
theorem computedOf_eq_operandRange_iff {i : Instr} {s : State} {c : Computed} (h : computedOf s i = some c) :
    c = .raise .operandRange ↔ i.wellFormed s.params = false := by
  cases i <;> simp only [computedOf, Option.some.injEq, reduceCtorEq] at h <;> subst h
  case putBits n value =>
    by_cases hn : n.toNat ≤ 32 <;> simp [computePutBits, State.emitOnly, Instr.wellFormed, hn]
  case putUe value =>
    by_cases hv : value = 0xFFFFFFFF <;> simp [computePutUe, State.emitOnly, Instr.wellFormed, hv]
  case putSe value =>
    rw [computePutSe, ite_cond_congr (propext (toInt_eq_neg_two_pow_iff value))]
    by_cases hv : value = 0x80000000 <;> simp [State.emitOnly, Instr.wellFormed, hv]
  case putBit | putTrailingBits | getBitOffset => exact iff_of_false (by rintro ⟨⟩) Bool.true_eq_false.mp
  case encodeBin ctx bin => exact iff_of_false (CoderRun.computed_ne_operandRange _ _) Bool.true_eq_false.mp
  case encodeBinEp bin =>
    refine iff_of_false ?_ Bool.true_eq_false.mp
    obtain ⟨hc, -⟩ | ⟨d, -, hc⟩ := computeEncodeBinEp_cases s.coder bin <;> simp [hc]
  case sliceFinish =>
    refine iff_of_false ?_ Bool.true_eq_false.mp
    unfold computeSliceFinish
    split <;> exact CoderRun.computed_ne_operandRange _ _

/-- A fault sets FAULTED (R211), so a state that is not FAULTED is not its outcome. -/
theorem State.ne_raise_of_not_faulted {s t : State} (h : t.faulted = false) (code : FaultCode) : t ≠ s.raise code := by
  rintro rfl
  simp at h

/-- Two faults taken while not FAULTED differ when their codes do (R211, R212). -/
theorem State.raise_inj {s : State} (h : s.faulted = false) {a b : FaultCode} : s.raise a = s.raise b ↔ a = b := by
  refine ⟨fun heq => ?_, congrArg _⟩
  have hnumber : faultNumber a = faultNumber b := by simpa [h] using congrArg State.faultCode heq
  revert hnumber
  cases a <;> cases b <;> decide

/-- A Ready block answers OPERAND_RANGE exactly where the compute step raises it: the capacity check, a commit and an endless loop
answer something else. -/
theorem State.execute_eq_operandRange_iff {s : State} (h : s.Ready) (c : Computed) :
    s.execute c = .next (s.raise .operandRange) ↔ c = .raise .operandRange := by
  cases c with
  | raise code => simp [State.execute_raise h, State.raise_inj h.2]
  | endless => simp [State.execute, h.1, h.2]
  | done r =>
    by_cases hroom : s.Room (Output.len r.out)
    · have hne : s.commit r ≠ s.raise .operandRange :=
        State.ne_raise_of_not_faulted ((s.commit_faulted r).trans h.2) _
      simp [State.execute_done h hroom, hne]
    · simp [State.execute_exhausted h hroom, State.raise_inj h.2]

/-- RESET answers OPERAND_RANGE exactly for operands that fail R191, configured or not. -/
theorem exec_reset_eq_operandRange_iff (sbo : BitVec 3) (start stop : Word) (s : State) :
    exec (.reset sbo start stop) s = .next (s.raise .operandRange) ↔ ¬ resetWellFormed s.params sbo start stop := by
  refine ⟨fun h hgood => ?_, exec_reset_bad⟩
  rw [exec_reset_good hgood, Host.Outcome.next.injEq] at h
  exact State.ne_raise_of_not_faulted (s.bindWindow_faulted sbo start stop) _ h

/-- The registers are numbered 0 to 10 (R20). -/
theorem State.register_eq_none_iff (s : State) (n : Nat) : s.register n = none ↔ 10 < n := by
  unfold State.register
  split
  case h_12 =>
    simp only [imp_false] at *
    exact iff_of_true trivial (by omega)
  all_goals simp

/-- READ_REG in a configured block answers OPERAND_RANGE exactly for a register number above 10 (R193). -/
theorem exec_readReg_eq_operandRange_iff {s : State} (h : s.Ready) (reg : BitVec 8) :
    exec (.readReg reg) s = .next (s.raise .operandRange) ↔ 10 < reg.toNat := by
  rw [← s.register_eq_none_iff, exec, execReadReg]
  cases hreg : s.register reg.toNat with
  | none => simp
  | some v =>
    have hne : (s.respond v).redraw ≠ s.raise .operandRange :=
      State.ne_raise_of_not_faulted (t := (s.respond v).redraw) h.2 _
    simp [h.1, hne]

/-- A command with a compute step is no RESET. -/
theorem isReset_eq_false_of_not_control {i : Instr} (h : i.isControl = false) : i.isReset = false := by
  cases i with
  | reset => cases h
  | _ => rfl

/-- Settles O50: by kind of command, RESET, READ_REG or one with a compute step, OPERAND_RANGE is its answer exactly for an
illegal operand. -/
theorem operandRangeExactly : Obligations.OperandRangeExactly := by
  intro i s _ hfaulted hchecked
  have hraise : s.withFault 3 = s.raise .operandRange := (State.raise_eq_withFault hfaulted .operandRange).symm
  rw [hraise]
  cases hcontrol : i.isControl with
  | false =>
    have hready : s.Ready := ⟨hchecked.resolve_right (by simp [isReset_eq_false_of_not_control hcontrol]), hfaulted⟩
    obtain ⟨c, hc⟩ := computedOf_isSome s hcontrol
    rw [exec_of_computed hc, State.execute_eq_operandRange_iff hready, computedOf_eq_operandRange_iff hc]
  | true =>
    cases i with
    | reset sbo start stop => rw [exec_reset_eq_operandRange_iff, Instr.wellFormed, decide_eq_false_iff_not]
    | readReg reg =>
      have hready : s.Ready := ⟨hchecked.resolve_right Bool.false_ne_true, hfaulted⟩
      simp [exec_readReg_eq_operandRange_iff hready, Instr.wellFormed]
    | _ => cases hcontrol

end Sys2Proof.Machine
end

