-- ==== Sys2Proof/Proofs/BitWriter.lean ====
section
/-! PROOFS. The bit-writer commands (40_bitwriter.md): what each one emits, its faults and its frame (R100 to R112), and that none
of them reads or writes the coder registers (R113). -/
namespace Sys2Proof.Machine

/-! ### Decoding a legal one-word command -/

/-- A row accepts a legal word exactly when the opcode is its own: the rows are disjoint (R74). -/
theorem accepts_of_legalWord {op : Nat} {w0 : Word} (h : LegalWord op w0) :
    ∀ r ∈ opRows, r.accepts w0 = decide (r.pattern.toNat = op) := by
  intro r hr
  obtain ⟨hop, hlegal⟩ := h
  rw [Bool.eq_iff_iff, accepts_iff_legalWord hr, decide_eq_true_iff]
  exact ⟨fun hw => hw.1.symm.trans hop, fun hp => ⟨hop.trans hp.symm, hlegal⟩⟩

/-- The one-word command that a first word of opcode `op` stands for, with its fields at their places (R74); RESET, opcode 1, has
three words. -/
def oneWordCommand (op : Nat) (w0 : Word) : Option Instr :=
  match op with
  | 0x02 => some (.putBits (fieldN w0) (fieldValue w0))
  | 0x03 => some (.putBit (fieldBit w0))
  | 0x04 => some (.putUe (fieldValue w0))
  | 0x05 => some (.putSe (fieldValue w0))
  | 0x06 => some (.putTrailingBits (fieldBit w0))
  | 0x07 => some .getBitOffset
  | 0x08 => some (.encodeBin (fieldCtx w0) (fieldBit w0))
  | 0x09 => some (.encodeBinEp (fieldBit w0))
  | 0x0A => some .sliceFinish
  | 0x0B => some (.readReg (fieldReg w0))
  | _ => none

/-- The rows are tried in order, and only the row of the word's own opcode accepts it. -/
theorem decodeOneWord_of_legalWord {op : Nat} {w0 : Word} (h : LegalWord op w0) :
    decodeOneWord w0 = oneWordCommand op w0 := by
  obtain ⟨r, hr, rfl, -⟩ := exists_accepts_of_legalWord h
  have hrows := accepts_of_legalWord h
  simp only [opRows, List.forall_mem_cons] at hrows
  simp only [decodeOneWord, hrows]
  simp only [opRows, List.mem_cons, List.not_mem_nil, or_false] at hr
  obtain rfl | rfl | rfl | rfl | rfl | rfl | rfl | rfl | rfl | rfl | rfl := hr <;> rfl

/-- A legal word of an opcode other than RESET's is read as the command of its opcode (R72, R74). -/
theorem decode_of_legalWord {op : Nat} {w0 : Word} {i : Instr} (hop : op ≠ 1) (h : LegalWord op w0)
    (hi : oneWordCommand op w0 = some i) (rest : List Word) : decode (w0 :: rest) = .command i rest := by
  have hreset : rowReset.accepts w0 = false := by
    rw [accepts_of_legalWord h _ (by decide), decide_eq_false_iff_not]
    exact fun heq => hop heq.symm
  rw [decode_oneWord hreset, decodeOneWord_of_legalWord h, hi, Option.elim_some]

/-! ### What a bit-writer command does by its compute step -/

/-- A command with a compute step is NOT_CONFIGURED (2) before a good RESET (R213). -/
theorem exec_unconfigured {i : Instr} {s : State} (hi : i.isControl = false) (hf : s.faulted = false)
    (hc : s.configured = false) : exec i s = .next (s.withFault 2) := by
  obtain ⟨c, hcomputed⟩ := computedOf_isSome s hi
  rw [exec_of_computed hcomputed, State.execute_unconfigured hf hc, State.raise_eq_withFault hf]
  rfl

/-- A command whose compute step raises OPERAND_RANGE (3) ends in that fault (R80, R214). -/
theorem exec_operandRange {i : Instr} {s : State} (hr : s.Ready) (h : computedOf s i = some (.raise .operandRange)) :
    exec i s = .next (s.withFault 3) := by
  rw [exec_of_computed h, State.execute_raise hr, State.raise_eq_withFault hr.2]
  rfl

/-- A command whose output does not fit is BUFFER_EXHAUSTED (4), and nothing of the output is emitted (R59). -/
theorem exec_exhausted {i : Instr} {s : State} {out : Output} (hr : s.Ready) (h : computedOf s i = some (s.emitOnly out))
    (hroom : ¬ s.Room (Output.len out)) : exec i s = .next (s.withFault 4) := by
  rw [exec_of_computed h, State.emitOnly, State.execute_exhausted hr hroom, State.raise_eq_withFault hr.2]
  rfl

/-- From `s` to `t` exactly `bits` were emitted, and nothing changed but the cursor and memory. -/
def OnlyEmitted (s t : State) (bits : List Bool) : Prop :=
  Emitted s t bits ∧ SameFrame s t ∧ t.coder = s.coder ∧ t.responses = s.responses

/-- A command whose output fits completes: it emits the output and changes nothing but the cursor and memory (R80, R113). -/
theorem exec_emits {i : Instr} {s : State} {out : Output} (hi : s.Inv) (hr : s.Ready)
    (h : computedOf s i = some (s.emitOnly out)) (hroom : s.Room (Output.len out)) :
    ∃ t, exec i s = .next t ∧ OnlyEmitted s t (Output.bits out) := by
  obtain ⟨hwf, -, -, hwindow⟩ := hi
  obtain ⟨-, -, hclear⟩ := hwindow hr.1
  rw [exec_of_computed h, State.emitOnly, State.execute_done hr hroom]
  exact ⟨_, rfl, State.commit_emitted hwf hclear hroom, s.commit_sameFrame _, s.commit_coder _, by simp⟩

/-! ### PUT_BITS and PUT_BIT -/

/-- Settles O20: an `N` above 32 fails the operand check; any other `N` has the `N` bits of one field as its output. -/
theorem putBitsMeaning : Obligations.PutBitsMeaning := by
  refine ⟨fun w0 rest h => decode_of_legalWord (by decide) h rfl rest, fun n value s hi hf => ?_⟩
  have hcomputed (hn : n.toNat ≤ 32) :
      computedOf s (.putBits n value) = some (s.emitOnly [.field n.toNat value.toNat]) :=
    congrArg some (if_neg (not_lt.2 hn))
  refine ⟨exec_unconfigured rfl hf, fun hc hn => ?_, fun hc hn hroom => ?_, fun hc hn hroom => ?_⟩
  · exact exec_operandRange ⟨hc, hf⟩ (congrArg some (if_pos hn))
  · exact exec_exhausted ⟨hc, hf⟩ (hcomputed hn) hroom
  · simpa [OnlyEmitted] using exec_emits hi ⟨hc, hf⟩ (hcomputed hn) hroom

/-- Settles O21: the output is one field of one bit, which always passes the operand check. -/
theorem putBitMeaning : Obligations.PutBitMeaning := by
  refine ⟨fun w0 rest h => decode_of_legalWord (by decide) h rfl rest, fun b s hi hf => ?_⟩
  have hcomputed : computedOf s (.putBit b) = some (s.emitOnly [.field 1 b.toNat]) := rfl
  have hbits : Output.bits [.field 1 b.toNat] = [b] := by cases b <;> rfl
  refine ⟨exec_unconfigured rfl hf, fun hc hroom => exec_exhausted ⟨hc, hf⟩ hcomputed hroom, fun hc hroom => ?_⟩
  rw [← hbits]
  exact exec_emits hi ⟨hc, hf⟩ hcomputed hroom

/-! ### PUT_UE and PUT_SE -/

/-- The bit length of R104 is the only `n ≥ 1` with `2^(n-1) ≤ m < 2^n`. -/
theorem bitLength_eq {m n : Nat} (hn : 1 ≤ n) (hlo : 2 ^ (n - 1) ≤ m) (hhi : m < 2 ^ n) : bitLength m = n := by
  have hm : m ≠ 0 := by have := Nat.two_pow_pos (n - 1); omega
  have hlog : m.log2 = n - 1 := (Nat.log2_eq_iff hm).2 ⟨hlo, by rwa [Nat.sub_add_cancel hn]⟩
  rw [bitLength, hlog, Nat.sub_add_cancel hn]

/-- The model's Exp-Golomb code of `v` is the code of R104 for the bit length of `v + 1`. -/
theorem bits_expGolomb {v n : Nat} (hn : 1 ≤ n) (hlo : 2 ^ (n - 1) ≤ v + 1) (hhi : v + 1 < 2 ^ n) :
    Output.bits (expGolomb v) = ueBits n v := by
  simp [expGolomb, ueBits, bitLength_eq hn hlo hhi]

theorem len_expGolomb {v n : Nat} (hn : 1 ≤ n) (hlo : 2 ^ (n - 1) ≤ v + 1) (hhi : v + 1 < 2 ^ n) :
    Output.len (expGolomb v) = 2 * n - 1 := by
  simp only [expGolomb, bitLength_eq hn hlo hhi, Output.len_cons, Piece.len_rep, Piece.len_field, Output.len_nil]
  omega

/-- A command whose output is the Exp-Golomb code of `v` is BUFFER_EXHAUSTED or emits that code, by the room for its `2n - 1`
bits (R104). -/
theorem exec_expGolomb {i : Instr} {s : State} {v n : Nat} (hi : s.Inv) (hr : s.Ready)
    (h : computedOf s i = some (s.emitOnly (expGolomb v))) (hn : 1 ≤ n) (hlo : 2 ^ (n - 1) ≤ v + 1) (hhi : v + 1 < 2 ^ n) :
    (¬ s.Room (2 * n - 1) → exec i s = .next (s.withFault 4)) ∧
      (s.Room (2 * n - 1) → ∃ t, exec i s = .next t ∧ OnlyEmitted s t (ueBits n v)) := by
  rw [← len_expGolomb hn hlo hhi, ← bits_expGolomb hn hlo hhi]
  exact ⟨exec_exhausted hr h, exec_emits hi hr h⟩

/-- Settles O22: `0xFFFFFFFF` fails the operand check (R106); any other value has its Exp-Golomb code as the output. -/
theorem putUeMeaning : Obligations.PutUeMeaning := by
  refine ⟨fun w0 rest h => decode_of_legalWord (by decide) h rfl rest, fun value s n hi hf => ?_⟩
  refine ⟨exec_unconfigured rfl hf, fun hc hv => ?_, fun hc hv hn hlo hhi => ?_⟩
  · exact exec_operandRange ⟨hc, hf⟩ (congrArg some (if_pos hv))
  · exact exec_expGolomb hi ⟨hc, hf⟩ (congrArg some (if_neg hv)) hn hlo hhi

/-- A natural number equal to the value of R108's formula is the code number of the model. -/
theorem signedCodeNumber_eq {x : Int} {k : Nat} (h : (k : Int) = if 0 < x then 2 * x - 1 else -2 * x) :
    signedCodeNumber x = k := by
  rw [signedCodeNumber, ← apply_ite Int.toNat, ← h, Int.toNat_natCast]

/-- The compute step of PUT_SE, with its operand check on the word (R108). -/
theorem computePutSe_eq (value : BitVec 32) (s : State) :
    computePutSe value s =
      if value = 0x80000000 then .raise .operandRange else s.emitOnly (expGolomb (signedCodeNumber value.toInt)) :=
  ite_cond_congr (propext (toInt_eq_neg_two_pow_iff value))

/-- Settles O23: `-2^31` fails the operand check; any other value has the Exp-Golomb code of its code number as the output. -/
theorem putSeMeaning : Obligations.PutSeMeaning := by
  refine ⟨fun w0 rest h => decode_of_legalWord (by decide) h rfl rest, fun value s n k hi hf => ?_⟩
  refine ⟨exec_unconfigured rfl hf, fun hc hv => ?_, fun hc hv hk hn hlo hhi => ?_⟩
  · exact exec_operandRange ⟨hc, hf⟩ (congrArg some ((computePutSe_eq value s).trans (if_pos hv)))
  · have hcomputed : computedOf s (.putSe value) = some (s.emitOnly (expGolomb k)) := by
      rw [computedOf, computePutSe_eq, if_neg hv, signedCodeNumber_eq hk]
    exact exec_expGolomb hi ⟨hc, hf⟩ hcomputed hn hlo hhi

/-! ### PUT_TRAILING_BITS -/

/-- The cursor is at a byte boundary exactly when its absolute bit position is a multiple of 8 (R24). -/
theorem State.bitOffset_eq_zero_iff (s : State) : s.bitOffset = 0 ↔ s.absPos % 8 = 0 := by
  have hzero : s.bitOffset = 0 ↔ s.bitOffset.toNat = 0 := BitVec.toNat_inj.symm
  rw [hzero, State.absPos]
  omega

/-- An empty output always fits (R24, R59). -/
theorem State.room_zero {s : State} (hi : s.Inv) (hc : s.configured = true) : s.Room 0 := by
  obtain ⟨-, -, -, hwindow⟩ := hi
  obtain ⟨⟨-, -, -, -, hend⟩, -, -⟩ := hwindow hc
  exact hend

/-- The stop bit and the zeros to the next byte boundary (R110). -/
theorem trailingBits_of_emits {ca : Bool} {k : BitVec 3} (h : ca = false ∨ k ≠ 0) :
    Output.bits (trailingBits ca k.toNat) = true :: List.replicate (7 - k.toNat) false ∧
      Output.len (trailingBits ca k.toNat) = 8 - k.toNat := by
  revert ca k
  decide

/-- Settles O24: by whether the output is empty; the cursor ends at a byte boundary because the emitted bits reach one. -/
theorem putTrailingBitsMeaning : Obligations.PutTrailingBitsMeaning := by
  refine ⟨fun w0 rest h => decode_of_legalWord (by decide) h rfl rest, fun ca s hi hf => ?_⟩
  have hcomputed : computedOf s (.putTrailingBits ca) = some (s.emitOnly (trailingBits ca s.bitOffset.toNat)) := rfl
  refine ⟨exec_unconfigured rfl hf, fun hc hca haligned => ?_, fun hc hemits => ?_⟩
  · have hout : trailingBits ca s.bitOffset.toNat = [] := by simp [trailingBits, hca, haligned]
    rw [hout] at hcomputed
    obtain ⟨t, ht, hemitted, hframe, hkept⟩ := exec_emits hi ⟨hc, hf⟩ hcomputed (State.room_zero hi hc)
    refine ⟨t, ht, hemitted, hframe, ?_, hkept⟩
    rw [State.bitOffset_eq_zero_iff] at haligned ⊢
    rw [hemitted.1]
    exact haligned
  · obtain ⟨hbits, hlen⟩ := trailingBits_of_emits hemits
    rw [← hlen, ← hbits]
    refine ⟨exec_exhausted ⟨hc, hf⟩ hcomputed, fun hroom => ?_⟩
    obtain ⟨t, ht, hemitted, hframe, hkept⟩ := exec_emits hi ⟨hc, hf⟩ hcomputed hroom
    refine ⟨t, ht, hemitted, hframe, ?_, hkept⟩
    rw [State.bitOffset_eq_zero_iff, hemitted.1, Output.length_bits, hlen, State.absPos]
    omega

/-! ### GET_BIT_OFFSET -/

/-- BIT_COUNT in a bound window is the number of bits from the RESET's start to the cursor, and fits its response (R30, R191). -/
theorem State.bitCount_toNat {s : State} (hw : s.WindowLegal) :
    (BitVec.ofInt 64 s.bitCount).toNat + (8 * s.bufStart.toNat + s.startBitOffset.toNat) = s.absPos := by
  obtain ⟨-, -, hcap, hstart, hend⟩ := hw
  unfold State.bitCount State.pos
  unfold State.absPos at hstart hend ⊢
  rw [BitVec.toNat_ofInt]
  omega

/-- Emitting nothing leaves the state as it is (R52). -/
@[simp] theorem State.emit_nil (s : State) : s.emit [] = s := by
  have hptr : BitVec.ofNat 64 (s.absPos / 8) = s.curPtr := by
    unfold State.absPos
    bv_omega
  have hoffset : BitVec.ofNat 3 (s.absPos % 8) = s.bitOffset := by
    unfold State.absPos
    bv_omega
  simp [State.emit, Memory.writeBits, hptr, hoffset]

/-- Settles O25: nothing is emitted, so the commit only responds and draws anew. -/
theorem getBitOffsetMeaning : Obligations.GetBitOffsetMeaning := by
  refine ⟨fun w0 rest h => decode_of_legalWord (by decide) h rfl rest, fun s hi hf => ?_⟩
  refine ⟨exec_unconfigured rfl hf, fun hc => ⟨BitVec.ofInt 64 s.bitCount, ?_, ?_⟩⟩
  · have hcomputed : computedOf s .getBitOffset = some (computeGetBitOffset s) := rfl
    have hroom : s.Room (Output.len []) := State.room_zero hi hc
    rw [exec_of_computed hcomputed, computeGetBitOffset, State.execute_done ⟨hc, hf⟩ hroom]
    simp [State.commit, State.respond, State.redraw]
  · obtain ⟨-, -, -, hwindow⟩ := hi
    exact State.bitCount_toNat (hwindow hc).1

/-! ### The coder registers -/

/-- `s` with other coder registers. -/
def State.withCoder (s : State) (r : CoderRegs) : State := { s with coder := r }

/-- The compute step `c`, leaving other coder registers for the commit step. -/
def Computed.withCoder (r : CoderRegs) : Computed → Computed
  | .done q => .done { q with coder := r }
  | .raise code => .raise code
  | .endless => .endless

theorem State.withCoder_commit (s : State) (r : CoderRegs) (q : Result) :
    (s.withCoder r).commit { q with coder := r } = (s.commit q).withCoder r := by
  obtain ⟨out, coder, response⟩ := q
  cases response <;> rfl

/-- The check of STATUS, the capacity check and the commit do not read the coder registers (R80). -/
theorem State.execute_withCoder {s t : State} {c : Computed} (h : s.execute c = .next t) (r : CoderRegs) :
    (s.withCoder r).execute (c.withCoder r) = .next (t.withCoder r) := by
  by_cases hf : s.faulted = true
  · cases (State.execute_faulted hf c).symm.trans h
    exact State.execute_faulted (s := s.withCoder r) hf _
  rw [Bool.not_eq_true] at hf
  by_cases hc : s.configured = true
  · have hr : s.Ready := ⟨hc, hf⟩
    have hr' : (s.withCoder r).Ready := hr
    cases c with
    | raise code =>
      cases (State.execute_raise hr code).symm.trans h
      exact State.execute_raise hr' code
    | endless => simp [State.execute, hc, hf] at h
    | done q =>
      by_cases hroom : s.Room (Output.len q.out)
      · cases (State.execute_done hr hroom).symm.trans h
        rw [← State.withCoder_commit]
        exact State.execute_done hr' hroom
      · cases (State.execute_exhausted hr hroom).symm.trans h
        exact State.execute_exhausted hr' hroom
  · rw [Bool.not_eq_true] at hc
    cases (State.execute_unconfigured hf hc c).symm.trans h
    exact State.execute_unconfigured (s := s.withCoder r) hf hc _

/-- A bit-writer command passes the coder registers on unread: the rest of its compute step does not depend on them (R113). -/
theorem computedOf_withCoder {i : Instr} (hi : i.isBitWriter = true) (s : State) (r : CoderRegs) :
    computedOf (s.withCoder r) i = (computedOf s i).map (Computed.withCoder r) := by
  cases i <;> simp only [Instr.isBitWriter, Bool.false_eq_true] at hi
  case putBits | putUe | putSe =>
    simp only [computedOf, Option.map_some, computePutBits, computePutUe, computePutSe, apply_ite (Computed.withCoder r)]
    rfl
  case putBit | putTrailingBits | getBitOffset => rfl

/-- The compute step of a bit-writer command leaves the coder registers as they are (R113). -/
theorem coder_eq_of_computedOf {i : Instr} (hi : i.isBitWriter = true) {s : State} {q : Result}
    (h : computedOf s i = some (.done q)) : q.coder = s.coder := by
  have hfixed := computedOf_withCoder hi s s.coder
  rw [show s.withCoder s.coder = s from rfl, h, Option.map_some, Computed.withCoder, Option.some.injEq,
    Computed.done.injEq] at hfixed
  exact congrArg Result.coder hfixed

/-- A bit-writer command is no RESET and no READ_REG. -/
theorem isControl_eq_false_of_bitWriter {i : Instr} (hi : i.isBitWriter = true) : i.isControl = false := by
  cases i with
  | reset | readReg => cases hi
  | _ => rfl

/-- A bit-writer command is discarded, or a fault, or the commit of an output with the coder registers as they were. -/
theorem exec_bitWriter_cases {i : Instr} {s t : State} (hi : i.isBitWriter = true) (h : exec i s = .next t) :
    t = s ∨ (∃ code, t = s.raise code) ∨
      ∃ q, s.Ready ∧ q.coder = s.coder ∧ s.Room (Output.len q.out) ∧ t = s.commit q := by
  obtain ⟨c, hc⟩ := computedOf_isSome s (isControl_eq_false_of_bitWriter hi)
  rw [exec_of_computed hc] at h
  obtain ⟨-, rfl⟩ | ⟨-, hraise⟩ | ⟨hr, q, rfl, hroom, rfl⟩ := State.execute_cases h
  · exact .inl rfl
  · exact .inr (.inl hraise)
  · exact .inr (.inr ⟨q, hr, coder_eq_of_computedOf hi hc, hroom, rfl⟩)

/-- With other coder registers a bit-writer command does the same and leaves those as they are (R113). -/
theorem exec_withCoder {i : Instr} {s t : State} (hi : i.isBitWriter = true) (h : exec i s = .next t) (r : CoderRegs) :
    exec i (s.withCoder r) = .next (t.withCoder r) := by
  obtain ⟨c, hc⟩ := computedOf_isSome s (isControl_eq_false_of_bitWriter hi)
  have hc' : computedOf (s.withCoder r) i = some (c.withCoder r) := by
    rw [computedOf_withCoder hi, hc, Option.map_some]
  rw [exec_of_computed hc] at h
  rw [exec_of_computed hc']
  exact State.execute_withCoder h r

/-- A state with the same cursor, memory and readable bits emitted nothing. -/
theorem Emitted.nil {s t : State} (hpos : t.absPos = s.absPos) (hmem : t.mem = s.mem)
    (hread : ∀ P, t.readBit P = s.readBit P) : Emitted s t [] :=
  ⟨hpos, fun k hk => absurd hk k.not_lt_zero, fun P _ => hread P, fun a _ => by rw [hmem]⟩

/-- Settles O30: a discarded command and a fault emit nothing, a commit emits its output. -/
theorem bitWriterIgnoresCoder : Obligations.BitWriterIgnoresCoder := by
  intro i s r hi t h
  obtain rfl | ⟨code, rfl⟩ | ⟨q, hr, hcoder, hroom, rfl⟩ := exec_bitWriter_cases hi h
  · exact ⟨rfl, exec_withCoder hi h r, fun _ => ⟨[], .nil rfl rfl fun _ => rfl⟩⟩
  · exact ⟨rfl, exec_withCoder hi h r, fun _ => ⟨[], .nil rfl rfl (s.raise_readBit code)⟩⟩
  · refine ⟨(s.commit_coder q).trans hcoder, exec_withCoder hi h r, fun ⟨hwf, _, _, hwindow⟩ => ?_⟩
    obtain ⟨-, -, hclear⟩ := hwindow hr.1
    exact ⟨_, State.commit_emitted hwf hclear hroom⟩

end Sys2Proof.Machine
end

