-- ==== Sys2Proof/Proofs/ArithCoder.lean ====
section
/-! PROOFS. The binary arithmetic encoder (41_arith_coder.md): `PutBitC` (R145), the loop of `RenormE` (R146, R148), and what
ENCODE_BIN (R150), ENCODE_BIN_EP (R160) and SLICE_FINISH (R170) emit, respond and leave in the coder registers, with their faults
and their frame. -/
namespace Sys2Proof.Machine

/-! ### PutBitC and RenormE -/

/-- The bits out after `PutBitC(b)` (R145). -/
theorem Coder.bits_putBitC (c : Coder) (b : Bool) :
    Output.bits (c.putBitC b).out =
      Output.bits c.out ++ (if c.firstBit then [] else [b]) ++ List.replicate c.outstanding (!b) := by
  cases h : c.firstBit <;> simp [h]

/-- Settles O31: the bits by whether the first bit is still to come; the other copies by definition. -/
theorem putBitCEmits : Obligations.PutBitCEmits := fun c b => ⟨c.bits_putBitC b, rfl, rfl, rfl, rfl⟩

/-- A loop that has ended with `fuel` passes is not changed by one pass more. -/
theorem renormLoop_succ_of_ended {fuel : Nat} {c : Coder} (h : renormLoop fuel c ≠ .endless) :
    renormLoop (fuel + 1) c = renormLoop fuel c := by
  induction fuel generalizing c with
  | zero =>
    by_cases hr : c.range < 256
    · exact absurd (if_pos hr) h
    · rw [renormLoop, renormLoop, if_neg hr, if_neg hr]
  | succ fuel ih =>
    rw [renormLoop] at h ⊢
    conv_rhs => rw [renormLoop]
    by_cases hr : c.range < 256
    · rw [if_pos hr] at h ⊢
      cases hpass : c.renormPass with
      | none => simp [hr]
      | some d =>
        rw [hpass] at h
        simpa [hr] using ih h
    · simp [hr]

/-- `RenormE` of a positive range by its first pass: the 16 passes of the model are enough (log entry 8). -/
theorem renormE_eq {c : Coder} (h : 0 < c.range) :
    renormE c = if c.range < 256 then c.renormPass.elim .overflow renormE else .ok c := by
  rw [renormE, ← renormLoop_succ_of_ended (RenormE_fuel h), renormLoop]
  cases c.renormPass <;> rfl

/-- A pass with `low` between 256 and 511 defers the decision, or overflows the counter (R146, R148). -/
theorem Coder.renormPass_of_middle {c : Coder} (hlo : ¬ c.low < 256) (hhi : ¬ 512 ≤ c.low) :
    c.renormPass = if 2 ^ 32 ≤ c.outstanding + 1 then none
      else some { c with low := 2 * (c.low - 256), range := 2 * c.range, outstanding := c.outstanding + 1 } := by
  rw [Coder.renormPass, if_neg hlo, if_neg hhi, Coder.defer]
  by_cases ho : 2 ^ 32 ≤ c.outstanding + 1
  · rw [if_pos ho, if_pos (by omega)]; rfl
  · rw [if_neg ho, if_neg (by omega)]; rfl

/-- Settles O32: the loop is its first pass and the rest of it; the pass by where `low` lies. -/
theorem renormE_loop : Obligations.RenormLoop := by
  intro c hpos
  rw [renormE_eq hpos]
  refine if_congr Iff.rfl ?_ rfl
  by_cases hlo : c.low < 256
  · rw [if_pos hlo, Coder.renormPass, if_pos hlo]
    rfl
  · rw [if_neg hlo]
    by_cases hhi : 512 ≤ c.low
    · rw [if_pos hhi, Coder.renormPass, if_neg hlo, if_pos hhi]
      rfl
    · rw [if_neg hhi, Coder.renormPass_of_middle hlo hhi, apply_ite (Option.elim · _ _)]
      rfl

/-! ### What a coder command does by its compute step -/

/-- A command whose counter overflows ends in COUNTER_OVERFLOW (5), and nothing of its output is emitted (R80, R148). -/
theorem exec_counterOverflow {i : Instr} {s : State} (hr : s.Ready) (h : computedOf s i = some (.raise .counterOverflow)) :
    exec i s = .next (s.withFault 5) := by
  rw [exec_of_computed h, State.execute_raise hr, State.raise_eq_withFault hr.2]
  rfl

/-- `RenormE` ends on an interval that is inside (R146, R147). -/
theorem Coder.Inside.renormE_ne_endless {c : Coder} (h : c.Inside) : renormE c ≠ .endless := by
  obtain ⟨-, hpos, -⟩ := h
  exact RenormE_fuel hpos

/-- From `s` to `t` exactly `bits` were emitted, the response was given, and nothing else changed but the cursor, memory and the
coder registers, which are now `regs`. -/
def Committed (s t : State) (bits : List Bool) (response : Option Word) (regs : CoderRegs) : Prop :=
  Emitted s t bits ∧ SameFrame s t ∧ t.responses = response.elim s.responses (s.responses ++ [·]) ∧
    t.coder = regs

/-- A command whose compute step is done is BUFFER_EXHAUSTED (4) or commits its result, by the room for its bits (R59, R80). -/
theorem exec_done {i : Instr} {s : State} {r : Result} {bits : List Bool} (hi : s.Inv) (hr : s.Ready)
    (h : computedOf s i = some (.done r)) (hbits : Output.bits r.out = bits) :
    (¬ s.Room bits.length → exec i s = .next (s.withFault 4)) ∧
      (s.Room bits.length → ∃ t, exec i s = .next t ∧ Committed s t bits r.response r.coder) := by
  obtain ⟨hwf, -, -, hwindow⟩ := hi
  obtain ⟨-, -, hclear⟩ := hwindow hr.1
  subst hbits
  rw [exec_of_computed h, Output.length_bits]
  refine ⟨fun hroom => ?_, fun hroom => ?_⟩
  · rw [State.execute_exhausted hr hroom, State.raise_eq_withFault hr.2]
    rfl
  · refine ⟨s.commit r, State.execute_done hr hroom, State.commit_emitted hwf hclear hroom, s.commit_sameFrame r, ?_,
      s.commit_coder r⟩
    rw [State.commit_responses]
    cases r.response with
    | none => exact List.append_nil _
    | some v => rfl

/-- The coder registers of a configured state that meets the invariant are legal (R147, R175). -/
theorem State.coder_legal {s : State} (hi : s.Inv) (hc : s.configured = true) : s.coder.Legal := by
  obtain ⟨-, -, -, hwindow⟩ := hi
  obtain ⟨-, hlegal, -⟩ := hwindow hc
  exact hlegal

/-! ### ENCODE_BIN -/

/-- A context word in a response (R143): the MPS in bit 6, the state in bits 5:0. -/
theorem packCtx_response_toNat (mps : Bool) (state : BitVec 6) :
    ((packCtx mps state).setWidth 64).toNat = 64 * mps.toNat + state.toNat := by
  have hstate := state.isLt
  have hmps := mps.toNat_lt
  rw [packCtx, BitVec.toNat_setWidth, BitVec.toNat_append, BitVec.toNat_ofBool, ← Nat.shiftLeft_add_eq_or_of_lt hstate,
    Nat.shiftLeft_eq]
  omega

/-- The response of ENCODE_BIN: the new MPS in bit 6 and the new state in bits 5:0 (R143, R150). -/
theorem nextCtx_response_toNat (ctx : BitVec 7) (bin : Bool) :
    ((nextCtx ctx bin).setWidth 64).toNat =
      64 * (if bin ≠ ctxMps ctx ∧ ctxState ctx = 0 then !ctxMps ctx else ctxMps ctx).toNat +
        (if bin = ctxMps ctx then transIdxMps (ctxState ctx) else transIdxLps (ctxState ctx)).toNat := by
  rw [nextCtx]
  by_cases hbin : bin = ctxMps ctx
  · rw [if_pos hbin, packCtx_response_toNat, if_pos hbin, if_neg fun h => h.1 hbin]
  · rw [if_neg hbin, packCtx_response_toNat, if_neg hbin]
    simp [hbin]

/-- The interval of the model as the statement writes it out (R150). -/
theorem chooseInterval_eq (r : CoderRegs) (ctx : BitVec 7) (bin : Bool) :
    chooseInterval r ctx bin =
      { low := r.low.toNat + (if bin = ctxMps ctx then 0 else r.range.toNat - (lpsWidth r ctx : Int))
        range := if bin = ctxMps ctx then r.range.toNat - (lpsWidth r ctx : Int) else lpsWidth r ctx
        outstanding := r.outstanding.toNat, firstBit := r.firstBit, out := [] } := by
  rw [chooseInterval]
  by_cases hbin : bin = ctxMps ctx
  · simp only [if_pos hbin, add_zero]
    rfl
  · simp only [if_neg hbin]
    rfl

/-- Settles O36: the compute step is `RenormE` of the chosen interval, which is inside in a legal state, so that the commit
narrows nothing. -/
theorem encodeBinMeaning : Obligations.EncodeBinMeaning := by
  refine ⟨fun w0 rest h => decode_of_legalWord (by decide) h rfl rest, fun ctx bin s hi hf => ?_⟩
  intro mps state lps c
  have hchosen : chooseInterval s.coder ctx bin = c := chooseInterval_eq s.coder ctx bin
  refine ⟨exec_unconfigured rfl hf, fun hc => ?_⟩
  have hlegal := State.coder_legal hi hc
  obtain ⟨hinside, -⟩ := chooseInterval_spec hlegal ctx bin
  have hcases := computeEncodeBin_cases hlegal ctx bin
  rw [hchosen] at hinside hcases
  refine ⟨hinside.renormE_ne_endless, ?_⟩
  obtain ⟨hcomputed, hover⟩ | ⟨d, hd, hcomputed⟩ := hcases
  · refine ⟨fun _ => exec_counterOverflow ⟨hc, hf⟩ (congrArg some hcomputed), fun d hd => ?_⟩
    cases hover.symm.trans hd
  · refine ⟨fun hover => ?_, fun e he => ?_⟩
    · cases hover.symm.trans hd
    · cases hd.symm.trans he
      obtain ⟨k, hd_inside, -⟩ := renormLoop_spec hd hinside
      obtain ⟨hfull, hfits⟩ := exec_done hi ⟨hc, hf⟩ (i := .encodeBin ctx bin) (congrArg some hcomputed) rfl
      refine ⟨hfull, fun hroom => ?_⟩
      obtain ⟨t, ht, hemitted, hframe, hresponse, hcoder⟩ := hfits hroom
      refine ⟨t, _, ht, hemitted, hframe, hresponse, nextCtx_response_toNat ctx bin, ?_⟩
      rw [hcoder]
      exact ⟨Coder.store_low hd_inside, Coder.store_range hd_inside, Coder.store_outstanding hd_inside, rfl⟩

/-! ### ENCODE_BIN_EP -/

/-- The doubled `low` of ENCODE_BIN_EP, the range added for a 1 (R160). -/
def CoderRegs.bypassLow (r : CoderRegs) (bin : Bool) : Nat := 2 * r.low.toNat + if bin then r.range.toNat else 0

/-- The local copies loaded from the registers, with another `low`. -/
def CoderRegs.loadLow (r : CoderRegs) (low : Nat) : Coder := { r.load with low := low }

@[simp] theorem CoderRegs.loadLow_low (r : CoderRegs) (low : Nat) : (r.loadLow low).low = low := rfl

theorem bypassDouble_load (r : CoderRegs) (bin : Bool) : bypassDouble r.load bin = r.loadLow (r.bypassLow bin) := by
  cases bin <;> simp [bypassDouble, CoderRegs.loadLow, CoderRegs.bypassLow]

section
variable {r : CoderRegs} {low : Nat}

/-- A doubled `low` from 1024 on decides for a 1 (R160). -/
theorem CoderRegs.bypassDecide_one (h : 1024 ≤ low) :
    (r.loadLow low).bypassDecide = some ((r.loadLow (low - 1024)).putBitC true) := by
  have hlow : ((low - 1024 : Nat) : Int) = low - 1024 := by omega
  rw [Coder.bypassDecide, CoderRegs.loadLow_low, if_pos (by omega), CoderRegs.loadLow, CoderRegs.loadLow, hlow]

/-- A doubled `low` below 512 decides for a 0 (R160). -/
theorem CoderRegs.bypassDecide_zero (h : low < 512) : (r.loadLow low).bypassDecide = some ((r.loadLow low).putBitC false) := by
  rw [Coder.bypassDecide, CoderRegs.loadLow_low, if_neg (by omega), if_pos (by omega)]

/-- A doubled `low` from 512 to 1023 defers the decision (R160). -/
theorem CoderRegs.bypassDecide_defer (hlo : 512 ≤ low) (hhi : low < 1024) :
    (r.loadLow low).bypassDecide =
      if r.outstanding.toNat = 2 ^ 32 - 1 then none
      else some { r.loadLow (low - 512) with outstanding := r.outstanding.toNat + 1 } := by
  have hlt := r.outstanding.isLt
  have hlow : ((low - 512 : Nat) : Int) = low - 512 := by omega
  rw [Coder.bypassDecide, CoderRegs.loadLow_low, if_neg (by omega), if_neg (by omega), Coder.defer, CoderRegs.loadLow,
    CoderRegs.loadLow, hlow, CoderRegs.load_outstanding]
  exact ite_cond_congr (propext (by omega))

/-- The registers stored from copies that have the range as it was loaded (R160: CODE_RANGE is not written). -/
theorem CoderRegs.store_loadLow (bo : Nat) (fbf : Bool) (out : Output) :
    Coder.store { r.loadLow low with outstanding := bo, firstBit := fbf, out := out } =
      { low := BitVec.ofNat 10 low, range := r.range, outstanding := BitVec.ofNat 32 bo, firstBit := fbf } := by
  simp [Coder.store, CoderRegs.loadLow]

end

/-- The compute step of ENCODE_BIN_EP is its decision (R160). -/
theorem computedOf_encodeBinEp (s : State) (bin : Bool) :
    computedOf s (.encodeBinEp bin) =
      some ((s.coder.loadLow (s.coder.bypassLow bin)).bypassDecide.elim (.raise .counterOverflow) fun d =>
        .done { out := d.out, coder := d.store, response := none }) := by
  rw [computedOf, computeEncodeBinEp, bypassDouble_load]
  cases (s.coder.loadLow (s.coder.bypassLow bin)).bypassDecide <;> rfl

/-- ENCODE_BIN_EP where it decides for the bit `b`: what goes out by `PutBitC` from the registers, and the registers then. -/
theorem exec_encodeBinEp_put {s : State} {bin b : Bool} {low : Nat} (hi : s.Inv) (hr : s.Ready)
    (h : (s.coder.loadLow (s.coder.bypassLow bin)).bypassDecide = some ((s.coder.loadLow low).putBitC b)) :
    let bits := (if s.coder.firstBit then [] else [b]) ++ List.replicate s.coder.outstanding.toNat (!b)
    (¬ s.Room bits.length → exec (.encodeBinEp bin) s = .next (s.withFault 4)) ∧
      (s.Room bits.length → ∃ t, exec (.encodeBinEp bin) s = .next t ∧ Committed s t bits none
        { low := BitVec.ofNat 10 low, range := s.coder.range, outstanding := 0, firstBit := false }) := by
  have hcomputed := computedOf_encodeBinEp s bin
  rw [h, Option.elim_some, Coder.putBitC, CoderRegs.store_loadLow] at hcomputed
  exact exec_done hi hr hcomputed ((s.coder.loadLow low).bits_putBitC b)

/-- Settles O39 by where the doubled `low` lies: the bit goes out by `PutBitC`, or the decision is deferred. -/
theorem encodeBinEpMeaning : Obligations.EncodeBinEpMeaning := by
  refine ⟨fun w0 rest h => decode_of_legalWord (by decide) h rfl rest, fun bin s hi hf => ?_⟩
  refine ⟨exec_unconfigured rfl hf, fun hc hone => ?_, fun hc hzero => ?_, fun hc hlo hhi => ?_⟩
  · exact exec_encodeBinEp_put hi ⟨hc, hf⟩ (CoderRegs.bypassDecide_one hone)
  · exact exec_encodeBinEp_put hi ⟨hc, hf⟩ (CoderRegs.bypassDecide_zero hzero)
  · have hcomputed := computedOf_encodeBinEp s bin
    rw [CoderRegs.bypassDecide_defer (low := s.coder.bypassLow bin) hlo hhi] at hcomputed
    refine ⟨fun hmax => ?_, fun hlt => ?_⟩
    · rw [if_pos hmax] at hcomputed
      exact exec_counterOverflow ⟨hc, hf⟩ hcomputed
    · rw [if_neg hlt.ne, Option.elim_some, CoderRegs.store_loadLow] at hcomputed
      exact (exec_done hi ⟨hc, hf⟩ hcomputed rfl).2 (State.room_zero hi hc)

/-! ### SLICE_FINISH -/

/-- From a range of 2 the loop of `RenormE` doubles seven times (R146, R170). -/
theorem renormE_range_of_two {c d : Coder} (hi : c.Inside) (hr : c.range = 2) (h : renormE c = .ok d) :
    d.range = 256 := by
  obtain ⟨k, ⟨-, -, hmax, -⟩, hmin, hrange, -⟩ := renormLoop_spec h hi
  rw [hr, ← pow_succ] at hrange
  have hlo : 7 < k + 1 := (pow_lt_pow_iff_right₀ (show (1 : Int) < 2 by decide)).1 (by omega)
  have hhi : k + 1 < 9 := (pow_lt_pow_iff_right₀ (show (1 : Int) < 2 by decide)).1 (by omega)
  obtain rfl : k = 7 := by omega
  exact hrange

/-- The bits before the stop bit: bit 9 of `low` through `PutBitC`, then bit 8 (R170). -/
def Coder.flushBody (c : Coder) : List Bool :=
  Output.bits (c.putBitC (decide (c.low / 512 % 2 = 1))).out ++ [decide (c.low / 256 % 2 = 1)]

/-- The flush is the two bits of `low`, the stop bit and zeros to the next byte boundary (R110, R170). -/
theorem Coder.bits_flush (c : Coder) (offset : Nat) :
    Output.bits (c.flush offset).out =
      c.flushBody ++ true :: List.replicate (7 - (offset + c.flushBody.length) % 8) false := by
  have hbit (b : Bool) : bitsOf 1 b.toNat = [b] := by cases b <;> rfl
  have hbody : Output.bits ((c.putBitC (intBit c.low 9)).out ++ [.field 1 (intBit c.low 8).toNat]) = c.flushBody := by
    simp only [Output.bits_append, Output.bits_cons, Output.bits_nil, Piece.bits_field, hbit, List.append_nil]
    rfl
  obtain ⟨htrailing, -⟩ :=
    trailingBits_of_emits (k := BitVec.ofNat 3 (offset + c.flushBody.length)) (.inl (rfl : false = false))
  rw [BitVec.toNat_ofNat] at htrailing
  rw [← htrailing, ← hbody, Output.length_bits]
  exact Output.bits_append _ _

/-- Settles O41: the compute step is the flush of `RenormE`'s end, which has a range of 256 and is stored without loss; the
cursor ends at a byte boundary because the padding reaches one. -/
theorem sliceFinishMeaning : Obligations.SliceFinishMeaning := by
  refine ⟨fun w0 rest h => decode_of_legalWord (by decide) h rfl rest, fun s hi hf => ?_⟩
  refine ⟨exec_unconfigured rfl hf, fun hc => ?_⟩
  have hlegal := State.coder_legal hi hc
  obtain ⟨hinside, htwo, -⟩ := chooseTerminate_spec hlegal
  refine ⟨hinside.renormE_ne_endless, ?_⟩
  obtain ⟨hcomputed, hover⟩ | ⟨d, hd, hcomputed⟩ := computeSliceFinish_cases hlegal s.bitOffset.toNat
  · refine ⟨fun _ => exec_counterOverflow ⟨hc, hf⟩ (congrArg some hcomputed), fun d hd => ?_⟩
    cases hover.symm.trans hd
  · refine ⟨fun hover => ?_, fun e he => ?_⟩
    · cases hover.symm.trans hd
    · cases hd.symm.trans he
      intro body out
      have hrange : d.range = 256 := renormE_range_of_two hinside htwo hd
      obtain ⟨k, hd_inside, -⟩ := renormLoop_spec hd hinside
      obtain ⟨hfull, hfits⟩ := exec_done hi ⟨hc, hf⟩ (i := .sliceFinish) (congrArg some hcomputed) (d.bits_flush _)
      refine ⟨hrange, hfull, fun hroom => ?_⟩
      obtain ⟨t, ht, hemitted, hframe, hresponse, hcoder⟩ := hfits hroom
      refine ⟨t, ht, hemitted, hframe, hresponse, ?_⟩
      rw [hcoder, State.bitOffset_eq_zero_iff, hemitted.1]
      refine ⟨Coder.store_low (Coder.flush_inside hd_inside _), ?_, rfl, rfl, ?_⟩
      · rw [Coder.store, Coder.flush_range, hrange]
        rfl
      · rw [List.length_append, List.length_cons, List.length_replicate, State.absPos]
        omega

end Sys2Proof.Machine
end

