-- ==== Sys2Proof/Proofs/Control.lean ====
section
/-! PROOFS. The control commands (42_control.md): RESET and READ_REG, what each writes, answers and leaves (R190, R193), and that every
command is followed by the next one on the port (R197). -/
namespace Sys2Proof.Machine

/-! ### The next command -/

/-- What a command does once its words are taken leaves the words behind them and the index (R38, R197). -/
theorem exec_port_index {i : Instr} {s t : State} (h : exec i s = .next t) : t.port = s.port ∧ t.index = s.index := by
  obtain ⟨-, -, rfl⟩ | ⟨-, code, rfl⟩ | ⟨-, -, r, -, -, rfl⟩ | ⟨sbo, start, stop, -, -, rfl⟩ |
    ⟨reg, v, -, -, -, rfl⟩ := exec_cases h
  · exact ⟨rfl, rfl⟩
  · exact ⟨rfl, rfl⟩
  · exact ⟨s.commit_port r, s.commit_index r⟩
  · exact ⟨rfl, rfl⟩
  · exact ⟨rfl, rfl⟩

/-- An illegal first word, discarded or a fault, leaves the words behind it and the index (R86, R197). -/
theorem State.illegalWord_port_index (s : State) : s.illegalWord.port = s.port ∧ s.illegalWord.index = s.index := by
  unfold State.illegalWord
  split <;> exact ⟨rfl, rfl⟩

/-- Settles O9: the step takes the command's words and advances the index, and what it does then leaves both. -/
theorem nextCommandFollows : Obligations.NextCommandFollows := by
  intro s t hstep
  refine ⟨fun i rest hdecode => ?_, fun rest hdecode => ?_⟩
  · rw [step_of_command hdecode] at hstep
    exact exec_port_index hstep
  · rw [step_of_illegal hdecode] at hstep
    cases hstep
    exact (s.consume rest).illegalWord_port_index

/-! ### RESET -/

/-- A good RESET draws anew the new window's bits from the cursor on only: every other bit reads as before (R57, R190). -/
theorem State.bindWindow_readBit {s : State} {sbo : BitVec 3} {start stop : Word} {P : Nat}
    (hP : P < 8 * start.toNat + sbo.toNat ∨ 8 * stop.toNat ≤ P) :
    (s.bindWindow sbo start stop).readBit P = s.readBit P := by
  rw [State.readBit_outside fun _ => hP, State.bindWindow_drawn, drawAt_regionsMinus_of_outside _ hP]
  rfl

/-- Settles O16: good operands bind the window, which neither responds nor stores; bad ones are the fault OPERAND_RANGE. -/
theorem resetMeaning : Obligations.ResetMeaning := by
  refine ⟨fun w0 start stop rest hlegal => decode_reset (rowReset_accepts_of_legal hlegal) start stop rest,
    fun s sbo start stop => ⟨fun hgood => ?_, fun hbad => ?_⟩⟩
  · exact ⟨s.bindWindow sbo start stop, exec_reset_good hgood, rfl, rfl, rfl, rfl, rfl, rfl, rfl, rfl, rfl, rfl, rfl, rfl,
      fun P hP => State.bindWindow_readBit hP⟩
  · exact ⟨s.raise .operandRange, exec_reset_bad hbad, rfl, fun hf => State.raise_eq_withFault hf _⟩

/-! ### READ_REG -/

/-- READ_REG answers a register's value in every state of STATUS: STATUS always, another register once configured (R31, R193). -/
theorem exec_readReg_of_register {s : State} {reg : BitVec 8} {v : Word} (hv : s.register reg.toNat = some v)
    (hc : reg = 0 ∨ s.configured = true) : exec (.readReg reg) s = .next (s.respond v).redraw := by
  have hreadable : ¬ (reg ≠ 0 ∧ s.configured = false) := fun ⟨hreg, hunconfigured⟩ =>
    Bool.false_ne_true (hunconfigured.symm.trans (hc.resolve_left hreg))
  simp only [exec, execReadReg, hv, if_neg hreadable]

/-- READ_REG of a number above 10 is OPERAND_RANGE, configured or not (R193). -/
theorem exec_readReg_operandRange {reg : BitVec 8} (h : 10 < reg.toNat) (s : State) :
    exec (.readReg reg) s = .next (s.raise .operandRange) := by
  simp only [exec, execReadReg, (s.register_eq_none_iff _).2 h]

/-- A number up to 10 is a register's (R20). -/
theorem State.exists_register {n : Nat} (h : n ≤ 10) (s : State) : ∃ v, s.register n = some v :=
  Option.ne_none_iff_exists'.1 fun hnone => absurd ((s.register_eq_none_iff n).1 hnone) (not_lt.2 h)

/-- READ_REG of registers 1 to 10 before a good RESET is NOT_CONFIGURED (R31, R193). -/
theorem exec_readReg_notConfigured {s : State} {reg : BitVec 8} (hn : reg.toNat ≤ 10) (hreg : reg ≠ 0)
    (hc : s.configured = false) : exec (.readReg reg) s = .next (s.raise .notConfigured) := by
  obtain ⟨v, hv⟩ := s.exists_register hn
  simp only [exec, execReadReg, hv, if_pos (And.intro hreg hc)]

/-- STATUS is made of its fields when its reserved bits are 0 (R29). -/
theorem State.status_eq_statusWord {s : State} (h : s.status.extractLsb' 2 2 = 0) :
    s.status = statusWord s.configured s.faulted s.faultCode := by
  have hwords : ∀ w : BitVec 8, w.extractLsb' 2 2 = 0 →
      w = statusWord (w.getLsbD 0) (w.getLsbD 1) (w.extractLsb' 4 4) := by decide
  exact hwords s.status h

/-- A fault raised while FAULTED keeps the code, and so changes nothing (R211). -/
theorem State.raise_of_faulted {s : State} (h : s.StatusLegal) (hf : s.faulted = true) (code : FaultCode) :
    s.raise code = s := by
  obtain ⟨hreserved, -, -⟩ := h
  have hstatus := State.status_eq_statusWord hreserved
  rw [hf] at hstatus
  rw [State.raise, State.statusAfterFault, hf, if_pos rfl, ← hstatus]

/-- Settles O18: the number names a register or is OPERAND_RANGE, and the response is the register zero-extended. -/
theorem readRegMeaning : Obligations.ReadRegMeaning := by
  refine ⟨fun w0 rest h => decode_of_legalWord (by decide) h rfl rest, fun s reg => ⟨fun hn hc => ?_, ?_, ?_, ?_⟩⟩
  · obtain ⟨v, hv⟩ := s.exists_register hn
    have hvalue {n : BitVec 8} {w : Word} (hreg : reg = n) (hw : s.register n.toNat = some w) : v = w := by
      subst hreg
      exact Option.some.inj (hv.symm.trans hw)
    have hextended {n : BitVec 8} {w : Nat} {x : BitVec w} (hreg : reg = n) (hx : s.register n.toNat = some (x.setWidth 64))
        (hw : w ≤ 64) : v.toNat = x.toNat := by
      rw [hvalue hreg hx, BitVec.toNat_setWidth_of_le hw]
    refine ⟨v, exec_readReg_of_register hv hc, fun h => hextended h rfl (by decide), fun h => hvalue h rfl,
      fun h => hvalue h rfl, fun h => hextended h rfl (by decide), fun h => hvalue h rfl,
      fun h => hextended h rfl (by decide), fun h => hextended h rfl (by decide), fun h => hextended h rfl (by decide),
      fun h => hextended h rfl (by decide), fun h => ?_, fun h hi => ?_⟩
    · rw [hextended h rfl (by decide), BitVec.toNat_ofBool]
    · have hconfigured : s.configured = true := hc.resolve_left (by rw [h]; decide)
      obtain ⟨-, -, -, hwindow⟩ := hi
      have hcount := State.bitCount_toNat (hwindow hconfigured).1
      rw [hvalue h rfl]
      omega
  · intro hn hf
    rw [exec_readReg_operandRange hn, State.raise_eq_withFault hf]
    rfl
  · intro hn hreg hc hf
    rw [exec_readReg_notConfigured hn hreg hc, State.raise_eq_withFault hf]
    rfl
  · rintro hfails ⟨-, -, hlegal, -⟩ hf
    by_cases hn : 10 < reg.toNat
    · rw [exec_readReg_operandRange hn, State.raise_of_faulted hlegal hf]
    · obtain ⟨hreg, hc⟩ := hfails.resolve_left hn
      rw [exec_readReg_notConfigured (not_lt.1 hn) hreg hc, State.raise_of_faulted hlegal hf]

end Sys2Proof.Machine
end

