-- ==== Sys2Proof/Proofs/Exceptions.lean ====
section
/-! PROOFS. Faults (60_exceptions.md): what a fault changes (R211), what is discarded while FAULTED (R215) and what clears it (R216);
and the block that waits for a whole command (R229). -/
namespace Sys2Proof.Machine

/-! ### No whole command on the port -/

/-- Settles O7: the decoder finds no command on an empty port, nor in a RESET word without both of its extension words. -/
theorem stepHoldsWithoutCommand : Obligations.StepHoldsWithoutCommand := by
  rintro s (hport | ⟨w0, hop, hlegal, hport | ⟨w1, hport⟩⟩)
  · exact step_of_hold (by rw [hport, decode])
  · exact step_of_hold (by rw [hport, decode_reset_hold ⟨hop, hlegal⟩ (by simp)])
  · exact step_of_hold (by rw [hport, decode_reset_hold ⟨hop, hlegal⟩ (by simp)])

/-! ### Taking a fault -/

/-- A command that sets FAULTED takes a fault, and does nothing else (R211). -/
theorem exec_eq_raise {i : Instr} {s t : State} (hs : s.faulted = false) (h : exec i s = .next t) (ht : t.faulted = true) :
    ∃ code, t = s.raise code := by
  obtain ⟨hf, -, -⟩ | ⟨-, hraise⟩ | ⟨-, -, r, -, -, rfl⟩ | ⟨sbo, start, stop, -, -, rfl⟩ | ⟨reg, v, -, -, -, rfl⟩ :=
    exec_cases h
  · simp [hs] at hf
  · exact hraise
  · simp [hs] at ht
  · simp at ht
  · exact absurd (hs.symm.trans ht) Bool.false_ne_true

/-- A step that sets FAULTED takes the command's words from the port and takes a fault, and does nothing else (R211). -/
theorem step_eq_raise {s t : State} (hs : s.faulted = false) (h : step s = .next t) (ht : t.faulted = true) :
    ∃ code rest, t = (s.consume rest).raise code := by
  obtain ⟨-, hstep⟩ | ⟨rest, -, hstep⟩ | ⟨i, rest, -, hstep⟩ := step_cases s
  · cases hstep.symm.trans h
    exact absurd (hs.symm.trans ht) Bool.false_ne_true
  · cases hstep.symm.trans h
    exact ⟨.illegalCommand, rest, if_neg (by simp [hs])⟩
  · obtain ⟨code, hraise⟩ := exec_eq_raise (s := s.consume rest) hs (hstep.symm.trans h) ht
    exact ⟨code, rest, hraise⟩

/-- A command that leaves FAULTED set leaves all of STATUS, the recorded code with it (R211, R215). -/
theorem exec_status_of_faulted {i : Instr} {s t : State} (hlegal : s.StatusLegal) (hs : s.faulted = true)
    (h : exec i s = .next t) (ht : t.faulted = true) : t.status = s.status := by
  obtain ⟨-, -, rfl⟩ | ⟨-, code, rfl⟩ | ⟨hready, -, -⟩ | ⟨sbo, start, stop, -, -, rfl⟩ | ⟨reg, v, -, -, -, rfl⟩ :=
    exec_cases h
  · rfl
  · rw [State.raise_of_faulted hlegal hs]
  · exact absurd (hready.2.symm.trans hs) Bool.false_ne_true
  · simp at ht
  · rfl

/-- A step that leaves FAULTED set leaves all of STATUS. -/
theorem step_status_of_faulted {s t : State} (hlegal : s.StatusLegal) (hs : s.faulted = true) (h : step s = .next t)
    (ht : t.faulted = true) : t.status = s.status := by
  obtain ⟨-, hstep⟩ | ⟨rest, -, hstep⟩ | ⟨i, rest, -, hstep⟩ := step_cases s
  · cases hstep.symm.trans h
    rfl
  · cases hstep.symm.trans h
    rw [State.illegalWord_of_faulted (s := s.consume rest) hs, State.consume_status]
  · exact exec_status_of_faulted (s := s.consume rest) hlegal hs (hstep.symm.trans h) ht

/-- The codes of the five causes (R212). -/
theorem faultNumber_bounds (code : FaultCode) : 1 ≤ (faultNumber code).toNat ∧ (faultNumber code).toNat ≤ 5 := by
  cases code <;> decide

/-- Settles O46: the step that sets FAULTED is `raise` on the consumed port, and later steps keep STATUS until a good RESET. -/
theorem faultChangesOnlyStatus : Obligations.FaultChangesOnlyStatus := by
  intro s t ⟨_, _, hlegal, _⟩ hstep ht
  refine ⟨fun hs => ?_, fun hs => step_status_of_faulted hlegal hs hstep ht⟩
  obtain ⟨code, rest, rfl⟩ := step_eq_raise hs hstep ht
  obtain ⟨hlow, hhigh⟩ := faultNumber_bounds code
  exact ⟨faultNumber code, hlow, hhigh, State.raise_eq_withFault (s := s.consume rest) hs code⟩

/-! ### While FAULTED -/

/-- A command other than RESET and READ_REG is discarded while FAULTED (R215). -/
theorem exec_of_faulted {i : Instr} {s : State} (hi : i.isControl = false) (hs : s.faulted = true) :
    exec i s = .next s := by
  obtain ⟨c, hc⟩ := computedOf_isSome s hi
  rw [exec_of_computed hc, State.execute_faulted hs]

/-- The opcodes other than those of RESET and READ_REG are those of the commands with a compute step (R74). -/
theorem exists_oneWordCommand_not_control {op : Nat} {w0 : Word} (h : LegalWord op w0) (hreset : op ≠ 0x01)
    (hreadReg : op ≠ 0x0B) : ∃ i, oneWordCommand op w0 = some i ∧ i.isControl = false := by
  obtain ⟨r, hr, rfl, -⟩ := exists_accepts_of_legalWord h
  simp only [opRows, List.mem_cons, List.not_mem_nil, or_false] at hr
  obtain rfl | rfl | rfl | rfl | rfl | rfl | rfl | rfl | rfl | rfl | rfl := hr
  · exact absurd rfl hreset
  iterate 9 exact ⟨_, rfl, rfl⟩
  · exact absurd rfl hreadReg

/-- Settles O47: by the kind of first word, illegal, with a compute step, RESET or READ_REG. -/
theorem faultedDiscards : Obligations.FaultedDiscards := by
  intro s w0 rest hs hport
  refine ⟨fun hword => ?_, fun hlegal hop start stop ws hrest => ?_, fun hlegal hop => ?_⟩
  · cases hlegal : illegalFirstWord w0 with
    | true =>
      obtain ⟨-, hdiscard, -⟩ := illegalFirstWords s w0 rest hport
      exact hdiscard hlegal hs
    | false =>
      obtain ⟨hreset, hreadReg⟩ := hword.resolve_left (by simp [hlegal])
      obtain ⟨i, hi, hcontrol⟩ := exists_oneWordCommand_not_control ⟨rfl, hlegal⟩ hreset hreadReg
      have hdecode : decode s.port = .command i rest := by rw [hport, decode_of_legalWord hreset ⟨rfl, hlegal⟩ hi]
      exact (step_of_command hdecode).trans (exec_of_faulted (s := s.consume rest) hcontrol hs)
  · exact step_of_reset ⟨hop, hlegal⟩ (by rw [hport, hrest])
  · exact step_of_command (by rw [hport, decode_of_legalWord (by decide) ⟨hop, hlegal⟩ rfl]; rfl)

/-! ### Out of FAULTED -/

/-- The only command that clears FAULTED is a good RESET (R216). -/
theorem exec_eq_bindWindow {i : Instr} {s t : State} (hs : s.faulted = true) (h : exec i s = .next t) (ht : t.faulted = false) :
    ∃ sbo start stop, i = .reset sbo start stop ∧ resetWellFormed s.params sbo start stop ∧
      t = s.bindWindow sbo start stop := by
  obtain ⟨-, -, rfl⟩ | ⟨-, code, rfl⟩ | ⟨hready, -, -⟩ | hreset | ⟨reg, v, -, -, -, rfl⟩ := exec_cases h
  · simp [hs] at ht
  · simp at ht
  · exact absurd (hready.2.symm.trans hs) Bool.false_ne_true
  · exact hreset
  · exact absurd (ht.symm.trans hs) Bool.false_ne_true

/-- Settles O49: neither a hold nor an illegal word clears FAULTED, and the command that does is a RESET that binds its window. -/
theorem onlyGoodResetRecovers : Obligations.OnlyGoodResetRecovers := by
  intro s t hs hstep ht
  obtain ⟨-, hhold⟩ | ⟨rest, -, hillegal⟩ | ⟨i, rest, hdecode, hexec⟩ := step_cases s
  · cases hhold.symm.trans hstep
    simp [hs] at ht
  · cases hillegal.symm.trans hstep
    simp [State.illegalWord_of_faulted (s := s.consume rest) hs, hs] at ht
  · obtain ⟨sbo, start, stop, rfl, hgood, rfl⟩ := exec_eq_bindWindow (s := s.consume rest) hs (hexec.symm.trans hstep) ht
    exact ⟨rfl, rfl, rfl, sbo, start, stop, rest, hdecode, hgood, rfl, rfl⟩

end Sys2Proof.Machine
end

