-- ==== Sys2Proof/Proofs/Other.lean ====
section
/-! PROOFS. The statements over the whole machine: the round trips of the encoding, the invariant that every step and every host action
keeps, what the coder's commands do to the code value and that the codeword decodes, the Exp-Golomb codes and the split of PUT_BITS,
the responses, and the bits that stay. -/
namespace Sys2Proof.Machine

/-! ### Encoding: a command and its words -/

/-- Every command's first word is accepted by its own row, and the command has as many words as the row says (R72, R75). -/
theorem encodedRow : ∀ i : Instr, Laws.EncodedRow.Statement i
  | .reset sbo start stop => Laws.EncodedRow.reset sbo start stop
  | .putBits n value => Laws.EncodedRow.putBits n value
  | .putBit b => Laws.EncodedRow.putBit b
  | .putUe value => Laws.EncodedRow.putUe value
  | .putSe value => Laws.EncodedRow.putSe value
  | .putTrailingBits ca => Laws.EncodedRow.putTrailingBits ca
  | .getBitOffset => Laws.EncodedRow.getBitOffset
  | .encodeBin ctx bin => Laws.EncodedRow.encodeBin ctx bin
  | .encodeBinEp bin => Laws.EncodedRow.encodeBinEp bin
  | .sliceFinish => Laws.EncodedRow.sliceFinish
  | .readReg reg => Laws.EncodedRow.readReg reg

theorem Instr.row_mem_opRows (i : Instr) : i.row ∈ opRows := by cases i <;> simp [Instr.row, opRows]

/-- The first word of a command's encoding is a legal word of its row's opcode. -/
theorem legalWord_of_encode {i : Instr} {w0 : Word} {ws : List Word} (h : encode i = w0 :: ws) :
    LegalWord i.row.pattern.toNat w0 := by
  obtain ⟨⟨w, vs, hw, haccepts⟩, -⟩ := encodedRow i
  cases h.symm.trans hw
  exact (accepts_iff_legalWord (Instr.row_mem_opRows i) w0).1 haccepts

/-- A field placed in a word whose other parts leave its bits 0 is read back (R74). -/
theorem extract_place_or {n k : Nat} {v : BitVec n} {x : Word} (hk : k + n ≤ 64) (hx : x.extractLsb' k n = 0) :
    (place v k ||| x).extractLsb' k n = v := by
  rw [BitVec.extractLsb'_or, hx]
  ext j hj
  simp [place, hj, show k + j < 64 by omega]

/-- A placed field leaves the bits beside it 0. -/
theorem extract_place_beside {n m k l : Nat} {v : BitVec n} (h : k + n ≤ l ∨ l + m ≤ k) :
    (place v k).extractLsb' l m = 0 := by
  ext j hj
  obtain h | h := h
  · simp [place, BitVec.getLsbD_of_ge v (l + j - k) (by omega)]
  · simp [place, show l + j < k by omega]

/-- Two fields placed beside each other in a word, above an opcode: both are read back. -/
theorem extract_place_pair {n m k l : Nat} {v : BitVec n} {u : BitVec m} {op : Word} (hk : l + m ≤ k) (hl : k + n ≤ 64)
    (hv : op.extractLsb' k n = 0) (hu : op.extractLsb' l m = 0) :
    (place v k ||| place u l ||| op).extractLsb' k n = v ∧ (place v k ||| place u l ||| op).extractLsb' l m = u := by
  constructor
  · rw [BitVec.or_assoc, extract_place_or hl]
    rw [BitVec.extractLsb'_or, extract_place_beside (.inl hk), hv]
    exact BitVec.or_zero
  · rw [BitVec.or_comm (place v k), BitVec.or_assoc, extract_place_or (by omega)]
    rw [BitVec.extractLsb'_or, extract_place_beside (.inr hk), hu]
    exact BitVec.or_zero

/-- A one-bit field is the bit at its place. -/
theorem ofBool_getLsbD (w : Word) (k : Nat) : BitVec.ofBool (w.getLsbD k) = w.extractLsb' k 1 := by
  ext j hj
  simp [show j = 0 by omega]

theorem fieldBit_eq {w : Word} {b : Bool} (h : w.extractLsb' 8 1 = BitVec.ofBool b) : fieldBit w = b := by
  rw [← ofBool_getLsbD] at h
  simpa [fieldBit] using congrArg (BitVec.getLsbD · 0) h

/-- The fields of a one-word command's encoding are read back at their places (R74). -/
theorem oneWordCommand_encode {i : Instr} {w0 : Word} (h : encode i = [w0]) :
    oneWordCommand i.row.pattern.toNat w0 = some i := by
  cases i <;> cases h
  case putBits n value =>
    obtain ⟨hvalue, hn⟩ := extract_place_pair (v := value) (u := n) (k := 32) (l := 8) (op := 0x02) (by decide) (by decide)
      (by decide) (by decide)
    exact congrArg₂ (fun n value => some (Instr.putBits n value)) hn hvalue
  case putBit b | putTrailingBits b | encodeBinEp b =>
    exact congrArg some (congrArg _ (fieldBit_eq (extract_place_or (by decide) (by decide))))
  case putUe value | putSe value =>
    exact congrArg some (congrArg _ (extract_place_or (by decide) (by decide)))
  case getBitOffset | sliceFinish => rfl
  case encodeBin ctx bin =>
    obtain ⟨hctx, hbin⟩ := extract_place_pair (v := ctx) (u := BitVec.ofBool bin) (k := 16) (l := 8) (op := 0x08) (by decide)
      (by decide) (by decide) (by decide)
    exact congrArg₂ (fun ctx bin => some (Instr.encodeBin ctx bin)) hctx (fieldBit_eq hbin)
  case readReg reg => exact congrArg some (congrArg _ (extract_place_or (by decide) (by decide)))

/-- Settles O2: the first word is a legal word of the command's own row, so the decoder reads that row's command, and its fields
are read back from where they were placed. -/
theorem decodeInvertsEncode : Obligations.DecodeInvertsEncode := by
  intro i rest
  have hfields {w0 : Word} (h : encode i = [w0]) (hop : i.row.pattern.toNat ≠ 1) :
      decode (encode i ++ rest) = .command i rest := by
    rw [h]
    exact decode_of_legalWord hop (legalWord_of_encode h) (oneWordCommand_encode h) rest
  cases i
  case reset sbo start stop =>
    have hsbo : fieldSbo (place sbo 8 ||| 0x01) = sbo := extract_place_or (by decide) (by decide)
    have hrow := rowReset_accepts_of_legal (legalWord_of_encode (i := .reset sbo start stop) rfl)
    exact (decode_reset hrow start stop rest).trans (by rw [hsbo])
  all_goals exact hfields rfl (Nat.ne_of_beq_eq_false rfl)

/-! ### Encoding: a command word and its fields -/

/-- A field put back at the place it was read from is the word's own bits there (R74). -/
theorem place_extract (w : Word) (k n : Nat) : place (w.extractLsb' k n) k = w &&& place (BitVec.allOnes n) k := by
  ext j hj
  by_cases hk : j < k
  · simp [place, hk]
  · simp [place, hk, show k + (j - k) = j by omega, hj, Bool.and_comm]

/-- A word that a row accepts is the row's opcode beside the bits outside the row's mask: no bit is ignored (R74). -/
theorem OpRow.or_pattern_of_accepts {r : OpRow} {w fields : Word} (h : r.accepts w = true)
    (hfields : fields = w &&& ~~~ r.mask) : fields ||| r.pattern = w := by
  rw [OpRow.accepts, beq_iff_eq] at h
  rw [hfields, ← h, ← BitVec.and_or_distrib_left, BitVec.or_comm, BitVec.or_not_self, BitVec.and_allOnes]

theorem place_fieldBit (w : Word) : place (BitVec.ofBool (fieldBit w)) 8 = w &&& 0x100 := by
  rw [fieldBit, ofBool_getLsbD, place_extract]
  rfl

/-- The command that a legal one-word command word stands for is encoded to that word: the row's mask leaves exactly the
fields. -/
theorem encode_of_oneWordCommand {op : Nat} {w0 : Word} {i : Instr} (h : LegalWord op w0) (hi : oneWordCommand op w0 = some i) :
    encode i = [w0] := by
  obtain ⟨r, hr, rfl, haccepts⟩ := exists_accepts_of_legalWord h
  have hword {fields pattern : Word} (hfields : fields = w0 &&& ~~~ r.mask) (hpattern : pattern = r.pattern) :
      [fields ||| pattern] = [w0] := by rw [hpattern, OpRow.or_pattern_of_accepts haccepts hfields]
  simp only [opRows, List.mem_cons, List.not_mem_nil, or_false] at hr
  obtain rfl | rfl | rfl | rfl | rfl | rfl | rfl | rfl | rfl | rfl | rfl := hr <;> cases hi
  · exact hword (by rw [fieldN, fieldValue, place_extract, place_extract, ← BitVec.and_or_distrib_left]; rfl) rfl
  · exact hword (place_fieldBit w0) rfl
  · exact hword (place_extract w0 32 32) rfl
  · exact hword (place_extract w0 32 32) rfl
  · exact hword (place_fieldBit w0) rfl
  · exact hword (fields := 0) (BitVec.and_zero (x := w0)).symm rfl
  · exact hword (by rw [fieldCtx, place_fieldBit, place_extract, ← BitVec.and_or_distrib_left]; rfl) rfl
  · exact hword (place_fieldBit w0) rfl
  · exact hword (fields := 0) (BitVec.and_zero (x := w0)).symm rfl
  · exact hword (place_extract w0 8 8) rfl

/-- A legal RESET word is the encoding's first word for its field. -/
theorem place_fieldSbo_of_legal {w0 : Word} (h : LegalWord 1 w0) : place (fieldSbo w0) 8 ||| 0x01 = w0 :=
  OpRow.or_pattern_of_accepts (rowReset_accepts_of_legal h) (place_extract w0 8 3)

/-- A legal word of an opcode other than RESET's stands for a one-word command (R74). -/
theorem exists_oneWordCommand {op : Nat} {w0 : Word} (hop : op ≠ 1) (h : LegalWord op w0) :
    ∃ i, oneWordCommand op w0 = some i := by
  by_cases hreadReg : op = 0x0B
  · exact ⟨.readReg (fieldReg w0), by rw [hreadReg, oneWordCommand]⟩
  · obtain ⟨i, hi, -⟩ := exists_oneWordCommand_not_control h hop hreadReg
    exact ⟨i, hi⟩

/-- Settles O3: by the kind of first word: illegal, RESET with or without its two extension words, or a one-word command. -/
theorem encodeInvertsDecode : Obligations.EncodeInvertsDecode := by
  intro ws i rest h
  match ws with
  | [] => cases h
  | w0 :: ws =>
    cases hlegal : illegalFirstWord w0 with
    | true => cases (decode_of_illegal hlegal ws).symm.trans h
    | false =>
      by_cases hop : w0.toNat % 256 = 1
      · match ws with
        | start :: stop :: vs =>
          cases (decode_reset (rowReset_accepts_of_legal ⟨hop, hlegal⟩) start stop vs).symm.trans h
          rw [encode, place_fieldSbo_of_legal ⟨hop, hlegal⟩]
          rfl
        | [] | [_] => cases (decode_reset_hold ⟨hop, hlegal⟩ (by simp)).symm.trans h
      · obtain ⟨j, hj⟩ := exists_oneWordCommand hop ⟨rfl, hlegal⟩
        cases (decode_of_legalWord hop ⟨rfl, hlegal⟩ hj ws).symm.trans h
        rw [encode_of_oneWordCommand ⟨rfl, hlegal⟩ hj, List.singleton_append]

/-- Settles O5: a row accepts the legal words of its opcode, no two rows have one opcode, and every opcode of the format table
has a row. -/
theorem oneRowPerLegalWord : Obligations.OneRowPerLegalWord := by
  intro w0
  have hdistinct : ∀ r ∈ opRows, ∀ q ∈ opRows, r.pattern.toNat = q.pattern.toNat → r = q := by decide
  refine ⟨fun r hr q hq haccepts haccepts' => hdistinct r hr q hq ?_, fun ⟨r, hr, haccepts⟩ => ?_, fun hlegal => ?_⟩
  · exact ((accepts_iff_legalWord hr w0).1 haccepts).1.symm.trans ((accepts_iff_legalWord hq w0).1 haccepts').1
  · exact ((accepts_iff_legalWord hr w0).1 haccepts).2
  · obtain ⟨r, hr, -, haccepts⟩ := exists_accepts_of_legalWord ⟨rfl, hlegal⟩
    exact ⟨r, hr, haccepts⟩

/-- Settles O1: each word is decoded by evaluation. -/
theorem specWordsDecode : Obligations.SpecWordsDecode := by
  unfold Obligations.SpecWordsDecode
  decide

/-! ### The invariant -/

theorem State.consume_inv {s : State} (h : s.Inv) (rest : List Word) : (s.consume rest).Inv := h

/-- A fault leaves a legal STATUS with CONFIGURED as it was, and nothing else changes (R211). -/
theorem State.raise_inv {s : State} (h : s.Inv) (code : FaultCode) : (s.raise code).Inv := by
  obtain ⟨hwf, hparams, hstatus, hwindow⟩ := h
  exact ⟨hwf, hparams, State.raise_statusLegal hstatus code, fun hc => hwindow ((s.raise_configured code).symm.trans hc)⟩

theorem State.illegalWord_inv {s : State} (h : s.Inv) : s.illegalWord.Inv := by
  unfold State.illegalWord
  split
  · exact h
  · exact State.raise_inv h _

theorem State.respond_redraw_inv {s : State} (h : s.Inv) (v : Word) : (s.respond v).redraw.Inv := h

/-- A commit that fits keeps the cursor in the window, and the coder registers it writes are legal (R24, R147, R175). -/
theorem State.commit_inv {s : State} {r : Result} (h : s.Inv) (hc : s.configured = true) (hroom : s.Room (Output.len r.out))
    (hlegal : r.coder.Legal) : (s.commit r).Inv := by
  obtain ⟨hwf, hparams, hstatus, hwindow⟩ := h
  obtain ⟨⟨horder, haddr, hcap, hstart, -⟩, -, hclear⟩ := hwindow hc
  refine ⟨?_, ?_, ?_, fun _ => ⟨⟨?_, ?_, ?_, ?_, ?_⟩, ?_, State.commit_drawnClear hclear hroom⟩⟩
  · rw [State.commit_mem]
    exact Memory.wf_writeBits _ _ hwf
  · rwa [State.commit_params]
  · simpa only [State.StatusLegal, State.faultCode, State.commit_status, State.commit_faulted] using hstatus
  · rwa [State.commit_bufStart, State.commit_bufEnd]
  · rwa [State.commit_bufEnd, State.commit_params]
  · rwa [State.commit_bufStart, State.commit_bufEnd]
  · rw [State.commit_absPos s r hroom, State.commit_bufStart, State.commit_startBitOffset]
    omega
  · rw [State.commit_absPos s r hroom, State.commit_bufEnd]
    exact hroom
  · rwa [State.commit_coder]

theorem coderInit_legal : coderInit.Legal := by decide

/-- STATUS after a good RESET is legal (R29, R41). -/
theorem State.statusLegal_of_status {s : State} (h : s.status = statusWord true false 0) : s.StatusLegal := by
  simp only [State.StatusLegal, State.faultCode, State.faulted, h]
  decide

/-- A good RESET binds a legal window with its cursor at the start, and initialises the coder (R190, R191). -/
theorem State.bindWindow_inv {s : State} {sbo : BitVec 3} {start stop : Word} (h : s.Inv)
    (hgood : resetWellFormed s.params sbo start stop) : (s.bindWindow sbo start stop).Inv := by
  obtain ⟨hwf, hparams, -, -⟩ := h
  obtain ⟨⟨-, haddr⟩, horder, hempty, hcap⟩ := hgood
  have hcursor : 8 * start.toNat + sbo.toNat ≤ 8 * stop.toNat := by
    obtain hlt | heq := horder.lt_or_eq
    · omega
    · rw [hempty (BitVec.eq_of_toNat_eq heq)]
      exact (congrArg (8 * ·) heq).le
  exact ⟨hwf, hparams, State.statusLegal_of_status rfl, fun _ =>
    ⟨⟨horder, haddr, hcap, le_rfl, hcursor⟩, coderInit_legal, fun _ hr => regionsMinus_clear hr⟩⟩

/-- Every command keeps the invariant. -/
theorem exec_inv {i : Instr} {s t : State} (hi : s.Inv) (h : exec i s = .next t) : t.Inv := by
  obtain ⟨-, -, rfl⟩ | ⟨-, code, rfl⟩ | ⟨hready, -, r, hr, hroom, rfl⟩ | ⟨sbo, start, stop, -, hgood, rfl⟩ |
    ⟨reg, v, -, -, -, rfl⟩ := exec_cases h
  · exact hi
  · exact State.raise_inv hi code
  · exact State.commit_inv hi hready.1 hroom (computedOf_legal (State.coder_legal hi hready.1) hr)
  · exact State.bindWindow_inv hi hgood
  · exact State.respond_redraw_inv hi v

/-- Settles O12: taking the words from the port, an illegal word and every command keep the invariant. -/
theorem stepKeepsInv : Obligations.StepKeepsInv := by
  intro s t hi hstep
  obtain ⟨-, hs⟩ | ⟨rest, -, hs⟩ | ⟨i, rest, -, hs⟩ := step_cases s
  · cases hs.symm.trans hstep
    exact hi
  · cases hs.symm.trans hstep
    exact State.illegalWord_inv (State.consume_inv hi rest)
  · exact exec_inv (State.consume_inv hi rest) (hs.symm.trans hstep)

/-- Settles O11: nothing is stored and no window is bound yet. -/
theorem resetStateMeetsInv : Obligations.ResetStateMeetsInv :=
  ⟨rfl, by decide, by decide, fun hc => absurd hc Bool.false_ne_true⟩

/-! ### No stop -/

/-- `execute` answers a next state unless the compute step never ends. -/
theorem State.execute_next {s : State} {c : Computed} (h : s.Ready → c ≠ .endless) : ∃ t, s.execute c = .next t := by
  cases hf : s.faulted with
  | true => exact ⟨s, State.execute_faulted hf c⟩
  | false =>
    cases hc : s.configured with
    | false => exact ⟨_, State.execute_unconfigured hf hc c⟩
    | true =>
      have hready : s.Ready := ⟨hc, hf⟩
      cases c with
      | raise code => exact ⟨_, State.execute_raise hready code⟩
      | endless => exact absurd rfl (h hready)
      | done r =>
        by_cases hroom : s.Room (Output.len r.out)
        · exact ⟨_, State.execute_done hready hroom⟩
        · exact ⟨_, State.execute_exhausted hready hroom⟩

/-- No compute step runs without end on legal coder registers (log entry 8). -/
theorem computedOf_ne_endless {s : State} (hlegal : s.coder.Legal) (i : Instr) : computedOf s i ≠ some .endless := by
  cases i <;> simp only [computedOf, ne_eq, Option.some.injEq, reduceCtorEq, not_false_eq_true]
  case putBits => unfold computePutBits; split <;> simp [State.emitOnly]
  case putUe => unfold computePutUe; split <;> simp [State.emitOnly]
  case putSe => unfold computePutSe; split <;> simp [State.emitOnly]
  case putBit | putTrailingBits | getBitOffset => rintro ⟨⟩
  case encodeBin ctx bin => obtain ⟨hc, -⟩ | ⟨d, -, hc⟩ := computeEncodeBin_cases hlegal ctx bin <;> simp [hc]
  case encodeBinEp bin => obtain ⟨hc, -⟩ | ⟨d, -, hc⟩ := computeEncodeBinEp_cases s.coder bin <;> simp [hc]
  case sliceFinish => obtain ⟨hc, -⟩ | ⟨d, -, hc⟩ := computeSliceFinish_cases hlegal s.bitOffset.toNat <;> simp [hc]

/-- From a state that meets the invariant every command answers a next state. -/
theorem exec_next {s : State} (hi : s.Inv) (i : Instr) : ∃ t, exec i s = .next t := by
  cases hcontrol : i.isControl with
  | false =>
    obtain ⟨c, hc⟩ := computedOf_isSome s hcontrol
    rw [exec_of_computed hc]
    refine State.execute_next fun hready hendless => ?_
    exact computedOf_ne_endless (State.coder_legal hi hready.1) i (hc.trans (congrArg some hendless))
  | true =>
    cases i with
    | reset sbo start stop =>
      by_cases hgood : resetWellFormed s.params sbo start stop
      · exact ⟨_, exec_reset_good hgood⟩
      · exact ⟨_, exec_reset_bad hgood⟩
    | readReg reg =>
      obtain ⟨v, h, -⟩ | ⟨code, h⟩ := exec_readReg_cases reg s
      · exact ⟨_, h⟩
      · exact ⟨_, h⟩
    | _ => cases hcontrol

/-- Settles O13: a hold and an illegal word answer a next state, and so does every command. -/
theorem stepNeverStops : Obligations.StepNeverStops := by
  intro s hi
  obtain ⟨-, hs⟩ | ⟨rest, -, hs⟩ | ⟨i, rest, -, hs⟩ := step_cases s
  · exact ⟨_, hs⟩
  · exact ⟨_, hs⟩
  · rw [hs]
    exact exec_next (State.consume_inv hi rest) i

/-! ### The step and power-on -/

/-- Settles O6: by the step's own case of a decoded command. -/
theorem stepExecutesDecoded : Obligations.StepExecutesDecoded := fun _ _ _ hdecode => step_of_command hdecode

/-- Settles O10: power-on is unconfigured, so READ_REG of registers 1 to 10 is NOT_CONFIGURED (R31). -/
theorem powerOnState : Obligations.PowerOnState := by
  refine ⟨rfl, rfl, rfl, fun reg hlo hhi => ?_⟩
  have hreg : reg ≠ 0 := by rintro rfl; exact absurd hlo (by decide)
  rw [exec_readReg_notConfigured hhi hreg rfl, State.raise_eq_withFault rfl]
  rfl

/-- Settles O48: a command with a compute step is gated by STATUS before its operands are looked at. -/
theorem unconfiguredFaults : Obligations.UnconfiguredFaults := fun _ _ hcontrol hc hf => exec_unconfigured hcontrol hf hc

/-- Settles O26: the compute steps leave the same field of one bit. -/
theorem putBitIsPutBitsOne : Obligations.PutBitIsPutBitsOne := by
  rintro (_ | _) s <;> rfl

/-! ### The arithmetic coder: `RenormE` from the registers -/

/-- A pass of `RenormE` doubles the range (R146). -/
theorem Coder.renormPass_range {c d : Coder} (h : c.renormPass = some d) : d.range = 2 * c.range := by
  unfold Coder.renormPass at h
  split at h
  · cases h; rfl
  · split at h
    · cases h; rfl
    · unfold Coder.defer at h
      split at h
      · cases h
      · cases h; rfl

/-- A deferred decision leaves FIRST_BIT_FLAG as it was (R146, R160). -/
theorem Coder.defer_firstBit {c d : Coder} {x : Int} (h : c.defer x = some d) : d.firstBit = c.firstBit := by
  unfold Coder.defer at h
  split at h
  · cases h
  · cases h; rfl

/-- No pass of `RenormE` sets FIRST_BIT_FLAG (R28, R145). -/
theorem Coder.renormPass_firstBit {c d : Coder} (h : c.renormPass = some d) (hd : d.firstBit = true) : c.firstBit = true := by
  unfold Coder.renormPass at h
  split at h
  · cases h; cases hd
  · split at h
    · cases h; cases hd
    · obtain ⟨e, he, rfl⟩ := Option.map_eq_some_iff.1 h
      exact (Coder.defer_firstBit he).symm.trans hd

/-- The loop of `RenormE` does not set FIRST_BIT_FLAG (R28). -/
theorem renormLoop_firstBit {fuel : Nat} {c d : Coder} (h : renormLoop fuel c = .ok d) (hd : d.firstBit = true) :
    c.firstBit = true := by
  induction fuel generalizing c with
  | zero =>
    unfold renormLoop at h
    split at h
    · cases h
    · cases h; exact hd
  | succ fuel ih =>
    unfold renormLoop at h
    split at h
    · split at h
      · rename_i e he
        exact Coder.renormPass_firstBit he (ih h)
      · cases h
    · cases h; exact hd

/-- From a range up to 510 the loop of `RenormE` ends on one from 256 to 510: only a range below 256 is doubled (R147). -/
theorem renormLoop_range {fuel : Nat} {c d : Coder} (h : renormLoop fuel c = .ok d) (hc : c.range ≤ 510) :
    256 ≤ d.range ∧ d.range ≤ 510 := by
  induction fuel generalizing c with
  | zero =>
    unfold renormLoop at h
    split at h
    · cases h
    · cases h; omega
  | succ fuel ih =>
    unfold renormLoop at h
    split at h
    · split at h
      · rename_i e he
        have := Coder.renormPass_range he
        exact ih h (by omega)
      · cases h
    · cases h; omega

/-- Settles O33: by the passes of the loop. -/
theorem renormRange : Obligations.RenormRange := fun _ _ _ hc h => renormLoop_range h hc

/-- The codeword's earlier bits stand for 0 while the first bit is still to come (R28). -/
def CoderRegs.Fresh (r : CoderRegs) (pre : List Bool) : Prop := r.firstBit = true → natOfBits pre = 0

theorem CoderRegs.fresh_of_nil {r : CoderRegs} {pre : List Bool} (h : r.firstBit = true → pre = []) : r.Fresh pre :=
  fun hf => by rw [h hf, natOfBits_nil]

/-- From the registers `r` to the registers `q` the coder took in `k` bits and emitted `bits`; the low end of the interval,
at the scale of `k` more bits, rose by `low`. -/
structure Coded (r : CoderRegs) (bits : List Bool) (q : CoderRegs) (k low : Nat) : Prop where
  legal : q.Legal
  count : bits.length + q.load.count = r.load.count + k
  firstBit : q.firstBit = true → r.firstBit = true
  fresh : ∀ pre, r.Fresh pre → q.Fresh (pre ++ bits)
  value : ∀ pre, r.Fresh pre → codeValue (pre ++ bits) q = 2 ^ k * codeValue pre r + low

/-- The bits taken in are those emitted, those outstanding, and the suppressed one. -/
theorem CoderRegs.load_count (r : CoderRegs) : r.load.count = r.outstanding.toNat + if r.firstBit then 0 else 1 := by
  rw [Coder.count, CoderRegs.load_out, Output.len_nil, Nat.zero_add]
  rfl

/-- What the coder emits is at most the outstanding bits and those it takes in. -/
theorem Coded.length_le {r q : CoderRegs} {bits : List Bool} {k low : Nat} (h : Coded r bits q k low) :
    bits.length ≤ r.outstanding.toNat + k := by
  have hcount := h.count
  have hfirst := h.firstBit
  rw [CoderRegs.load_count, CoderRegs.load_count] at hcount
  have hone : (if r.firstBit then 0 else 1) ≤ 1 := by split <;> omega
  cases hq : q.firstBit with
  | false =>
    rw [hq, if_neg Bool.false_ne_true] at hcount
    omega
  | true =>
    rw [hq, hfirst hq, if_pos rfl] at hcount
    omega

/-- The count of the local copies is that of the emitted bits and of the registers stored from them. -/
theorem Coder.count_store {d : Coder} (h : d.Inside) : (Output.bits d.out).length + d.store.load.count = d.count := by
  rw [CoderRegs.load_count, Coder.store_outstanding h, Coder.store_firstBit, Output.length_bits, Coder.count, Nat.add_assoc]

/-- Local copies that have the registers' own but for a low end raised by `start` and the width `width`, before `RenormE`. -/
structure Coder.MovedFrom (c : Coder) (r : CoderRegs) (start width : Nat) : Prop where
  inside : c.Inside
  range : c.range = width
  low : c.low = r.low.toNat + start
  outstanding : c.outstanding = r.outstanding.toNat
  firstBit : c.firstBit = r.firstBit
  out : c.out = []

theorem Coder.MovedFrom.value {c : Coder} {r : CoderRegs} {start width : Nat} (h : c.MovedFrom r start width)
    (pre : List Bool) : c.value pre = codeValue pre r + start := by
  simp only [Coder.value, codeValue, h.low, h.outstanding, h.out, Output.bits_nil, List.append_nil]
  ring

theorem Coder.MovedFrom.count {c : Coder} {r : CoderRegs} {start width : Nat} (h : c.MovedFrom r start width) :
    c.count = r.load.count := by
  rw [CoderRegs.load_count, Coder.count, h.out, h.outstanding, h.firstBit, Output.len_nil, Nat.zero_add]

/-- `RenormE` doubles the chosen interval `k` times, the least `k` that brings the range to 256 (R146, R147). -/
theorem Coder.MovedFrom.coded_of_renormE {c d : Coder} {r : CoderRegs} {start width : Nat} (hc : c.MovedFrom r start width)
    (h : renormE c = .ok d) : d.Inside ∧ ∃ k, Coded r (Output.bits d.out) d.store k (2 ^ k * start) ∧
      d.store.range.toNat = 2 ^ k * width ∧ (k ≠ 0 → 2 ^ (k - 1) * width < 256) := by
  obtain ⟨k, hd, hge, hrange, hcount, hleast, hvalue⟩ := renormLoop_spec h hc.inside
  have hfresh {pre : List Bool} (hpre : r.Fresh pre) : c.Fresh pre := fun hf => by
    rw [hc.out, Output.bits_nil, List.append_nil]
    exact hpre (hc.firstBit.symm.trans hf)
  refine ⟨hd, k, ⟨Coder.store_legal hd hge, ?_, ?_, fun pre hpre => (hvalue pre (hfresh hpre)).1, fun pre hpre => ?_⟩, ?_, ?_⟩
  · rw [Coder.count_store hd, hcount, hc.count]
  · exact fun hf => hc.firstBit.symm.trans (renormLoop_firstBit h hf)
  · rw [Coder.codeValue_store hd, (hvalue pre (hfresh hpre)).2, hc.value]
    push_cast
    ring
  · have := Coder.store_range hd
    rw [hrange, hc.range] at this
    exact_mod_cast this
  · intro hk
    have := hleast hk
    rw [hc.range] at this
    exact_mod_cast this

/-- From a width of at least `2 ^ (8 - m)` the range reaches 256 in at most `m` doublings (R147). -/
theorem doublings_le {k m width : Nat} (hm : m ≤ 8) (hwidth : 2 ^ (8 - m) ≤ width)
    (h : k ≠ 0 → 2 ^ (k - 1) * width < 256) : k ≤ m := by
  by_contra hk
  have hpow : 2 ^ m ≤ 2 ^ (k - 1) := Nat.pow_le_pow_right (by decide) (by omega)
  have hmul := Nat.mul_le_mul hpow hwidth
  rw [← pow_add, show m + (8 - m) = 8 by omega] at hmul
  exact absurd (h (by omega)) (not_lt.2 hmul)

/-! ### ENCODE_BIN narrows the interval -/

/-- The sub-interval of a bin is inside the interval, and at least 2 wide; the MPS's at least 128 (R141, R150). -/
theorem subInterval_bounds {r : CoderRegs} (h : r.Legal) (ctx : BitVec 7) (bin : Bool) :
    subStart r ctx bin + subWidth r ctx bin ≤ r.range.toNat ∧ 2 ≤ subWidth r ctx bin ∧
      (bin = ctx.getLsbD 6 → 128 ≤ subWidth r ctx bin) := by
  obtain ⟨hlo, hhi⟩ : 2 ≤ lpsWidth r ctx ∧ lpsWidth r ctx + 128 ≤ r.range.toNat := lps_le_range h.1 (ctxState ctx)
  unfold subStart subWidth
  by_cases hbin : bin = ctx.getLsbD 6
  · simp only [if_pos hbin]
    omega
  · simp only [if_neg hbin]
    exact ⟨by omega, hlo, fun hmps => absurd hmps hbin⟩

theorem chooseInterval_movedFrom {r : CoderRegs} (h : r.Legal) (ctx : BitVec 7) (bin : Bool) :
    (chooseInterval r ctx bin).MovedFrom r (subStart r ctx bin) (subWidth r ctx bin) := by
  obtain ⟨hinside, hrange, hlow, hout, hfirst, hnil⟩ := chooseInterval_spec h ctx bin
  exact ⟨hinside, hrange, hlow, hout, hfirst, hnil⟩

/-- `RenormE` from a moved interval overflows exactly when the leading deferrals do not fit in the counter (R148). -/
theorem Coder.MovedFrom.overflow_iff {c : Coder} {r : CoderRegs} {start width : Nat} (hc : c.MovedFrom r start width) :
    renormE c = .overflow ↔
      2 ^ 32 ≤ r.outstanding.toNat + leadingDeferrals 16 ((r.low.toNat + start : Nat) : Int) (width : Int) := by
  have h := renormLoop_overflow_iff (fuel := 16) le_rfl (hc.outstanding ▸ r.outstanding.isLt)
  rwa [hc.outstanding, hc.low, hc.range, ← Nat.cast_add] at h

/-- Settles O38: the compute step is `RenormE` of the bin's sub-interval, which doubles it until the range is 256. -/
theorem encodeBinChoosesInterval : Obligations.EncodeBinChoosesInterval := by
  intro ctx bin s hi hr low dd
  have hlegal := State.coder_legal hi hr.1
  have hmoved := chooseInterval_movedFrom hlegal ctx bin
  obtain ⟨-, hwidth, hmps⟩ := subInterval_bounds hlegal ctx bin
  obtain ⟨hcomputed, hover⟩ | ⟨d, hd, hcomputed⟩ := computeEncodeBin_cases hlegal ctx bin
  · refine ⟨fun _ => exec_counterOverflow hr (congrArg some hcomputed), fun hlt => ?_⟩
    exact absurd (hmoved.overflow_iff.1 hover) (not_le.2 hlt)
  · refine ⟨fun hge => ?_, fun _ => ?_⟩
    · cases (hmoved.overflow_iff.2 hge).symm.trans hd
    · obtain ⟨-, k, hcoded, hrange, hleast⟩ := hmoved.coded_of_renormE hd
      obtain ⟨hfull, hfits⟩ := exec_done hi hr (i := .encodeBin ctx bin) (congrArg some hcomputed) rfl
      refine ⟨Output.bits d.out, d.store, k, hfull, fun hroom => ?_, ?_, hrange, hcoded.legal, hleast, fun hbin => ?_,
        fun pre hpre => ?_⟩
      · obtain ⟨t, ht, hemitted, hframe, hresponse, hcoder⟩ := hfits hroom
        exact ⟨t, ht, hemitted, hframe, hcoder, hresponse⟩
      · exact doublings_le (by decide) hwidth hleast
      · exact doublings_le (by decide) (hmps hbin) hleast
      · rw [hcoded.value pre (CoderRegs.fresh_of_nil hpre)]
        push_cast
        ring

/-- The passes that defer first are fewer than those that double the range beyond 255. -/
theorem leadingDeferrals_le_doublings {fuel : Nat} {low range : Int} (h : leadingDeferrals fuel low range ≠ 0) :
    2 ^ (leadingDeferrals fuel low range - 1) * range < 256 := by
  induction fuel generalizing low range with
  | zero => exact absurd rfl h
  | succ fuel ih =>
    unfold leadingDeferrals at h ⊢
    split
    · rename_i hdefers
      by_cases hrest : leadingDeferrals fuel (2 * (low - 256)) (2 * range) = 0
      · rw [hrest]
        simpa using hdefers.1
      · have := ih hrest
        obtain ⟨m, hm⟩ := Nat.exists_eq_succ_of_ne_zero hrest
        rw [hm] at this ⊢
        simp only [Nat.succ_eq_add_one, Nat.add_sub_cancel, pow_succ] at this ⊢
        linarith
    · rename_i hends
      rw [if_neg hends] at h
      exact absurd rfl h

/-- With a width of at least 2 and seven counts to spare the counter does not overflow (R148). -/
theorem Coder.MovedFrom.not_overflow {c : Coder} {r : CoderRegs} {start width : Nat} (hc : c.MovedFrom r start width)
    (hwidth : 2 ≤ width) (hspare : r.outstanding.toNat + 7 < 2 ^ 32) : renormE c ≠ .overflow := by
  rw [Ne, hc.overflow_iff, not_le]
  refine lt_of_le_of_lt (Nat.add_le_add_left (doublings_le (m := 7) (by decide) hwidth fun hne => ?_) _) hspare
  exact_mod_cast leadingDeferrals_le_doublings hne

/-- Settles O37: seven passes neither overflow the counter nor take in more than seven bits. -/
theorem encodeBinCompletes : Obligations.EncodeBinCompletes := by
  intro ctx bin s hi hr hspare hroom
  have hlegal := State.coder_legal hi hr.1
  have hmoved := chooseInterval_movedFrom hlegal ctx bin
  obtain ⟨-, hwidth, -⟩ := subInterval_bounds hlegal ctx bin
  obtain ⟨-, hover⟩ | ⟨d, hd, hcomputed⟩ := computeEncodeBin_cases hlegal ctx bin
  · exact absurd hover (hmoved.not_overflow hwidth hspare)
  · obtain ⟨-, k, hcoded, -, hleast⟩ := hmoved.coded_of_renormE hd
    have hk : k ≤ 7 := doublings_le (by decide) hwidth hleast
    have hfits : s.Room (Output.bits d.out).length := by
      have := hcoded.length_le
      unfold State.Room at hroom ⊢
      omega
    obtain ⟨t, ht, hemitted, hframe, hresponse, -⟩ :=
      (exec_done hi hr (i := .encodeBin ctx bin) (congrArg some hcomputed) rfl).2 hfits
    refine ⟨t, _, ht, ?_, hemitted, hframe, hresponse⟩
    rw [State.faulted, hframe.1]
    exact hr.2

/-! ### SLICE_FINISH ends the codeword -/

theorem chooseTerminate_movedFrom {r : CoderRegs} (h : r.Legal) :
    (chooseTerminate r).MovedFrom r (r.range.toNat - 2) 2 := by
  obtain ⟨hinside, hrange, hlow, hout, hfirst, hnil⟩ := chooseTerminate_spec h
  have hrange_ge := h.1
  exact ⟨hinside, hrange, by rw [hlow]; omega, hout, hfirst, hnil⟩

/-- A bit read off an integer is its remainder. -/
theorem toNat_decide_emod_two (x : Int) : ((decide (x % 2 = 1)).toNat : Int) = x % 2 := by
  obtain h | h := Int.emod_two_eq_zero_or_one x <;> simp [h]

/-- The two bits of `low` that the flush puts, and the stop bit after them, round the low end of the interval to a multiple of
128 (R170). -/
theorem Coder.number_flushBody {d : Coder} (hd : d.Inside) (hrange : d.range = 256) {pre : List Bool} (hpre : d.Fresh pre) :
    (128 : Int) * natOfBits (pre ++ d.flushBody ++ [true]) = d.value pre - d.low % 256 + 128 := by
  obtain ⟨hlow, -, -, hhigh, hfirst, -⟩ := hd
  have hput := Coder.putBitC_number pre d (decide (d.low / 512 % 2 = 1)) hpre fun hf => by
    have := hfirst hf
    rw [decide_eq_false_iff_not]
    omega
  have hvalue : d.value pre - d.low =
      natOfBits (pre ++ Output.bits d.out) * 2 ^ (d.outstanding + 10) + (2 ^ d.outstanding - 1) * 512 := by
    rw [Coder.value]
    ring
  have hweight (b : Bool) : (if b then (1024 : Int) else 0) = 1024 * b.toNat := by cases b <;> rfl
  rw [← hvalue, hweight, toNat_decide_emod_two] at hput
  rw [Coder.flushBody, ← List.append_assoc, natOfBits_append, natOfBits_append]
  push_cast
  simp only [natOfBits_singleton, List.length_singleton, pow_one, Bool.toNat_true, toNat_decide_emod_two]
  omega

theorem Coder.length_flushBody (d : Coder) : d.flushBody.length = d.count + 1 := by
  have hcount := d.putBitC_count (decide (d.low / 512 % 2 = 1))
  rw [Coder.count, Coder.putBitC_outstanding, Coder.putBitC_firstBit, if_neg Bool.false_ne_true] at hcount
  rw [Coder.flushBody, List.length_append, Output.length_bits, List.length_singleton]
  omega

/-- The codeword that the flush of `d` ends, its stop bit the last, lies in the last two units of the interval of the registers
`r`; it has the bits the coder took in and nine more. -/
structure Terminates (r : CoderRegs) (d : Coder) : Prop where
  inside : d.Inside
  range : d.range = 256
  length : d.flushBody.length = r.load.count + 8
  low_le : ∀ pre, r.Fresh pre → codeValue pre r + r.range.toNat - 2 ≤ natOfBits (pre ++ d.flushBody ++ [true])
  lt_high : ∀ pre, r.Fresh pre → (natOfBits (pre ++ d.flushBody ++ [true]) : Int) < codeValue pre r + r.range.toNat

/-- `RenormE` doubles the last two units seven times, to 256, of which the flush leaves those from its rounded low end on
(R146, R170). -/
theorem terminates_of_renormE {r : CoderRegs} (h : r.Legal) {d : Coder} (hd : renormE (chooseTerminate r) = .ok d) :
    Terminates r d := by
  have hmoved := chooseTerminate_movedFrom h
  obtain ⟨hinside, k, hcoded, hstore, -⟩ := hmoved.coded_of_renormE hd
  have hrange : d.range = 256 := renormE_range_of_two hmoved.inside hmoved.range hd
  have hrange_ge := h.1
  obtain rfl : k = 7 := by
    have hpow : 2 ^ k * 2 = 2 ^ 8 := by
      have := Coder.store_range hinside
      omega
    have := Nat.pow_right_injective le_rfl ((pow_succ 2 k).trans hpow)
    omega
  have hnumber {pre : List Bool} (hpre : r.Fresh pre) :
      (128 : Int) * natOfBits (pre ++ d.flushBody ++ [true]) =
        128 * (codeValue pre r + r.range.toNat - 2) - d.low % 256 + 128 := by
    rw [Coder.number_flushBody hinside hrange (hcoded.fresh pre hpre), ← Coder.codeValue_store hinside, hcoded.value pre hpre]
    push_cast [show 2 ≤ r.range.toNat by omega]
    ring
  refine ⟨hinside, hrange, ?_, fun pre hpre => ?_, fun pre hpre => ?_⟩
  · rw [Coder.length_flushBody, ← Coder.count_store hinside, hcoded.count]
  · have := hnumber hpre
    omega
  · have := hnumber hpre
    omega

/-- SLICE_FINISH in a Ready state overflows the counter, or ends the codeword with a flush that is emitted if it fits (R170). -/
theorem exec_sliceFinish {s : State} (hi : s.Inv) (hr : s.Ready) :
    (renormE (chooseTerminate s.coder) = .overflow ∧ exec .sliceFinish s = .next (s.withFault 5)) ∨
      ∃ d z, renormE (chooseTerminate s.coder) = .ok d ∧ z ≤ 7 ∧
        (¬ s.Room (d.flushBody.length + 1 + z) → exec .sliceFinish s = .next (s.withFault 4)) ∧
        (s.Room (d.flushBody.length + 1 + z) → ∃ t, exec .sliceFinish s = .next t ∧
          Emitted s t (d.flushBody ++ true :: List.replicate z false) ∧ SameFrame s t ∧ t.responses = s.responses ∧
          t.coder.range = 256 ∧ t.coder.outstanding = 0 ∧ t.coder.firstBit = false ∧ t.bitOffset = 0) := by
  obtain ⟨-, hmeaning⟩ := sliceFinishMeaning
  obtain ⟨-, hready⟩ := hmeaning s hi hr.2
  obtain ⟨-, hover, hdone⟩ := hready hr.1
  obtain ⟨-, h⟩ | ⟨d, hd, -⟩ := computeSliceFinish_cases (State.coder_legal hi hr.1) s.bitOffset.toNat
  · exact .inl ⟨h, hover h⟩
  · obtain ⟨-, hfull, hfits⟩ := hdone d hd
    have hlength (z : Nat) : (d.flushBody ++ true :: List.replicate z false).length = d.flushBody.length + 1 + z := by
      simp
      omega
    refine .inr ⟨d, 7 - (s.bitOffset.toNat + d.flushBody.length) % 8, hd, Nat.sub_le 7 _, ?_, ?_⟩
    · rw [← hlength]
      exact hfull
    · rw [← hlength]
      intro hroom
      obtain ⟨t, ht, hemitted, hframe, hresponses, -, hregs⟩ := hfits hroom
      exact ⟨t, ht, hemitted, hframe, hresponses, hregs⟩

/-- The overflow of SLICE_FINISH by the statements' count of the leading deferrals. -/
theorem chooseTerminate_overflow_iff {r : CoderRegs} (h : r.Legal) :
    renormE (chooseTerminate r) = .overflow ↔
      2 ^ 32 ≤ r.outstanding.toNat + leadingDeferrals 16 (r.low.toNat + r.range.toNat - 2) 2 := by
  have hrange_ge := h.1
  rw [(chooseTerminate_movedFrom h).overflow_iff, ← Nat.add_sub_assoc (by omega)]
  push_cast [show 2 ≤ r.low.toNat + r.range.toNat by omega]
  rfl

/-- Settles O43: the last two units are doubled seven times, and the flush with its stop bit rounds into them. -/
theorem sliceFinishTerminates : Obligations.SliceFinishTerminates := by
  intro s hi hr deferrals
  have hlegal := State.coder_legal hi hr.1
  obtain ⟨hover, hexec⟩ | ⟨d, z, hd, hz, hfull, hfits⟩ := exec_sliceFinish hi hr
  · exact ⟨fun _ => hexec, fun hlt => absurd ((chooseTerminate_overflow_iff hlegal).1 hover) (not_le.2 hlt)⟩
  · refine ⟨fun hge => ?_, fun _ => ⟨d.flushBody, z, hz, hfull, hfits, fun pre hpre => ?_⟩⟩
    · cases ((chooseTerminate_overflow_iff hlegal).2 hge).symm.trans hd
    · have hterminates := terminates_of_renormE hlegal hd
      have hfresh := CoderRegs.fresh_of_nil hpre
      exact ⟨hterminates.low_le pre hfresh, hterminates.lt_high pre hfresh⟩

/-- Settles O42: seven passes do not overflow the counter, and the codeword's end is the outstanding bits and at most 17 more. -/
theorem sliceFinishCompletes : Obligations.SliceFinishCompletes := by
  intro s hi hr hspare hroom
  have hlegal := State.coder_legal hi hr.1
  obtain ⟨hover, -⟩ | ⟨d, z, hd, hz, -, hfits⟩ := exec_sliceFinish hi hr
  · exact absurd hover ((chooseTerminate_movedFrom hlegal).not_overflow le_rfl hspare)
  · have hlength := (terminates_of_renormE hlegal hd).length
    have hone : (if s.coder.firstBit then 0 else 1) ≤ 1 := by split <;> omega
    rw [CoderRegs.load_count] at hlength
    have hroom' : s.Room (d.flushBody.length + 1 + z) := by
      unfold State.Room at hroom ⊢
      omega
    obtain ⟨t, ht, hemitted, hframe, hkept⟩ := hfits hroom'
    refine ⟨t, _, ht, ?_, hemitted, hframe, hkept⟩
    rw [State.faulted, hframe.1]
    exact hr.2

/-! ### ENCODE_BIN_EP doubles the interval -/

/-- The bypass decision does not set FIRST_BIT_FLAG (R28, R160). -/
theorem Coder.bypassDecide_firstBit {c d : Coder} (h : c.bypassDecide = some d) (hd : d.firstBit = true) :
    c.firstBit = true := by
  unfold Coder.bypassDecide at h
  split at h
  · cases h; cases hd
  · split at h
    · cases h; cases hd
    · exact (Coder.defer_firstBit h).symm.trans hd

/-- The bypass decision takes in one bit: the code value doubles and, for a 1, rises by the range, which is not changed (R160). -/
theorem bypassDecide_coded {r : CoderRegs} (h : r.Legal) {bin : Bool} {d : Coder}
    (hd : (bypassDouble r.load bin).bypassDecide = some d) :
    Coded r (Output.bits d.out) d.store 1 (if bin then r.range.toNat else 0) ∧ d.store.range = r.range := by
  obtain ⟨hinside, hrange, hcount, hvalue⟩ := bypass_spec h bin hd
  have hfresh {pre : List Bool} (hpre : r.Fresh pre) : r.load.Fresh pre := fun hf => by
    rw [CoderRegs.load_out, Output.bits_nil, List.append_nil]
    exact hpre hf
  refine ⟨⟨Coder.store_legal hinside (by have := h.1; omega), ?_, fun hf => Coder.bypassDecide_firstBit hd hf,
    fun pre hpre => (hvalue pre (hfresh hpre)).1, fun pre hpre => ?_⟩, ?_⟩
  · rw [Coder.count_store hinside, hcount]
  · rw [Coder.codeValue_store hinside, (hvalue pre (hfresh hpre)).2, codeValue_eq]
    cases bin <;> simp
  · have := Coder.store_range hinside
    exact BitVec.eq_of_toNat_eq (by omega)

/-- A command that completes has committed the result of its compute step, which fitted (R80). -/
theorem exec_completed {i : Instr} {s t : State} (hcontrol : i.isControl = false) (hr : s.Ready) (h : exec i s = .next t)
    (ht : t.faulted = false) : ∃ r, computedOf s i = some (.done r) ∧ s.Room (Output.len r.out) ∧ t = s.commit r := by
  obtain ⟨c, hc⟩ := computedOf_isSome s hcontrol
  obtain ⟨hf, -⟩ | ⟨-, code, rfl⟩ | ⟨-, r, rfl, hroom, rfl⟩ := State.execute_cases ((exec_of_computed hc).symm.trans h)
  · exact absurd (hr.2.symm.trans hf) Bool.false_ne_true
  · simp at ht
  · exact ⟨r, hc, hroom, rfl⟩

/-- A commit that fits emits the output's bits (R52), from any state that meets the invariant. -/
theorem State.Inv.emitted_commit {s : State} (hi : s.Inv) (hc : s.configured = true) {r : Result}
    (hroom : s.Room (Output.len r.out)) : Emitted s (s.commit r) (Output.bits r.out) := by
  obtain ⟨hwf, -, -, hwindow⟩ := hi
  obtain ⟨-, -, hclear⟩ := hwindow hc
  exact State.commit_emitted hwf hclear hroom

/-- What was emitted between two states is what stands in memory between their cursors. -/
theorem Emitted.bits_eq {s t : State} {a b : List Bool} (ha : Emitted s t a) (hb : Emitted s t b) : a = b := by
  obtain ⟨hposa, hreada, -⟩ := ha
  obtain ⟨hposb, hreadb, -⟩ := hb
  exact List.ext_getElem (by omega) fun k hka hkb => (hreada k hka).symm.trans (hreadb k hkb)

/-- Where ENCODE_BIN_EP completes, it has emitted the bits of its bypass decision and stored what that leaves. -/
theorem exec_encodeBinEp_completed {bin : Bool} {s t : State} (hi : s.Inv) (hr : s.Ready)
    (h : exec (.encodeBinEp bin) s = .next t) (ht : t.faulted = false) : ∃ bits, Emitted s t bits ∧
      Coded s.coder bits t.coder 1 (if bin then s.coder.range.toNat else 0) ∧ t.coder.range = s.coder.range := by
  obtain ⟨r, hcomputed, hroom, rfl⟩ := exec_completed rfl hr h ht
  obtain ⟨hc, -⟩ | ⟨d, hd, hc⟩ := computeEncodeBinEp_cases s.coder bin
  · cases (congrArg some hc).symm.trans hcomputed
  · cases (congrArg some hc).symm.trans hcomputed
    rw [State.commit_coder]
    exact ⟨_, hi.emitted_commit hr.1 hroom, bypassDecide_coded (State.coder_legal hi hr.1) hd⟩

/-- Settles O40: what stands emitted is the output of the bypass decision, whose code value is the doubled one. -/
theorem bypassChoosesHalf : Obligations.BypassChoosesHalf := by
  intro bin s t bits pre hi hr h ht hemitted hpre
  obtain ⟨bits', hemitted', hcoded, -⟩ := exec_encodeBinEp_completed hi hr h ht
  obtain rfl := hemitted'.bits_eq hemitted
  rw [hcoded.value pre (CoderRegs.fresh_of_nil hpre)]
  cases bin <;> simp

/-! ### FIRST_BIT_FLAG -/

/-- No compute step sets FIRST_BIT_FLAG (R28). -/
theorem computedOf_firstBit {i : Instr} {s : State} {r : Result} (h : computedOf s i = some (.done r))
    (hr : r.coder.firstBit = true) : s.coder.firstBit = true := by
  cases i with
  | reset | readReg => cases h
  | encodeBin ctx bin =>
    rw [computedOf, computeEncodeBin, Option.some.injEq] at h
    cases he : renormE (chooseInterval s.coder ctx bin) with
    | ok d =>
      rw [he] at h
      cases h
      have hfirst := renormLoop_firstBit he hr
      unfold chooseInterval at hfirst
      split at hfirst <;> exact hfirst
    | overflow | endless => rw [he] at h; cases h
  | encodeBinEp bin =>
    obtain ⟨hc, -⟩ | ⟨d, hd, hc⟩ := computeEncodeBinEp_cases s.coder bin
    · cases (congrArg some hc).symm.trans h
    · cases (congrArg some hc).symm.trans h
      exact Coder.bypassDecide_firstBit hd hr
  | sliceFinish =>
    rw [computedOf, computeSliceFinish, Option.some.injEq] at h
    cases he : renormE (chooseTerminate s.coder) with
    | ok d => rw [he] at h; cases h; cases hr
    | overflow | endless => rw [he] at h; cases h
  | _ => exact (congrArg CoderRegs.firstBit (coder_eq_of_computedOf rfl h)).symm.trans hr

theorem State.illegalWord_coder (s : State) : s.illegalWord.coder = s.coder := by
  unfold State.illegalWord
  split <;> rfl

/-- Settles O45: a fault and a register read leave the flag, no compute step sets it, and what is left is a good RESET. -/
theorem firstBitFlagOnlySetByReset : Obligations.FirstBitFlagOnlySetByReset := by
  intro s t hstep hfirst
  obtain ⟨-, hs⟩ | ⟨rest, -, hs⟩ | ⟨i, rest, hdecode, hs⟩ := step_cases s
  · cases hs.symm.trans hstep
    exact .inl hfirst
  · cases hs.symm.trans hstep
    rw [State.illegalWord_coder] at hfirst
    exact .inl hfirst
  · obtain ⟨-, -, rfl⟩ | ⟨-, code, rfl⟩ | ⟨-, -, r, hr, -, rfl⟩ | ⟨sbo, start, stop, rfl, hgood, rfl⟩ |
      ⟨reg, v, -, -, -, rfl⟩ := exec_cases (hs.symm.trans hstep)
    · exact .inl hfirst
    · exact .inl hfirst
    · rw [State.commit_coder] at hfirst
      exact .inl (computedOf_firstBit hr hfirst)
    · exact .inr ⟨sbo, start, stop, rest, hdecode, hgood⟩
    · exact .inl hfirst

/-! ### The tables -/

/-- The LPS widths of the table (R141): at least 6 but in state 63, where they are 2. -/
theorem rangeTabLps_by_state (state : BitVec 6) (q : BitVec 2) :
    (state.toNat ≠ 63 → 6 ≤ rangeTabLps state q) ∧ (state.toNat = 63 → rangeTabLps state q = 2) := by
  have h : ∀ (i : Fin 64) (j : Fin 4), (i.val ≠ 63 → 6 ≤ rangeTabLps (BitVec.ofFin i) (BitVec.ofFin j)) ∧
      (i.val = 63 → rangeTabLps (BitVec.ofFin i) (BitVec.ofFin j) = 2) := by decide +kernel
  exact h state.toFin q.toFin

theorem ctxState_toNat (ctx : BitVec 7) : (ctxState ctx).toNat = ctx.toNat % 64 := by
  simp [ctxState, BitVec.extractLsb'_toNat]

/-- Settles O34: by the table's rows. -/
theorem lpsWidthBounds : Obligations.LpsWidthBounds := by
  intro r ctx hlo _
  obtain ⟨-, hreduced⟩ := lps_le_range hlo (ctxState ctx)
  rw [← ctxState_toNat]
  exact ⟨hreduced, rangeTabLps_by_state (ctxState ctx) (quantIndex r.range)⟩

/-- The transitions of the table (R142): an MPS steps up to state 62, an LPS stays below 63, and 63 is absorbing. -/
theorem transIdx_toNat (state : BitVec 6) :
    (transIdxMps state).toNat = (if state.toNat ≤ 61 then state.toNat + 1 else state.toNat) ∧
      (state.toNat ≠ 63 → (transIdxLps state).toNat ≤ 62) ∧ (state.toNat = 63 → transIdxLps state = state) := by
  have h : ∀ i : Fin 64,
      (transIdxMps (BitVec.ofFin i)).toNat = (if i.val ≤ 61 then i.val + 1 else i.val) ∧
        (i.val ≠ 63 → (transIdxLps (BitVec.ofFin i)).toNat ≤ 62) ∧
        (i.val = 63 → transIdxLps (BitVec.ofFin i) = BitVec.ofFin i) := by decide +kernel
  exact h state.toFin

theorem packCtx_toNat (mps : Bool) (state : BitVec 6) : (packCtx mps state).toNat = 64 * mps.toNat + state.toNat := by
  rw [← packCtx_response_toNat, BitVec.toNat_setWidth_of_le (by decide)]

/-- A context word is its MPS and its state (R143). -/
theorem packCtx_ctxMps_ctxState (ctx : BitVec 7) : packCtx (ctxMps ctx) (ctxState ctx) = ctx := by
  revert ctx
  decide

theorem packCtx_getLsbD_six (mps : Bool) (state : BitVec 6) : (packCtx mps state).getLsbD 6 = mps := by
  rw [packCtx, BitVec.getLsbD_append]
  simp

/-- Settles O35: by whether the bin is the MPS, from the transitions of the state and the flip in state 0. -/
theorem contextStateMachine : Obligations.ContextStateMachine := by
  intro ctx bin
  have hctx := packCtx_ctxMps_ctxState ctx
  have hnumber : ctx.toNat = 64 * (ctxMps ctx).toNat + (ctxState ctx).toNat := by rw [← packCtx_toNat, hctx]
  have hzero : ctxState ctx = 0 ↔ (ctxState ctx).toNat = 0 := BitVec.toNat_inj.symm
  rw [← ctxState_toNat, show ctx.getLsbD 6 = ctxMps ctx from rfl, nextCtx]
  obtain ⟨hmps, hlps, habsorbing⟩ := transIdx_toNat (ctxState ctx)
  generalize ctxState ctx = state, ctxMps ctx = mps at *
  by_cases hbin : bin = mps
  · simp only [if_pos hbin, packCtx_toNat, hmps]
    refine ⟨fun _ => ?_, fun hne => absurd hbin hne, fun h63 => ?_, fun h63 => ?_⟩
    · split <;> omega
    · rw [← hctx]
      congr 1
      exact BitVec.eq_of_toNat_eq (by rw [hmps, if_neg (by omega)])
    · split <;> omega
  · simp only [if_neg hbin, packCtx_getLsbD_six, hzero]
    refine ⟨fun heq => absurd heq hbin, fun _ => ?_, fun h63 => ?_, fun h63 => ?_⟩
    · by_cases h0 : state.toNat = 0 <;> simp [h0]
    · rw [if_neg (by omega), habsorbing h63, hctx]
    · have := hlps h63
      rw [packCtx_toNat]
      omega

/-! ### Bits of memory between two positions -/

@[simp] theorem State.length_bitsFrom (s : State) (P Q : Nat) : (s.bitsFrom P Q).length = Q - P := by
  simp [State.bitsFrom]

theorem State.bitsFrom_self (s : State) (P : Nat) : s.bitsFrom P P = [] := by
  simp [State.bitsFrom]

/-- What is emitted from `s` to `t` stands in memory behind what stood before the cursor of `s`. -/
theorem Emitted.bitsFrom_eq {s t : State} {bits : List Bool} (h : Emitted s t bits) {base : Nat} (hbase : base ≤ s.absPos) :
    t.bitsFrom base t.absPos = s.bitsFrom base s.absPos ++ bits := by
  obtain ⟨hpos, hread, hkept, -⟩ := h
  refine List.ext_getElem (by rw [List.length_append, State.length_bitsFrom, State.length_bitsFrom]; omega) fun k hk _ => ?_
  simp only [State.bitsFrom, List.getElem_map, List.getElem_range]
  by_cases hbefore : k < s.absPos - base
  · rw [List.getElem_append_left (by simpa using hbefore), List.getElem_map, List.getElem_range]
    exact hkept _ (.inl (by omega))
  · rw [List.getElem_append_right (by simpa using hbefore), ← hread]
    · simp only [List.length_map, List.length_range]
      congr 1
      omega

/-! ### The decoder follows the coder -/

/-- The decoder that has read `n` bits of the codeword `C`, with an interval of the low end `low` and the width `range`: its
offset is how far the bits read lie above the low end. -/
def Decoder.after (C : List Bool) (n : Nat) (low : Int) (range : Nat) : Decoder :=
  { range := range, offset := (natOfBits (C.take n) - low).toNat, bits := C.drop n }

@[simp] theorem Decoder.after_range (C : List Bool) (n : Nat) (low : Int) (range : Nat) :
    (Decoder.after C n low range).range = range := rfl

@[simp] theorem Decoder.after_offset (C : List Bool) (n : Nat) (low : Int) (range : Nat) :
    (Decoder.after C n low range).offset = (natOfBits (C.take n) - low).toNat := rfl

/-- The number of `n + k` bits of a codeword is that of its first `n` bits at the scale of `k` more, and less than one of their
units. -/
theorem natOfBits_take_add {C : List Bool} {n k : Nat} (h : n + k ≤ C.length) :
    ∃ x, x < 2 ^ k ∧ natOfBits (C.take (n + k)) = 2 ^ k * natOfBits (C.take n) + x := by
  have hlength : ((C.drop n).take k).length = k := by
    rw [List.length_take, List.length_drop]
    omega
  refine ⟨natOfBits ((C.drop n).take k), by simpa only [hlength] using natOfBits_lt ((C.drop n).take k), ?_⟩
  rw [List.take_add, natOfBits_append, hlength, Nat.mul_comm]

theorem natOfBits_take_succ {C : List Bool} {n : Nat} (h : n < C.length) :
    natOfBits (C.take (n + 1)) = 2 * natOfBits (C.take n) + C[n].toNat := by
  rw [List.take_succ_eq_append_getElem h, natOfBits_append, natOfBits_singleton, List.length_singleton, pow_one, Nat.mul_comm]

/-- Reading a bit doubles the low end. -/
theorem Decoder.shift_after {C : List Bool} {n : Nat} {low : Int} (range : Nat) (hn : n < C.length)
    (hlow : low ≤ natOfBits (C.take n)) : (Decoder.after C n low range).shift = Decoder.after C (n + 1) (2 * low) range := by
  have hoffset : 2 * (natOfBits (C.take n) - low).toNat + C[n].toNat = (natOfBits (C.take (n + 1)) - 2 * low).toNat := by
    rw [natOfBits_take_succ hn]
    omega
  simp only [Decoder.shift, Decoder.after, List.drop_eq_getElem_cons hn, hoffset]

/-- The decoder's renormalisation reads as many bits as the coder's takes in. -/
theorem Decoder.renorm_after {C : List Bool} {k fuel n range : Nat} {low : Int} (hfuel : k ≤ fuel) (hn : n + k ≤ C.length)
    (hlow : low ≤ natOfBits (C.take n)) (hrange : 256 ≤ 2 ^ k * range) (hleast : k ≠ 0 → 2 ^ (k - 1) * range < 256) :
    Decoder.renorm fuel (Decoder.after C n low range) = Decoder.after C (n + k) (2 ^ k * low) (2 ^ k * range) := by
  induction k generalizing fuel n low range with
  | zero =>
    simp only [pow_zero, one_mul, Nat.add_zero] at hrange ⊢
    cases fuel with
    | zero => rfl
    | succ fuel => exact if_neg (not_lt.2 hrange)
  | succ k ih =>
    obtain ⟨fuel, rfl⟩ : ∃ m, fuel = m + 1 := ⟨fuel - 1, by omega⟩
    have hsmall : range < 256 := lt_of_le_of_lt (Nat.le_mul_of_pos_left range (Nat.two_pow_pos k)) (hleast k.succ_ne_zero)
    have hread := natOfBits_take_succ (C := C) (n := n) (by omega)
    rw [Decoder.renorm, Decoder.after_range, if_pos hsmall, Decoder.shift_after range (by omega) hlow]
    refine (ih (range := 2 * range) (low := 2 * low) (by omega) (by omega) (by omega) ?_ fun hk => ?_).trans ?_
    · rwa [← mul_assoc, ← pow_succ]
    · obtain ⟨m, rfl⟩ := Nat.exists_eq_succ_of_ne_zero hk
      rw [← mul_assoc, Nat.succ_sub_one, ← pow_succ]
      exact hleast (Nat.succ_ne_zero _)
    · rw [← mul_assoc, ← pow_succ, ← mul_assoc, ← pow_succ, Nat.add_assoc, Nat.add_comm 1 k]

/-- The decoder's LPS width is the coder's (R141, R144). -/
theorem decoderLps_eq (r : CoderRegs) (ctx : BitVec 7) :
    rangeTabLps (ctx.extractLsb' 0 6) (BitVec.ofNat 2 (r.range.toNat / 64)) = lpsWidth r ctx := by
  have hq : BitVec.ofNat 2 (r.range.toNat / 64) = r.range.extractLsb' 6 2 := by
    apply BitVec.eq_of_toNat_eq
    simp [BitVec.extractLsb'_toNat, Nat.shiftRight_eq_div_pow]
  rw [hq, lpsWidth]

/-- Where the codeword lies in the sub-interval of a bin, the decoder reads that bin and goes on in the sub-interval. -/
theorem Decoder.bin_context_after {C : List Bool} {n : Nat} {low : Int} {r : CoderRegs} (hr : r.Legal) (ctx : BitVec 7)
    (v : Bool) (hlow : low + subStart r ctx v ≤ natOfBits (C.take n))
    (hhigh : (natOfBits (C.take n) : Int) < low + subStart r ctx v + subWidth r ctx v) :
    (Decoder.after C n low r.range.toNat).bin (.context ctx v) =
      (v, Decoder.renorm 8 (Decoder.after C n (low + subStart r ctx v) (subWidth r ctx v))) := by
  obtain ⟨-, hlps⟩ : 2 ≤ lpsWidth r ctx ∧ lpsWidth r ctx + 128 ≤ r.range.toNat := lps_le_range hr.1 (ctxState ctx)
  unfold subStart at hlow hhigh ⊢
  unfold subWidth at hhigh ⊢
  simp only [Decoder.bin, Decoder.after_range, Decoder.after_offset, decoderLps_eq]
  by_cases hv : v = ctx.getLsbD 6
  · simp only [if_pos hv] at hlow hhigh ⊢
    rw [if_neg (by omega), ← hv]
    simp [Decoder.after]
  · simp only [if_neg hv] at hlow hhigh ⊢
    rw [if_pos (by omega)]
    have hoffset : (natOfBits (C.take n) - low).toNat - (r.range.toNat - lpsWidth r ctx) =
        (natOfBits (C.take n) - (low + (r.range.toNat - lpsWidth r ctx : Nat))).toNat := by omega
    simp only [Decoder.after, hoffset, Bool.eq_not.2 hv]

/-- Where the codeword lies in the half of a bypass bin, the decoder reads that bin and goes on in the half. -/
theorem Decoder.bin_bypass_after {C : List Bool} {n : Nat} {low : Int} {range : Nat} (v : Bool) (hn : n < C.length)
    (hbelow : low ≤ natOfBits (C.take n)) (hlow : 2 * low + (if v then range else 0 : Nat) ≤ natOfBits (C.take (n + 1)))
    (hhigh : (natOfBits (C.take (n + 1)) : Int) < 2 * low + (if v then range else 0 : Nat) + range) :
    (Decoder.after C n low range).bin (.bypass v) =
      (v, Decoder.after C (n + 1) (2 * low + (if v then range else 0 : Nat)) range) := by
  simp only [Decoder.bin, Decoder.after_range, Decoder.shift_after range hn hbelow, Decoder.after_offset]
  cases v with
  | false =>
    simp only [Bool.false_eq_true, if_false] at hlow hhigh ⊢
    rw [if_neg (by omega)]
    simp
  | true =>
    simp only [if_true] at hlow hhigh ⊢
    rw [if_pos (by omega)]
    have hoffset : (natOfBits (C.take (n + 1)) - 2 * low).toNat - range =
        (natOfBits (C.take (n + 1)) - (2 * low + range)).toNat := by omega
    simp only [Decoder.after, hoffset]

/-! ### The codeword decodes -/

/-- Where ENCODE_BIN completes, it has coded the sub-interval of its bin, doubled until its width is 256. -/
theorem exec_encodeBin_completed {ctx : BitVec 7} {bin : Bool} {s t : State} (hi : s.Inv) (hr : s.Ready)
    (h : exec (.encodeBin ctx bin) s = .next t) (ht : t.faulted = false) : ∃ bits k, Emitted s t bits ∧
      Coded s.coder bits t.coder k (2 ^ k * subStart s.coder ctx bin) ∧
      t.coder.range.toNat = 2 ^ k * subWidth s.coder ctx bin ∧ (k ≠ 0 → 2 ^ (k - 1) * subWidth s.coder ctx bin < 256) := by
  obtain ⟨r, hcomputed, hroom, rfl⟩ := exec_completed rfl hr h ht
  have hlegal := State.coder_legal hi hr.1
  obtain ⟨hc, -⟩ | ⟨d, hd, hc⟩ := computeEncodeBin_cases hlegal ctx bin
  · cases (congrArg some hc).symm.trans hcomputed
  · cases (congrArg some hc).symm.trans hcomputed
    obtain ⟨-, k, hcoded⟩ := (chooseInterval_movedFrom hlegal ctx bin).coded_of_renormE hd
    rw [State.commit_coder]
    exact ⟨_, k, hi.emitted_commit hr.1 hroom, hcoded⟩

/-- A run of commands is its first command and the rest from the state that leaves. -/
theorem execAll_cons_iff {i : Instr} {is : List Instr} {s t : State} :
    execAll (i :: is) s = some t ↔ ∃ u, exec i s = .next u ∧ execAll is u = some t := by
  rw [execAll]
  cases exec i s <;> simp [nextState?]

/-- While FAULTED no command other than RESET clears the fault (R216). -/
theorem execAll_faulted {is : List Instr} {s t : State} (his : ∀ i ∈ is, i.isReset = false) (hs : s.faulted = true)
    (h : execAll is s = some t) : t.faulted = true := by
  induction is generalizing s with
  | nil =>
    cases h
    exact hs
  | cons i is ih =>
    rw [List.forall_mem_cons] at his
    obtain ⟨u, hu, hrest⟩ := execAll_cons_iff.1 h
    refine ih his.2 ?_ hrest
    by_contra hf
    obtain ⟨sbo, start, stop, rfl, -⟩ := exec_eq_bindWindow hs hu (by simpa using hf)
    cases his.1

/-- How many bits of the codeword the decoder has read when it follows the coder at the registers `r`, `pre` being the bits
emitted: those the coder has taken in, and the nine of its offset. -/
def bitsRead (pre : List Bool) (r : CoderRegs) : Nat := pre.length + r.load.count + 9

theorem Coded.bitsRead_append {r q : CoderRegs} {bits : List Bool} {k low : Nat} (h : Coded r bits q k low) (pre : List Bool) :
    bitsRead (pre ++ bits) q = bitsRead pre r + k := by
  have := h.count
  rw [bitsRead, bitsRead, List.length_append]
  omega

/-- The codeword `C` lies in the interval of the registers `r` with the emitted bits `pre`, and the decoder that follows reads
from it the bins that are still to come and the terminating bin. -/
structure Decodes (C pre : List Bool) (r : CoderRegs) (bins : List Bin) : Prop where
  length : bitsRead pre r ≤ C.length
  low_le : codeValue pre r ≤ natOfBits (C.take (bitsRead pre r))
  lt_high : (natOfBits (C.take (bitsRead pre r)) : Int) < codeValue pre r + r.range.toNat
  run : (Decoder.after C (bitsRead pre r) (codeValue pre r) r.range.toNat).run bins = (bins.map Bin.value, true)

/-- The codeword as SLICE_FINISH ends it reads as the terminating bin 1. -/
theorem Terminates.decodes {r : CoderRegs} {d : Coder} (h : Terminates r d) (hr : r.Legal) {pre : List Bool}
    (hpre : r.Fresh pre) (zeros : List Bool) : Decodes (pre ++ (d.flushBody ++ true :: zeros)) pre r [] := by
  have hword : pre ++ (d.flushBody ++ true :: zeros) = pre ++ d.flushBody ++ [true] ++ zeros := by simp
  have hlength : (pre ++ d.flushBody ++ [true]).length = bitsRead pre r := by
    simp [h.length, bitsRead]
    omega
  have htake : (pre ++ (d.flushBody ++ true :: zeros)).take (bitsRead pre r) = pre ++ d.flushBody ++ [true] := by
    rw [hword, ← hlength, List.take_left]
  have hlow := h.low_le pre hpre
  have hhigh := h.lt_high pre hpre
  have hrange := hr.1
  refine ⟨?_, ?_, ?_, ?_⟩
  · rw [hword, List.length_append, hlength]
    omega
  · rw [htake]
    omega
  · rw [htake]
    exact hhigh
  · simp only [Decoder.run, Decoder.after_range, Decoder.after_offset, htake, List.map_nil, Prod.mk.injEq, true_and,
      decide_eq_true_iff]
    omega

/-- A number at the scale of `m` more values, between the bounds of an interval at that scale, is between the bounds. -/
theorem between_of_scaled {m x a b c : Int} (hx : 0 ≤ x) (hxm : x < m) (hlow : m * a ≤ m * b + x) (hhigh : m * b + x < m * c) :
    a ≤ b ∧ b < c := by
  constructor
  · by_contra hab
    nlinarith
  · by_contra hbc
    nlinarith

/-- A codeword in the doubled sub-interval of a context bin lies in the sub-interval, so the decoder reads the bin. -/
theorem Decodes.context {C pre bits : List Bool} {r q : CoderRegs} {ctx : BitVec 7} {v : Bool} {k : Nat} {bins : List Bin}
    (h : Decodes C (pre ++ bits) q bins) (hr : r.Legal) (hpre : r.Fresh pre)
    (hcoded : Coded r bits q k (2 ^ k * subStart r ctx v)) (hrange : q.range.toNat = 2 ^ k * subWidth r ctx v)
    (hleast : k ≠ 0 → 2 ^ (k - 1) * subWidth r ctx v < 256) : Decodes C pre r (.context ctx v :: bins) := by
  obtain ⟨hlength, hlow, hhigh, hrun⟩ := h
  obtain ⟨hinside, hwidth, -⟩ := subInterval_bounds hr ctx v
  have hk : k ≤ 7 := doublings_le (by decide) hwidth hleast
  have hvalue : codeValue (pre ++ bits) q = 2 ^ k * (codeValue pre r + subStart r ctx v) := by
    rw [hcoded.value pre hpre]
    push_cast
    ring
  rw [hcoded.bitsRead_append] at hlength hlow hhigh hrun
  rw [hvalue] at hlow hhigh hrun
  rw [hrange] at hhigh hrun
  obtain ⟨x, hx, hread⟩ := natOfBits_take_add hlength
  rw [hread] at hlow hhigh
  push_cast at hlow hhigh
  rw [← mul_add] at hhigh
  obtain ⟨hsub_low, hsub_high⟩ := between_of_scaled (m := 2 ^ k) (Int.natCast_nonneg x) (by exact_mod_cast hx) hlow hhigh
  refine ⟨by omega, by omega, by omega, ?_⟩
  have hlegal := hcoded.legal.1
  rw [Decoder.run, Decoder.bin_context_after hr ctx v hsub_low hsub_high,
    Decoder.renorm_after (by omega) hlength hsub_low (hrange ▸ hlegal) hleast, hrun]
  rfl

/-- A codeword in the half of a bypass bin lies in the interval, and the decoder reads the bin. -/
theorem Decodes.bypass {C pre bits : List Bool} {r q : CoderRegs} {v : Bool} {bins : List Bin}
    (h : Decodes C (pre ++ bits) q bins) (hpre : r.Fresh pre)
    (hcoded : Coded r bits q 1 (if v then r.range.toNat else 0)) (hrange : q.range = r.range) :
    Decodes C pre r (.bypass v :: bins) := by
  obtain ⟨hlength, hlow, hhigh, hrun⟩ := h
  rw [hcoded.bitsRead_append] at hlength hlow hhigh hrun
  rw [hcoded.value pre hpre, pow_one] at hlow hhigh hrun
  rw [hrange] at hhigh hrun
  obtain ⟨x, hx, hread⟩ := natOfBits_take_add hlength
  have hhalf : (if v then r.range.toNat else 0) ≤ r.range.toNat := by split <;> omega
  have hbelow : codeValue pre r ≤ natOfBits (C.take (bitsRead pre r)) := by omega
  refine ⟨by omega, hbelow, by omega, ?_⟩
  rw [Decoder.run, Decoder.bin_bypass_after v (by omega) hbelow hlow hhigh, hrun]
  rfl

/-- After a fault the block is FAULTED (R211). -/
theorem State.withFault_faulted (s : State) (code : BitVec 4) : (s.withFault code).faulted = true := by
  have h : ∀ (code : BitVec 4) (c : Bool), (code ++ 0b001#3 ++ BitVec.ofBool c).getLsbD 1 = true := by decide
  exact h code s.configured

/-- A command that completes does not end in a fault. -/
theorem exec_ne_withFault {i : Instr} {s t : State} (h : exec i s = .next t) (ht : t.faulted = false) (code : BitVec 4) :
    exec i s ≠ .next (s.withFault code) := fun hfault => by
  cases h.symm.trans hfault
  rw [State.withFault_faulted] at ht
  cases ht

/-- Where SLICE_FINISH completes, it has emitted the codeword's end, the stop bit and zeros. -/
theorem exec_sliceFinish_completed {s t : State} (hi : s.Inv) (hr : s.Ready) (h : exec .sliceFinish s = .next t)
    (ht : t.faulted = false) : ∃ d zeros, Terminates s.coder d ∧ Emitted s t (d.flushBody ++ true :: zeros) := by
  have hcompleted := exec_ne_withFault h ht
  obtain ⟨-, hover⟩ | ⟨d, z, hd, -, hfull, hfits⟩ := exec_sliceFinish hi hr
  · exact absurd hover (hcompleted 5)
  · by_cases hroom : s.Room (d.flushBody.length + 1 + z)
    · obtain ⟨u, hu, hemitted, -⟩ := hfits hroom
      cases hu.symm.trans h
      exact ⟨d, _, terminates_of_renormE (State.coder_legal hi hr.1) hd, hemitted⟩
    · exact absurd (hfull hroom) (hcompleted 4)

theorem Bin.instr_isControl (b : Bin) : b.instr.isControl = false := by cases b <;> rfl

/-- A command with a compute step that completes leaves the block Ready. -/
theorem exec_ready {i : Instr} {s t : State} (hcontrol : i.isControl = false) (hr : s.Ready) (h : exec i s = .next t)
    (ht : t.faulted = false) : t.Ready := by
  obtain ⟨r, -, -, rfl⟩ := exec_completed hcontrol hr h ht
  exact ⟨(s.commit_configured r).trans hr.1, ht⟩

/-- A stream of bins ended by SLICE_FINISH, from any state of the coder: what stands in memory then decodes to the bins. -/
theorem decodes_of_execAll {base : Nat} {t : State} (ht : t.faulted = false) {bins : List Bin} {s : State} (hi : s.Inv)
    (hr : s.Ready) (hbase : base ≤ s.absPos) (hfresh : s.coder.Fresh (s.bitsFrom base s.absPos))
    (h : execAll (bins.map Bin.instr ++ [.sliceFinish]) s = some t) :
    Decodes (t.bitsFrom base t.absPos) (s.bitsFrom base s.absPos) s.coder bins := by
  induction bins generalizing s with
  | nil =>
    obtain ⟨u, hu, hend⟩ := execAll_cons_iff.1 h
    cases hend
    obtain ⟨d, zeros, hterminates, hemitted⟩ := exec_sliceFinish_completed hi hr hu ht
    rw [hemitted.bitsFrom_eq hbase]
    exact hterminates.decodes (State.coder_legal hi hr.1) hfresh zeros
  | cons b bins ih =>
    obtain ⟨u, hu, hrest⟩ := execAll_cons_iff.1 h
    have hno_reset : ∀ i ∈ bins.map Bin.instr ++ [.sliceFinish], i.isReset = false := by
      intro i hmem
      obtain hmem | hmem := List.mem_append.1 hmem
      · obtain ⟨c, -, rfl⟩ := List.mem_map.1 hmem
        exact isReset_eq_false_of_not_control c.instr_isControl
      · rw [List.mem_singleton.1 hmem]
        rfl
    have hu_ok : u.faulted = false := by
      by_contra hf
      exact Bool.false_ne_true (ht.symm.trans (execAll_faulted hno_reset (by simpa using hf) hrest))
    have hu_decodes {bits : List Bool} {k low : Nat} (hemitted : Emitted s u bits) (hcoded : Coded s.coder bits u.coder k low) :
        Decodes (t.bitsFrom base t.absPos) (s.bitsFrom base s.absPos ++ bits) u.coder bins := by
      rw [← hemitted.bitsFrom_eq hbase]
      refine ih (exec_inv hi hu) (exec_ready b.instr_isControl hr hu hu_ok) (hemitted.1 ▸ Nat.le_add_right_of_le hbase) ?_ hrest
      rw [hemitted.bitsFrom_eq hbase]
      exact hcoded.fresh _ hfresh
    cases b with
    | context ctx v =>
      obtain ⟨bits, k, hemitted, hcoded, hrange, hleast⟩ := exec_encodeBin_completed hi hr hu hu_ok
      exact (hu_decodes hemitted hcoded).context (State.coder_legal hi hr.1) hfresh hcoded hrange hleast
    | bypass v =>
      obtain ⟨bits, hemitted, hcoded, hrange⟩ := exec_encodeBinEp_completed hi hr hu hu_ok
      exact (hu_decodes hemitted hcoded).bypass hfresh hcoded hrange

/-- Settles O44: the decoder that starts on the codeword follows the coder from its initial registers, with nothing emitted. -/
theorem codewordDecodes : Obligations.CodewordDecodes := by
  intro s t bins hi hr hinit h ht
  have hfresh : s.coder.Fresh (s.bitsFrom s.absPos s.absPos) := CoderRegs.fresh_of_nil fun _ => s.bitsFrom_self _
  have hrun := (decodes_of_execAll ht hi hr le_rfl hfresh h).run
  rw [State.bitsFrom_self, hinit] at hrun
  exact hrun

/-! ### The host's actions -/

/-- Taking positions out of regions that are clear of the rest of the window leaves them clear. -/
theorem regionsMinus_drawnClear {s : State} (h : s.DrawnClear) {lo hi : Nat} :
    ∀ r ∈ regionsMinus s.drawn lo hi, r.hi ≤ s.absPos ∨ 8 * s.bufEnd.toNat ≤ r.lo := by
  intro r hr
  obtain ⟨q, hq, hlo, hhi⟩ := regionsMinus_inside hr
  have := h q hq
  omega

/-- A byte stored outside the window keeps memory canonical and lists no new region (log entry 13). -/
theorem State.hostStore_inv {s : State} (h : s.Inv) (a : Nat) (v : Byte) : (s.hostStore a v).Inv := by
  obtain ⟨hwf, hparams, hstatus, hwindow⟩ := h
  refine ⟨Memory.wf_write a v hwf, hparams, hstatus, fun hc => ?_⟩
  obtain ⟨hlegal, hcoder, hclear⟩ := hwindow hc
  exact ⟨hlegal, hcoder, regionsMinus_drawnClear hclear⟩

/-- A written window byte is listed up to the cursor only (R65; log entry 13). -/
theorem State.hostSpoil_inv {s : State} (h : s.Inv) (a : Nat) : (s.hostSpoil a).Inv := by
  obtain ⟨hwf, hparams, hstatus, hwindow⟩ := h
  refine ⟨hwf, hparams, hstatus, fun hc => ?_⟩
  obtain ⟨hlegal, hcoder, hclear⟩ := hwindow hc
  refine ⟨hlegal, hcoder, ?_⟩
  unfold State.DrawnClear
  rw [State.hostSpoil_drawn, State.hostSpoil_absPos, State.hostSpoil_bufEnd]
  split
  · exact List.forall_mem_cons.2 ⟨.inl (min_le_right _ _), regionsMinus_drawnClear hclear⟩
  · exact hclear

/-- Settles O14: sending and taking touch the port and the response channel only, a write touches memory only. -/
theorem hostActionsKeepInv : Obligations.HostActionsKeepInv := by
  intro s hi
  refine ⟨fun ws => ⟨hi, rfl, fun n => rfl⟩, fun v t ht => ?_, fun a v t ht => ?_⟩
  · unfold State.hostTake at ht
    split at ht
    · cases ht
    · rename_i hresponses
      cases ht
      exact ⟨hi, hresponses, fun n => rfl⟩
  · obtain ⟨-, ⟨-, rfl⟩ | ⟨-, rfl⟩⟩ := State.hostWrite_cases ht
    · exact ⟨State.hostSpoil_inv hi a, fun n => rfl⟩
    · exact ⟨State.hostStore_inv hi a v, fun n => rfl⟩

theorem State.hostRead_of_exists {s : State} {a : Nat} (h : a < 2 ^ s.params.addrW) :
    s.hostRead a = some ((List.range 8).map fun j => s.hostReadBit (8 * a + j)) := by
  simp [State.hostRead, State.addressExists, h]

theorem State.hostRead_eq_none_iff (s : State) (a : Nat) : s.hostRead a = none ↔ 2 ^ s.params.addrW ≤ a := by
  simp [State.hostRead, State.addressExists]

theorem State.hostWrite_eq_none_iff (s : State) (a : Nat) (v : Byte) : s.hostWrite a v = none ↔ 2 ^ s.params.addrW ≤ a := by
  simp [State.hostWrite, State.addressExists]

theorem State.hostReadBit_of_coherent {s : State} (h : s.params.platformCoherent = true) (P : Nat) :
    s.hostReadBit P = s.readBit P := by
  rw [State.hostReadBit, h, if_pos rfl]

/-- A host read on a coherent platform gives the bits of memory (R69, D30). -/
theorem State.hostRead_of_coherent {s : State} {a : Nat} (ha : a < 2 ^ s.params.addrW)
    (h : s.params.platformCoherent = true) : s.hostRead a = some (s.readByte a) := by
  rw [State.hostRead_of_exists ha]
  simp only [State.hostReadBit_of_coherent h]
  rfl

/-- On a coherent platform host reads agree where memory does. -/
theorem State.hostRead_congr {s t : State} {a : Nat} (hparams : t.params = s.params) (h : s.params.platformCoherent = true)
    (hread : ∀ P, P / 8 = a → t.readBit P = s.readBit P) : t.hostRead a = s.hostRead a := by
  have hbits : (List.range 8).map (fun j => t.hostReadBit (8 * a + j)) =
      (List.range 8).map fun j => s.hostReadBit (8 * a + j) := by
    refine List.map_congr_left fun j hj => ?_
    rw [List.mem_range] at hj
    rw [State.hostReadBit_of_coherent (hparams ▸ h), State.hostReadBit_of_coherent h, hread _ (by omega)]
  rw [State.hostRead, State.hostRead, State.addressExists, State.addressExists, hparams, hbits]

/-- A host read of a byte whose bits in memory are known (R53). -/
theorem State.hostRead_of_readBit {s : State} {a : Nat} {f : Nat → Bool} (ha : a < 2 ^ s.params.addrW)
    (h : s.params.platformCoherent = true) (hread : ∀ j < 8, s.readBit (8 * a + j) = f j) :
    s.hostRead a = some ((List.range 8).map f) := by
  rw [State.hostRead_of_coherent ha h, State.readByte]
  exact congrArg some (List.map_congr_left fun j hj => hread j (List.mem_range.1 hj))

/-- A byte outside the window has no bit in the part of the window not yet emitted. -/
theorem State.outside_tail_of_not_inWindow {s : State} (hi : s.Inv) {a P : Nat} (hw : s.inWindow a = false) (hP : P / 8 = a)
    (hc : s.configured = true) : P < s.absPos ∨ 8 * s.bufEnd.toNat ≤ P := by
  obtain ⟨-, -, -, hwindow⟩ := hi
  obtain ⟨⟨-, -, -, hstart, -⟩, -, -⟩ := hwindow hc
  simp [State.inWindow, hc] at hw
  omega

/-- A stored byte is read back, and every other bit reads as before (log entry 13). -/
theorem State.hostStore_readBit {s : State} (hi : s.Inv) {a : Nat} (hw : s.inWindow a = false) (v : Byte) (P : Nat) :
    (s.hostStore a v).readBit P = if P / 8 = a then v.getLsbD (7 - P % 8) else s.readBit P := by
  have hwf := hi.1
  split
  · rename_i hP
    rw [State.readBit_outside (s := s.hostStore a v) (State.outside_tail_of_not_inWindow hi hw hP), State.hostStore_drawn,
      drawAt_eq_none, State.hostStore_mem, Option.elim_none, Memory.bit, Memory.read_write hwf, if_pos hP.symm]
    intro r hr hcovers
    have := regionsMinus_clear hr
    omega
  · rename_i hP
    rw [State.readBit_eq, State.readBit_eq, State.hostStore_drawn, State.hostStore_mem,
      drawAt_regionsMinus_of_outside _ (by omega), Memory.bit, Memory.read_write hwf, if_neg (Ne.symm hP)]
    rfl

/-- A written window byte holds the new draw, before the cursor and after it (R65, U2; log entry 13). -/
theorem State.hostSpoil_readBit {s : State} {a P : Nat} (hw : s.inWindow a = true) (hP : P / 8 = a) :
    (s.hostSpoil a).readBit P = Config.freeBit (s.draws + 1) P := by
  simp only [State.inWindow, Bool.and_eq_true, decide_eq_true_eq] at hw
  obtain ⟨⟨hc, hlo⟩, hhi⟩ := hw
  by_cases hbefore : P < s.absPos
  · rw [State.readBit_before (s := s.hostSpoil a) hbefore, State.hostSpoil_drawn, if_pos (by omega), drawAt,
      if_pos (by simp; omega), Option.elim_some]
  · rw [State.readBit_eq, if_pos, State.hostSpoil_draws]
    exact ⟨hc, not_lt.1 hbefore, by rw [State.hostSpoil_bufEnd]; omega⟩

/-- A written window byte leaves every other bit outside the rest of the window (R65). -/
theorem State.hostSpoil_readBit_of_ne {s : State} {a P : Nat} (hP : P / 8 ≠ a) (h : P < s.absPos ∨ 8 * s.bufEnd.toNat ≤ P) :
    (s.hostSpoil a).readBit P = s.readBit P := by
  rw [State.readBit_outside (s := s.hostSpoil a) fun _ => h, State.readBit_outside fun _ => h, State.hostSpoil_drawn,
    State.hostSpoil_mem]
  split
  · rw [drawAt, if_neg (by simp; omega), drawAt_regionsMinus_of_outside _ (by omega)]
  · rfl

/-- Settles O15: a read by its address and the platform, a write by whether its byte is in the window. -/
theorem hostWriteReadsBack : Obligations.HostWriteReadsBack := by
  intro s a hi
  refine ⟨s.hostRead_eq_none_iff a, s.hostWrite_eq_none_iff a, fun ha => ?_, fun v t ht => ?_⟩
  · cases hcoherent : s.params.platformCoherent with
    | true => rw [State.hostRead_of_coherent ha hcoherent, if_pos rfl]
    | false =>
      rw [State.hostRead_of_exists ha]
      simp [State.hostReadBit, hcoherent]
  · obtain ⟨ha, ⟨hw, rfl⟩ | ⟨hw, rfl⟩⟩ := State.hostWrite_cases ht
    · refine ⟨fun hout => absurd (hout.symm.trans hw) Bool.false_ne_true, fun _ => ⟨rfl,
        fun P hP => State.hostSpoil_readBit hw hP, fun P hP h => State.hostSpoil_readBit_of_ne hP h, fun hcoherent => ?_⟩⟩
      exact State.hostRead_of_readBit (s := s.hostSpoil a) ha hcoherent fun j hj => State.hostSpoil_readBit hw (by omega)
    · have hread := State.hostStore_readBit hi hw v
      refine ⟨fun _ => ⟨hread, fun hcoherent => ⟨?_, fun b hb => ?_⟩⟩, fun hin => absurd (hw.symm.trans hin) Bool.false_ne_true⟩
      · refine State.hostRead_of_readBit (s := s.hostStore a v) ha hcoherent fun j hj => ?_
        rw [hread, if_pos (by omega), show (8 * a + j) % 8 = j by omega]
      · refine State.hostRead_congr rfl hcoherent fun P hP => ?_
        rw [hread, if_neg (hP ▸ hb)]

/-! ### Responses -/

/-- A command that completes gives as many responses as its kind says (R73). -/
theorem computedOf_response {i : Instr} {s : State} {r : Result} (h : computedOf s i = some (.done r)) :
    r.response.toList.length = i.responseCount := by
  cases i with
  | reset | readReg => cases h
  | putBits | putUe | putSe =>
    simp only [computedOf, computePutBits, computePutUe, computePutSe, State.emitOnly, Option.some.injEq] at h
    split at h
    · cases h
    · cases h; rfl
  | putBit | putTrailingBits | getBitOffset => cases h; rfl
  | encodeBin ctx bin =>
    rw [computedOf, computeEncodeBin, Option.some.injEq] at h
    cases he : renormE (chooseInterval s.coder ctx bin) <;> rw [he] at h <;> cases h
    rfl
  | encodeBinEp bin =>
    obtain ⟨hc, -⟩ | ⟨d, -, hc⟩ := computeEncodeBinEp_cases s.coder bin
    · cases (congrArg some hc).symm.trans h
    · cases (congrArg some hc).symm.trans h
      rfl
  | sliceFinish =>
    rw [computedOf, computeSliceFinish, Option.some.injEq] at h
    cases he : renormE (chooseTerminate s.coder) <;> rw [he] at h <;> cases h
    rfl

/-- READ_REG of a register that may be read responds, any other READ_REG is a fault (R193). -/
theorem exec_readReg_responds_or_raises (reg : BitVec 8) (s : State) :
    (reg.toNat ≤ 10 ∧ (reg = 0 ∨ s.configured = true)) ∧ (∃ v, exec (.readReg reg) s = .next (s.respond v).redraw) ∨
      ¬ (reg.toNat ≤ 10 ∧ (reg = 0 ∨ s.configured = true)) ∧ ∃ code, exec (.readReg reg) s = .next (s.raise code) := by
  by_cases hn : reg.toNat ≤ 10
  · obtain ⟨v, hv⟩ := s.exists_register hn
    by_cases hc : reg = 0 ∨ s.configured = true
    · exact .inl ⟨⟨hn, hc⟩, v, exec_readReg_of_register hv hc⟩
    · obtain ⟨hreg, hunconfigured⟩ := not_or.1 hc
      exact .inr ⟨fun h => hc h.2, _, exec_readReg_notConfigured hn hreg (by simpa using hunconfigured)⟩
  · exact .inr ⟨fun h => hn h.1, _, exec_readReg_operandRange (not_le.1 hn) s⟩

/-- Settles O19: a response is given by a commit and by a READ_REG that completes, and by nothing else. -/
theorem oneResponsePerCommand : Obligations.OneResponsePerCommand := by
  intro i s t h
  by_cases hkind : ∃ reg, i = .readReg reg
  · obtain ⟨reg, rfl⟩ := hkind
    obtain ⟨hreads, v, hexec⟩ | ⟨hfails, code, hexec⟩ := exec_readReg_responds_or_raises reg s <;> cases hexec.symm.trans h
    · refine ⟨[v], rfl, ?_, fun _ _ => rfl, fun reg' heq => ?_, fun hreset => by cases hreset⟩
      · rintro (⟨hs, ht⟩ | ⟨-, hcontrol⟩)
        · exact absurd (hs.symm.trans ht) Bool.false_ne_true
        · cases hcontrol
      · cases heq
        rw [if_pos hreads]
        rfl
    · refine ⟨[], (List.append_nil _).symm, fun _ => rfl, fun _ ht => ?_, fun reg' heq => ?_, fun _ => rfl⟩
      · simp at ht
      · cases heq
        rw [if_neg hfails]
        rfl
  · have hreg := not_exists.1 hkind
    obtain ⟨hf, -, rfl⟩ | ⟨-, code, rfl⟩ | ⟨hready, hcontrol, r, hr, -, rfl⟩ | ⟨sbo, start, stop, rfl, -, rfl⟩ |
      ⟨reg, v, heq, -⟩ := exec_cases h
    · exact ⟨[], (List.append_nil _).symm, fun _ => rfl, fun hs => absurd (hs.symm.trans hf) Bool.false_ne_true,
        fun reg heq => absurd heq (hreg reg), fun _ => rfl⟩
    · refine ⟨[], (List.append_nil _).symm, fun _ => rfl, fun _ ht => ?_, fun reg heq => absurd heq (hreg reg), fun _ => rfl⟩
      simp at ht
    · refine ⟨r.response.toList, s.commit_responses r, ?_, fun _ _ => computedOf_response hr,
        fun reg heq => absurd heq (hreg reg), fun hreset => ?_⟩
      · rw [State.commit_faulted, hready.2]
        rintro (⟨-, ht⟩ | ⟨hs, -⟩)
        · cases ht
        · cases hs
      · rw [isReset_eq_false_of_not_control hcontrol] at hreset
        cases hreset
    · exact ⟨[], (List.append_nil _).symm, fun _ => rfl, fun _ _ => rfl, fun reg heq => absurd heq (hreg reg), fun _ => rfl⟩
    · exact absurd heq (hreg reg)

/-! ### The cursor and the bits that stay -/

theorem State.illegalWord_absPos (s : State) : s.illegalWord.absPos = s.absPos := by
  unfold State.illegalWord
  split <;> rfl

theorem State.illegalWord_params (s : State) : s.illegalWord.params = s.params := by
  unfold State.illegalWord
  split <;> rfl

theorem State.illegalWord_readBit (s : State) (P : Nat) : s.illegalWord.readBit P = s.readBit P := by
  unfold State.illegalWord
  split
  · rfl
  · exact s.raise_readBit _ P

/-- The cursor is its absolute position (R24). -/
theorem cursor_eq_iff {s t : State} : t.curPtr = s.curPtr ∧ t.bitOffset = s.bitOffset ↔ t.absPos = s.absPos := by
  unfold State.absPos
  constructor
  · rintro ⟨hptr, hoffset⟩
    rw [hptr, hoffset]
  · intro h
    exact ⟨BitVec.eq_of_toNat_eq (by omega), BitVec.eq_of_toNat_eq (by omega)⟩

/-- From `s` to `t` the cursor does not move back, and once configured the bits before it and outside the window read as before
(R24, R64). -/
def BitsStay (s t : State) : Prop :=
  s.absPos ≤ t.absPos ∧
    (s.configured = true → ∀ P, P < s.absPos ∨ 8 * s.bufEnd.toNat ≤ P → t.readBit P = s.readBit P)

theorem BitsStay.of_readBit {s t : State} (hpos : t.absPos = s.absPos) (hread : ∀ P, t.readBit P = s.readBit P) :
    BitsStay s t :=
  ⟨hpos.ge, fun _ P _ => hread P⟩

/-- READ_REG draws anew the rest of the window only (R57, R193). -/
theorem State.respond_redraw_bitsStay (s : State) (v : Word) : BitsStay s (s.respond v).redraw :=
  ⟨le_rfl, fun _ _ hP => (State.readBit_outside (s := (s.respond v).redraw) fun _ => hP).trans
    (State.readBit_outside fun _ => hP).symm⟩

/-- Every command but a good RESET leaves the emitted bits (R64). -/
theorem exec_bitsStay {i : Instr} {s t : State} (hi : s.Inv) (h : exec i s = .next t)
    (hbad : ∀ sbo start stop, i = .reset sbo start stop → ¬ resetWellFormed s.params sbo start stop) : BitsStay s t := by
  obtain ⟨-, -, rfl⟩ | ⟨-, code, rfl⟩ | ⟨hready, -, r, -, hroom, rfl⟩ | ⟨sbo, start, stop, heq, hgood, -⟩ |
    ⟨reg, v, -, -, -, rfl⟩ := exec_cases h
  · exact .of_readBit rfl fun _ => rfl
  · exact .of_readBit rfl (s.raise_readBit code)
  · obtain ⟨hpos, -, hkept, -⟩ := hi.emitted_commit hready.1 hroom
    exact ⟨hpos ▸ Nat.le_add_right _ _, fun _ => hkept⟩
  · exact absurd hgood (hbad sbo start stop heq)
  · exact s.respond_redraw_bitsStay v

/-- Settles O52: a hold and an illegal word leave every bit, and so does every command but a good RESET what was emitted. -/
theorem emittedBitsStay : Obligations.EmittedBitsStay := by
  intro s t hi hstep hbad
  obtain ⟨-, hs⟩ | ⟨rest, -, hs⟩ | ⟨i, rest, hdecode, hs⟩ := step_cases s
  · cases hs.symm.trans hstep
    exact BitsStay.of_readBit rfl fun _ => rfl
  · cases hs.symm.trans hstep
    exact BitsStay.of_readBit (State.illegalWord_absPos _) (State.illegalWord_readBit _)
  · exact exec_bitsStay (s := s.consume rest) hi (hs.symm.trans hstep)
      fun sbo start stop heq => hbad sbo start stop rest (heq ▸ hdecode)

/-- No command changes the parameters (R6). -/
theorem exec_params {i : Instr} {s t : State} (h : exec i s = .next t) : t.params = s.params := by
  obtain ⟨-, -, rfl⟩ | ⟨-, code, rfl⟩ | ⟨-, -, r, -, -, rfl⟩ | ⟨sbo, start, stop, -, -, rfl⟩ |
    ⟨reg, v, -, -, -, rfl⟩ := exec_cases h
  · rfl
  · rfl
  · exact s.commit_params r
  · rfl
  · rfl

/-- A command that completes with the result `r` emits the bits of its pending output (R80). -/
theorem exec_emitted {i : Instr} {s t : State} {r : Result} (hi : s.Inv) (hr : s.Ready)
    (hcomputed : computedOf s i = some (.done r)) (h : exec i s = .next t) (ht : t.faulted = false) :
    Emitted s t (Output.bits r.out) := by
  rw [exec_of_computed hcomputed] at h
  by_cases hroom : s.Room (Output.len r.out)
  · cases (State.execute_done hr hroom).symm.trans h
    exact hi.emitted_commit hr.1 hroom
  · cases (State.execute_exhausted hr hroom).symm.trans h
    simp at ht

/-- The cursor does not move where a command ends FAULTED, and GET_BIT_OFFSET and READ_REG do not move it (R24). -/
theorem exec_absPos {i : Instr} {s t : State} (h : exec i s = .next t)
    (hi : i = .getBitOffset ∨ (∃ reg, i = .readReg reg) ∨ t.faulted = true) : t.absPos = s.absPos := by
  obtain ⟨-, -, rfl⟩ | ⟨-, code, rfl⟩ | ⟨hready, -, r, hr, hroom, rfl⟩ | ⟨sbo, start, stop, rfl, -, rfl⟩ |
    ⟨reg, v, -, -, -, rfl⟩ := exec_cases h
  · rfl
  · rfl
  · obtain rfl | ⟨reg, rfl⟩ | hf := hi
    · cases hr
      exact State.commit_absPos s _ hroom
    · cases hr
    · simp [hready.2] at hf
  · obtain hi | ⟨reg, hi⟩ | hf := hi
    · cases hi
    · cases hi
    · simp at hf
  · rfl

/-- Settles O57: the parameters by the cases of a step; the cursor by its absolute position, which a commit moves by the length
of its output. -/
theorem cursorMovesByEmission : Obligations.CursorMovesByEmission := by
  refine ⟨fun s t hstep => ?_, fun i s t r hi hr hcomputed h ht => ?_, fun s t hstep hkept => ?_⟩
  · obtain ⟨-, hs⟩ | ⟨rest, -, hs⟩ | ⟨i, rest, -, hs⟩ := step_cases s
    · cases hs.symm.trans hstep
      rfl
    · cases hs.symm.trans hstep
      exact State.illegalWord_params _
    · exact exec_params (s := s.consume rest) (hs.symm.trans hstep)
  · have hemitted := exec_emitted hi hr hcomputed h ht
    refine ⟨hemitted, ?_⟩
    rw [cursor_eq_iff, hemitted.1, ← List.length_eq_zero_iff]
    omega
  · rw [cursor_eq_iff]
    obtain ⟨-, hs⟩ | ⟨rest, -, hs⟩ | ⟨i, rest, hdecode, hs⟩ := step_cases s
    · cases hs.symm.trans hstep
      rfl
    · cases hs.symm.trans hstep
      exact State.illegalWord_absPos _
    · refine exec_absPos (s := s.consume rest) (hs.symm.trans hstep) ?_
      rw [hdecode] at hkept
      simpa using hkept

/-- A run of commands does not change the parameters (R6). -/
theorem execAll_params {is : List Instr} {s t : State} (h : execAll is s = some t) : t.params = s.params := by
  induction is generalizing s with
  | nil => cases h; rfl
  | cons i is ih =>
    obtain ⟨u, hu, hrest⟩ := execAll_cons_iff.1 h
    exact (ih hrest).trans (exec_params hu)

/-- RESET and READ_REG have no compute step. -/
theorem isControl_eq_false_of_computed {i : Instr} {s : State} {c : Computed} (h : computedOf s i = some c) :
    i.isControl = false := by
  cases i with
  | reset | readReg => cases h
  | _ => rfl

/-- Settles O58: the emitted bits stand before the cursor, where no later command other than RESET writes. -/
theorem hostSeesEmittedBits : Obligations.HostSeesEmittedBits := by
  intro i is s t u r hi hr hcoherent hcomputed h ht his hrun k hk
  obtain ⟨hpos, hread, -⟩ := exec_emitted hi hr hcomputed h ht
  obtain ⟨hwf, -, -, hwindow⟩ := exec_inv hi h
  obtain ⟨hc, -⟩ := exec_ready (isControl_eq_false_of_computed hcomputed) hr h ht
  obtain ⟨-, -, hclear⟩ := hwindow hc
  have hsettled : t.Settled (s.absPos + k) := ⟨hwf, hc, hclear, by omega⟩
  rw [State.hostReadBit_of_coherent, (execAll_settled his hrun hsettled).2, hread k hk]
  rw [execAll_params hrun, exec_params h, hcoherent]

/-! ### Emitting in two parts -/

theorem Memory.writeBits_append (a b : List Bool) (m : Memory) (P : Nat) :
    Memory.writeBits m P (a ++ b) = Memory.writeBits (Memory.writeBits m P a) (P + a.length) b := by
  induction a generalizing m P with
  | nil => rfl
  | cons x a ih =>
    rw [List.cons_append, Memory.writeBits, Memory.writeBits, ih, List.length_cons, Nat.add_assoc, Nat.add_comm 1]

/-- `bits_n` of a value is its upper bits and then its lower ones (R8). -/
theorem bitsOf_add (a b v : Nat) : bitsOf (a + b) v = bitsOf a (v / 2 ^ b) ++ bitsOf b v := by
  rw [bitsOf, bitsOf, bitsOf, List.range_add, List.map_append, List.map_map]
  congr 1
  · refine List.map_congr_left fun j hj => ?_
    rw [List.mem_range] at hj
    rw [Nat.div_div_eq_div_mul, ← pow_add, show b + (a - 1 - j) = a + b - 1 - j by omega]
  · refine List.map_congr_left fun j _ => ?_
    rw [Function.comp_apply, show a + b - 1 - (a + j) = b - 1 - j by omega]

/-- Emitting depends on the bits of the output only (R8, R52). -/
theorem State.emit_congr (s : State) {a b : Output} (h : Output.bits a = Output.bits b) : s.emit a = s.emit b := by
  have hlen : Output.len a = Output.len b := by rw [← Output.length_bits, h, Output.length_bits]
  simp only [State.emit, h, hlen]

/-- The commit of a command that leaves the coder registers and does not respond emits and draws anew (R57, R80). -/
theorem State.commit_emitOnly (s : State) (out : Output) :
    s.commit { out := out, coder := s.coder, response := none } = (s.emit out).redraw := rfl

theorem State.emit_absPos {s : State} {out : Output} (h : s.Room (Output.len out)) :
    (s.emit out).absPos = s.absPos + Output.len out :=
  State.commit_absPos s { out := out, coder := s.coder, response := none } h

/-- Emitting two outputs that fit one after the other is emitting both at once (R52). -/
theorem State.emit_append {s : State} {a b : Output} (h : s.Room (Output.len a)) : s.emit (a ++ b) = (s.emit a).emit b := by
  have hpos := State.emit_absPos h
  rw [State.emit, State.emit, hpos, Output.bits_append, Memory.writeBits_append, Output.length_bits, Output.len_append,
    ← Nat.add_assoc]
  rfl

theorem State.room_of_add {s : State} {a b : Nat} (h : s.Room (a + b)) : s.Room a := by
  unfold State.Room at h ⊢
  omega

/-- Emitting leaves room for what fitted behind it (R59). -/
theorem State.room_emit {s : State} {out : Output} {n : Nat} (h : s.Room (Output.len out + n)) :
    (s.emit out).redraw.Room n := by
  have hpos : (s.emit out).redraw.absPos = s.absPos + Output.len out := State.emit_absPos (State.room_of_add h)
  unfold State.Room at h ⊢
  rw [hpos, State.redraw_bufEnd, State.emit_bufEnd]
  omega

/-- PUT_BITS of at most 32 bits that fit emits its field and draws anew (R57, R100). -/
theorem exec_putBits {s : State} {n : BitVec 6} {value : BitVec 32} (hr : s.Ready) (hn : n.toNat ≤ 32)
    (hroom : s.Room n.toNat) :
    exec (.putBits n value) s = .next (s.emit [.field n.toNat value.toNat]).redraw := by
  have hcomputed : computedOf s (.putBits n value) = some (s.emitOnly [.field n.toNat value.toNat]) :=
    congrArg some (if_neg (not_lt.2 hn))
  have hfits : s.Room (Output.len [.field n.toNat value.toNat]) := hroom
  rw [exec_of_computed hcomputed, State.emitOnly, State.execute_done hr hfits, State.commit_emitOnly]

/-- Settles O27: the upper 16 bits and the rest are the bits of the whole, emitted one part after the other. -/
theorem putBitsSplitTransparent : Obligations.PutBitsSplitTransparent := by
  intro n m value s t _ hr hlo hhi hm h ht
  have hroom : s.Room n.toNat := by
    obtain ⟨r, hcomputed, hroom, -⟩ := exec_completed rfl hr h ht
    cases (congrArg some (if_neg (not_lt.2 hhi))).symm.trans hcomputed
    exact hroom
  cases (exec_putBits hr hhi hroom).symm.trans h
  have hsplit : n.toNat = 16 + m.toNat := by omega
  rw [hsplit] at hroom
  have hroom_upper : s.Room 16 := State.room_of_add hroom
  have hbits : Output.bits [.field n.toNat value.toNat] =
      Output.bits ([.field 16 (value >>> m.toNat).toNat] ++ [.field m.toNat value.toNat]) := by
    simp [← bitsOf_add, Nat.shiftRight_eq_div_pow, hsplit]
  refine ⟨_, execAll_cons_iff.2 ⟨_, exec_putBits (n := 16) hr (by decide) hroom_upper, execAll_cons_iff.2
    ⟨_, exec_putBits hr (by omega) (State.room_emit (out := [.field 16 _]) hroom), rfl⟩⟩, ?_⟩
  rw [State.emit_congr s hbits, State.emit_append (a := [.field 16 _]) hroom_upper]
  rfl

/-! ### The Exp-Golomb codes -/

theorem bitsOf_succ (n v : Nat) : bitsOf (n + 1) v = (v / 2 ^ n % 2 == 1) :: bitsOf n v := by
  rw [Nat.add_comm, bitsOf_add]
  simp [bitsOf]

/-- `bits_n` of a value stands for its `n` low bits (R8). -/
theorem natOfBits_bitsOf (n v : Nat) : natOfBits (bitsOf n v) = v % 2 ^ n := by
  induction n with
  | zero => simp [bitsOf, Nat.mod_one]
  | succ n ih =>
    rw [bitsOf_succ, natOfBits_cons, length_bitsOf, ih, Nat.mod_pow_succ]
    obtain h | h := Nat.mod_two_eq_zero_or_one (v / 2 ^ n) <;> simp [h]
    omega

/-- The reference decoder counts the leading zeros (R105). -/
theorem ueDecodeFrom_zeros (k zeros : Nat) (bs : List Bool) :
    ueDecodeFrom zeros (List.replicate k false ++ bs) = ueDecodeFrom (zeros + k) bs := by
  induction k generalizing zeros with
  | zero => rfl
  | succ k ih => rw [List.replicate_succ, List.cons_append, ueDecodeFrom, ih, Nat.add_assoc, Nat.add_comm 1]

theorem log2_succ_bounds (v : Nat) : 2 ^ (v + 1).log2 ≤ v + 1 ∧ v + 1 < 2 ^ ((v + 1).log2 + 1) :=
  (Nat.log2_eq_iff v.succ_ne_zero).1 rfl

/-- The model's Exp-Golomb code: as many zeros as `v + 1` has bits after its first, then `v + 1` (R104). -/
theorem bits_expGolomb_eq (v : Nat) :
    Output.bits (expGolomb v) = List.replicate (v + 1).log2 false ++ true :: bitsOf (v + 1).log2 (v + 1) := by
  obtain ⟨hlo, hhi⟩ := log2_succ_bounds v
  have hfirst : (v + 1) / 2 ^ (v + 1).log2 = 1 := Nat.div_eq_of_lt_le (by omega) (by rw [pow_succ] at hhi; omega)
  simp [expGolomb, bitLength, bitsOf_succ, hfirst]

/-- The reference decoder reads an Exp-Golomb code back, and leaves the bits that follow (R105). -/
theorem ueDecode_expGolomb (v : Nat) (rest : List Bool) : ueDecode (Output.bits (expGolomb v) ++ rest) = some (v, rest) := by
  obtain ⟨hlo, hhi⟩ := log2_succ_bounds v
  have hnumber : natOfBits (true :: bitsOf (v + 1).log2 (v + 1)) = v + 1 := by
    rw [natOfBits_cons, natOfBits_bitsOf, length_bitsOf, Nat.mod_eq_sub_mod hlo, Nat.mod_eq_of_lt]
    · simp
      omega
    · rw [pow_succ] at hhi
      omega
  rw [ueDecode, bits_expGolomb_eq, List.append_assoc, ueDecodeFrom_zeros, List.cons_append, ueDecodeFrom, Nat.zero_add,
    if_neg (by simp), List.take_left' (length_bitsOf _ _), List.drop_left' (length_bitsOf _ _), hnumber]
  rfl

theorem len_expGolomb_eq (v : Nat) : (Output.bits (expGolomb v)).length = 2 * (v + 1).log2 + 1 := by
  rw [bits_expGolomb_eq]
  simp
  omega

/-- Settles O28: the code by its leading zeros; what PUT_UE emits is the code, and stands at the old cursor. -/
theorem unsignedExpGolombRoundTrip : Obligations.UnsignedExpGolombRoundTrip := by
  refine ⟨fun v rest => ⟨len_expGolomb_eq v, ⟨_, bits_expGolomb_eq v⟩, ueDecode_expGolomb v rest⟩,
    fun value s t rest hi hr h ht => ?_⟩
  obtain ⟨r, hcomputed, -⟩ := exec_completed rfl hr h ht
  have hemitted := exec_emitted hi hr hcomputed h ht
  have hout : r.out = expGolomb value.toNat := by
    rw [computedOf, computePutUe, Option.some.injEq] at hcomputed
    split at hcomputed
    · cases hcomputed
    · cases hcomputed
      rfl
  rw [hout] at hemitted
  refine ⟨by rw [hemitted.1, len_expGolomb_eq], ?_⟩
  rw [hemitted.bitsFrom_eq le_rfl, State.bitsFrom_self, List.nil_append, ueDecode_expGolomb]

/-- Settles O29: by the sign of the value and the parity of the code number. -/
theorem signedCodeNumberBijective : Obligations.SignedCodeNumberBijective := by
  refine ⟨fun x => ?_, fun k => ?_, fun x => ?_⟩
  · unfold signedCodeNumber seValue
    by_cases hx : 0 < x
    · rw [if_pos hx, if_pos (by omega)]
      omega
    · rw [if_neg hx, if_neg (by omega)]
      omega
  · unfold signedCodeNumber seValue
    by_cases hk : k % 2 = 1
    · rw [if_pos hk, if_pos (by omega)]
      omega
    · rw [if_neg hk, if_neg (by omega)]
      omega
  · unfold signedCodeNumber
    split <;> omega

end Sys2Proof.Machine
end
